-- ==== Sys2Proof/Word.lean ====
section
/-! DEFINITION. The word types of the core (00_scope.md R6, R8): 32-bit words, 8-bit bytes, 5-bit register numbers, the
32-byte preimage key. Byte order, sign extension and every other helper a rule of the spec fixes stand under Machine/. -/

namespace Sys2Proof

/-- A byte of memory, of the key, or of a port's stream. -/
abbrev Byte := BitVec 8

/-- A register, address or instruction word (R6, R8): arithmetic on it is modulo 2^32. -/
abbrev Word := BitVec 32

/-- A register number, as the 5-bit fields `rs`, `rt`, `rd` of an instruction give it (R81). -/
abbrev Reg := BitVec 5

/-- A preimage key: 32 bytes, index 0 first and oldest, index 31 last and newest (10_state.md R36). -/
abbrev Key := Vector Byte 32

end Sys2Proof
end

