-- ==== Sys2Proof/Syntax.lean ====
section
/-! DEFINITION. The instructions: one constructor per row of spec/opcode_table.json (62 named instructions and the 7
pass-through SPECIAL functs, 30_encoding.md R99). A constructor carries exactly the fields its rule reads, each at its
field's width (R81), in the operand order of R100; fields no rule reads are ignored by the hardware (R95) and stand in no
constructor. -/

namespace Sys2Proof

inductive Instr where
  -- Jumps (41_branch_jump.md section 2).
  /-- `j index` (R140). -/
  | j (index : BitVec 26)
  /-- `jal index` (R141). -/
  | jal (index : BitVec 26)
  /-- `jr rs` (R142). -/
  | jr (rs : Reg)
  /-- `jalr rd, rs` (R143). -/
  | jalr (rd rs : Reg)
  -- Branches (41_branch_jump.md section 1); `imm` counts words from the address after the branch (R87).
  /-- `beq rs, rt, imm` (R132). -/
  | beq (rs rt : Reg) (imm : BitVec 16)
  /-- `bne rs, rt, imm` (R133). -/
  | bne (rs rt : Reg) (imm : BitVec 16)
  /-- `blez rs, imm` (R134). -/
  | blez (rs : Reg) (imm : BitVec 16)
  /-- `bgtz rs, imm` (R135). -/
  | bgtz (rs : Reg) (imm : BitVec 16)
  /-- `bltz rs, imm` (R136). -/
  | bltz (rs : Reg) (imm : BitVec 16)
  /-- `bgez rs, imm` (R137). -/
  | bgez (rs : Reg) (imm : BitVec 16)
  -- Shifts (42_alu.md section 2).
  /-- `sll rd, rt, shamt` (R151). -/
  | sll (rd rt : Reg) (shamt : BitVec 5)
  /-- `srl rd, rt, shamt` (R152). -/
  | srl (rd rt : Reg) (shamt : BitVec 5)
  /-- `sra rd, rt, shamt` (R153). -/
  | sra (rd rt : Reg) (shamt : BitVec 5)
  /-- `sllv rd, rt, rs` (R154). -/
  | sllv (rd rt rs : Reg)
  /-- `srlv rd, rt, rs` (R155). -/
  | srlv (rd rt rs : Reg)
  /-- `srav rd, rt, rs` (R156). -/
  | srav (rd rt rs : Reg)
  -- Three-register arithmetic and logic (42_alu.md section 3).
  /-- `add rd, rs, rt` (R160). -/
  | add (rd rs rt : Reg)
  /-- `addu rd, rs, rt` (R161). -/
  | addu (rd rs rt : Reg)
  /-- `sub rd, rs, rt` (R162). -/
  | sub (rd rs rt : Reg)
  /-- `subu rd, rs, rt` (R163). -/
  | subu (rd rs rt : Reg)
  /-- `and rd, rs, rt` (R164). -/
  | and (rd rs rt : Reg)
  /-- `or rd, rs, rt` (R165). -/
  | or (rd rs rt : Reg)
  /-- `xor rd, rs, rt` (R166). -/
  | xor (rd rs rt : Reg)
  /-- `nor rd, rs, rt` (R167). -/
  | nor (rd rs rt : Reg)
  /-- `slt rd, rs, rt` (R168). -/
  | slt (rd rs rt : Reg)
  /-- `sltu rd, rs, rt` (R169). -/
  | sltu (rd rs rt : Reg)
  -- Immediates (42_alu.md section 4).
  /-- `addi rt, rs, imm` (R170). -/
  | addi (rt rs : Reg) (imm : BitVec 16)
  /-- `addiu rt, rs, imm` (R171). -/
  | addiu (rt rs : Reg) (imm : BitVec 16)
  /-- `slti rt, rs, imm` (R172). -/
  | slti (rt rs : Reg) (imm : BitVec 16)
  /-- `sltiu rt, rs, imm` (R173). -/
  | sltiu (rt rs : Reg) (imm : BitVec 16)
  /-- `andi rt, rs, imm` (R174). -/
  | andi (rt rs : Reg) (imm : BitVec 16)
  /-- `ori rt, rs, imm` (R175). -/
  | ori (rt rs : Reg) (imm : BitVec 16)
  /-- `xori rt, rs, imm` (R176). -/
  | xori (rt rs : Reg) (imm : BitVec 16)
  /-- `lui rt, imm` (R177). -/
  | lui (rt : Reg) (imm : BitVec 16)
  -- SPECIAL2 (42_alu.md section 5).
  /-- `mul rd, rs, rt` (R180). -/
  | mul (rd rs rt : Reg)
  /-- `clz rd, rs` (R181). -/
  | clz (rd rs : Reg)
  /-- `clo rd, rs` (R182). -/
  | clo (rd rs : Reg)
  -- Conditional moves (42_alu.md section 6).
  /-- `movz rd, rs, rt` (R184). -/
  | movz (rd rs rt : Reg)
  /-- `movn rd, rs, rt` (R185). -/
  | movn (rd rs rt : Reg)
  -- Pass-through encodings, one per funct (42_alu.md section 7, R97).
  /-- `special_0x0d rd, rs` (R186). -/
  | special0x0d (rd rs : Reg)
  /-- `special_0x0e rd, rs` (R186). -/
  | special0x0e (rd rs : Reg)
  /-- `special_0x0f rd, rs` (R186). -/
  | special0x0f (rd rs : Reg)
  /-- `special_0x1c rd, rs` (R186). -/
  | special0x1c (rd rs : Reg)
  /-- `special_0x1d rd, rs` (R186). -/
  | special0x1d (rd rs : Reg)
  /-- `special_0x1e rd, rs` (R186). -/
  | special0x1e (rd rs : Reg)
  /-- `special_0x1f rd, rs` (R186). -/
  | special0x1f (rd rs : Reg)
  -- Loads (43_load_store.md section 2).
  /-- `lb rt, imm(rs)` (R201). -/
  | lb (rt : Reg) (imm : BitVec 16) (rs : Reg)
  /-- `lh rt, imm(rs)` (R202). -/
  | lh (rt : Reg) (imm : BitVec 16) (rs : Reg)
  /-- `lwl rt, imm(rs)` (R203). -/
  | lwl (rt : Reg) (imm : BitVec 16) (rs : Reg)
  /-- `lw rt, imm(rs)` (R204). -/
  | lw (rt : Reg) (imm : BitVec 16) (rs : Reg)
  /-- `lbu rt, imm(rs)` (R205). -/
  | lbu (rt : Reg) (imm : BitVec 16) (rs : Reg)
  /-- `lhu rt, imm(rs)` (R206). -/
  | lhu (rt : Reg) (imm : BitVec 16) (rs : Reg)
  /-- `lwr rt, imm(rs)` (R207). -/
  | lwr (rt : Reg) (imm : BitVec 16) (rs : Reg)
  -- Stores (43_load_store.md section 3).
  /-- `sb rt, imm(rs)` (R208). -/
  | sb (rt : Reg) (imm : BitVec 16) (rs : Reg)
  /-- `sh rt, imm(rs)` (R209). -/
  | sh (rt : Reg) (imm : BitVec 16) (rs : Reg)
  /-- `swl rt, imm(rs)` (R210). -/
  | swl (rt : Reg) (imm : BitVec 16) (rs : Reg)
  /-- `sw rt, imm(rs)` (R211). -/
  | sw (rt : Reg) (imm : BitVec 16) (rs : Reg)
  /-- `swr rt, imm(rs)` (R212). -/
  | swr (rt : Reg) (imm : BitVec 16) (rs : Reg)
  -- Load-linked and store-conditional (43_load_store.md section 4).
  /-- `ll rt, imm(rs)` (R213). -/
  | ll (rt : Reg) (imm : BitVec 16) (rs : Reg)
  /-- `sc rt, imm(rs)` (R214). -/
  | sc (rt : Reg) (imm : BitVec 16) (rs : Reg)
  -- Hi/lo moves (44_hilo.md section 2).
  /-- `mfhi rd` (R231). -/
  | mfhi (rd : Reg)
  /-- `mthi rs` (R232). -/
  | mthi (rs : Reg)
  /-- `mflo rd` (R233). -/
  | mflo (rd : Reg)
  /-- `mtlo rs` (R234). -/
  | mtlo (rs : Reg)
  -- Multiply (44_hilo.md section 3).
  /-- `mult rs, rt` (R235). -/
  | mult (rs rt : Reg)
  /-- `multu rs, rt` (R236). -/
  | multu (rs rt : Reg)
  -- Divide (44_hilo.md section 4).
  /-- `div rs, rt` (R237). -/
  | div (rs rt : Reg)
  /-- `divu rs, rt` (R238). -/
  | divu (rs rt : Reg)
  -- System call (45_syscall.md section 1).
  /-- `syscall` (R250). -/
  | syscall
  deriving DecidableEq, Repr

end Sys2Proof
end

