-- ==== Sys2Proof/WellFormed.lean ====
section
/-! DEFINITION. Well-formedness. Every operand of Instr carries its field's width in its type, so no term of Instr is
ill-formed; what can be ill-formed is an instruction WORD. `legalWord` is the check on words: some row of
spec/opcode_table.json matches it (30_encoding.md R99: "the row applies when `insn & mask = match`"). It is written from
the table's masks, independently of the decoder, which is written from the maps of R90 to R94. -/

namespace Sys2Proof

/-- One row's selection: it applies to a word `w` when `w &&& mask = pattern` (R99). -/
structure EncodingRow where
  mask : Word
  pattern : Word
  deriving DecidableEq, Repr

/-- The row of spec/opcode_table.json that an instruction belongs to. -/
def Instr.row : Instr → EncodingRow
  | .j _ => ⟨0xFC000000, 0x08000000⟩
  | .jal _ => ⟨0xFC000000, 0x0C000000⟩
  | .jr _ => ⟨0xFC00003F, 0x00000008⟩
  | .jalr _ _ => ⟨0xFC00003F, 0x00000009⟩
  | .beq _ _ _ => ⟨0xFC000000, 0x10000000⟩
  | .bne _ _ _ => ⟨0xFC000000, 0x14000000⟩
  | .blez _ _ => ⟨0xFC000000, 0x18000000⟩
  | .bgtz _ _ => ⟨0xFC000000, 0x1C000000⟩
  | .bltz _ _ => ⟨0xFC1F0000, 0x04000000⟩
  | .bgez _ _ => ⟨0xFC1F0000, 0x04010000⟩
  | .sll _ _ _ => ⟨0xFC00003F, 0x00000000⟩
  | .srl _ _ _ => ⟨0xFC00003F, 0x00000002⟩
  | .sra _ _ _ => ⟨0xFC00003F, 0x00000003⟩
  | .sllv _ _ _ => ⟨0xFC00003F, 0x00000004⟩
  | .srlv _ _ _ => ⟨0xFC00003F, 0x00000006⟩
  | .srav _ _ _ => ⟨0xFC00003F, 0x00000007⟩
  | .add _ _ _ => ⟨0xFC00003F, 0x00000020⟩
  | .addu _ _ _ => ⟨0xFC00003F, 0x00000021⟩
  | .sub _ _ _ => ⟨0xFC00003F, 0x00000022⟩
  | .subu _ _ _ => ⟨0xFC00003F, 0x00000023⟩
  | .and _ _ _ => ⟨0xFC00003F, 0x00000024⟩
  | .or _ _ _ => ⟨0xFC00003F, 0x00000025⟩
  | .xor _ _ _ => ⟨0xFC00003F, 0x00000026⟩
  | .nor _ _ _ => ⟨0xFC00003F, 0x00000027⟩
  | .slt _ _ _ => ⟨0xFC00003F, 0x0000002A⟩
  | .sltu _ _ _ => ⟨0xFC00003F, 0x0000002B⟩
  | .addi _ _ _ => ⟨0xFC000000, 0x20000000⟩
  | .addiu _ _ _ => ⟨0xFC000000, 0x24000000⟩
  | .slti _ _ _ => ⟨0xFC000000, 0x28000000⟩
  | .sltiu _ _ _ => ⟨0xFC000000, 0x2C000000⟩
  | .andi _ _ _ => ⟨0xFC000000, 0x30000000⟩
  | .ori _ _ _ => ⟨0xFC000000, 0x34000000⟩
  | .xori _ _ _ => ⟨0xFC000000, 0x38000000⟩
  | .lui _ _ => ⟨0xFC000000, 0x3C000000⟩
  | .mul _ _ _ => ⟨0xFC00003F, 0x70000002⟩
  | .clz _ _ => ⟨0xFC00003F, 0x70000020⟩
  | .clo _ _ => ⟨0xFC00003F, 0x70000021⟩
  | .movz _ _ _ => ⟨0xFC00003F, 0x0000000A⟩
  | .movn _ _ _ => ⟨0xFC00003F, 0x0000000B⟩
  | .special0x0d _ _ => ⟨0xFC00003F, 0x0000000D⟩
  | .special0x0e _ _ => ⟨0xFC00003F, 0x0000000E⟩
  | .special0x0f _ _ => ⟨0xFC00003F, 0x0000000F⟩
  | .special0x1c _ _ => ⟨0xFC00003F, 0x0000001C⟩
  | .special0x1d _ _ => ⟨0xFC00003F, 0x0000001D⟩
  | .special0x1e _ _ => ⟨0xFC00003F, 0x0000001E⟩
  | .special0x1f _ _ => ⟨0xFC00003F, 0x0000001F⟩
  | .lb _ _ _ => ⟨0xFC000000, 0x80000000⟩
  | .lh _ _ _ => ⟨0xFC000000, 0x84000000⟩
  | .lwl _ _ _ => ⟨0xFC000000, 0x88000000⟩
  | .lw _ _ _ => ⟨0xFC000000, 0x8C000000⟩
  | .lbu _ _ _ => ⟨0xFC000000, 0x90000000⟩
  | .lhu _ _ _ => ⟨0xFC000000, 0x94000000⟩
  | .lwr _ _ _ => ⟨0xFC000000, 0x98000000⟩
  | .sb _ _ _ => ⟨0xFC000000, 0xA0000000⟩
  | .sh _ _ _ => ⟨0xFC000000, 0xA4000000⟩
  | .swl _ _ _ => ⟨0xFC000000, 0xA8000000⟩
  | .sw _ _ _ => ⟨0xFC000000, 0xAC000000⟩
  | .swr _ _ _ => ⟨0xFC000000, 0xB8000000⟩
  | .ll _ _ _ => ⟨0xFC000000, 0xC0000000⟩
  | .sc _ _ _ => ⟨0xFC000000, 0xE0000000⟩
  | .mfhi _ => ⟨0xFC00003F, 0x00000010⟩
  | .mthi _ => ⟨0xFC00003F, 0x00000011⟩
  | .mflo _ => ⟨0xFC00003F, 0x00000012⟩
  | .mtlo _ => ⟨0xFC00003F, 0x00000013⟩
  | .mult _ _ => ⟨0xFC00003F, 0x00000018⟩
  | .multu _ _ => ⟨0xFC00003F, 0x00000019⟩
  | .div _ _ => ⟨0xFC00003F, 0x0000001A⟩
  | .divu _ _ => ⟨0xFC00003F, 0x0000001B⟩
  | .syscall => ⟨0xFC00003F, 0x0000000C⟩

def jumpRows : List EncodingRow :=
  [(Instr.j 0).row, (Instr.jal 0).row, (Instr.jr 0).row, (Instr.jalr 0 0).row]

def branchRows : List EncodingRow :=
  [(Instr.beq 0 0 0).row, (Instr.bne 0 0 0).row, (Instr.blez 0 0).row, (Instr.bgtz 0 0).row, (Instr.bltz 0
   0).row, (Instr.bgez 0 0).row]

def shiftRows : List EncodingRow :=
  [(Instr.sll 0 0 0).row, (Instr.srl 0 0 0).row, (Instr.sra 0 0 0).row, (Instr.sllv 0 0 0).row, (Instr.srlv 0
   0 0).row, (Instr.srav 0 0 0).row]

def registerRows : List EncodingRow :=
  [(Instr.add 0 0 0).row, (Instr.addu 0 0 0).row, (Instr.sub 0 0 0).row, (Instr.subu 0 0 0).row, (Instr.and 0
   0 0).row, (Instr.or 0 0 0).row, (Instr.xor 0 0 0).row, (Instr.nor 0 0 0).row, (Instr.slt 0 0 0).row,
   (Instr.sltu 0 0 0).row]

def immediateRows : List EncodingRow :=
  [(Instr.addi 0 0 0).row, (Instr.addiu 0 0 0).row, (Instr.slti 0 0 0).row, (Instr.sltiu 0 0 0).row,
   (Instr.andi 0 0 0).row, (Instr.ori 0 0 0).row, (Instr.xori 0 0 0).row, (Instr.lui 0 0).row]

def special2AndMoveRows : List EncodingRow :=
  [(Instr.mul 0 0 0).row, (Instr.clz 0 0).row, (Instr.clo 0 0).row, (Instr.movz 0 0 0).row, (Instr.movn 0 0
   0).row]

def passThroughRows : List EncodingRow :=
  [(Instr.special0x0d 0 0).row, (Instr.special0x0e 0 0).row, (Instr.special0x0f 0 0).row, (Instr.special0x1c 0
   0).row, (Instr.special0x1d 0 0).row, (Instr.special0x1e 0 0).row, (Instr.special0x1f 0 0).row]

def loadRows : List EncodingRow :=
  [(Instr.lb 0 0 0).row, (Instr.lh 0 0 0).row, (Instr.lwl 0 0 0).row, (Instr.lw 0 0 0).row, (Instr.lbu 0 0
   0).row, (Instr.lhu 0 0 0).row, (Instr.lwr 0 0 0).row, (Instr.ll 0 0 0).row]

def storeRows : List EncodingRow :=
  [(Instr.sb 0 0 0).row, (Instr.sh 0 0 0).row, (Instr.swl 0 0 0).row, (Instr.sw 0 0 0).row, (Instr.swr 0 0
   0).row, (Instr.sc 0 0 0).row]

def hiLoRows : List EncodingRow :=
  [(Instr.mfhi 0).row, (Instr.mthi 0).row, (Instr.mflo 0).row, (Instr.mtlo 0).row, (Instr.mult 0 0).row,
   (Instr.multu 0 0).row, (Instr.div 0 0).row, (Instr.divu 0 0).row]

def syscallRows : List EncodingRow :=
  [(Instr.syscall).row]

/-- All rows of the opcode table. -/
def encodingRows : List EncodingRow :=
  jumpRows ++ branchRows ++ shiftRows ++ registerRows ++ immediateRows ++
    special2AndMoveRows ++ passThroughRows ++ loadRows ++ storeRows ++ hiLoRows ++ syscallRows

/-- Whether a row applies to a word. -/
def EncodingRow.applies (r : EncodingRow) (w : Word) : Bool := w &&& r.mask == r.pattern

/-- Whether a word is a legal instruction: one of the table's rows applies to it (R99: "every word matched by no row is
fatal"). -/
def legalWord (w : Word) : Bool := encodingRows.any fun r => r.applies w

end Sys2Proof
end

