-- ==== Sys2Proof/Decode.lean ====
section
/-! DEFINITION. Decoding, total on every word and on every byte sequence, rejecting by name (30_encoding.md R90 to R96); then
the encoder of every instruction in canonical form (R95), written from the same maps. -/

namespace Sys2Proof

/-! ### Fields of the instruction word (30_encoding.md R81) -/

def opcodeField (w : Word) : BitVec 6 := w.extractLsb' 26 6
def rsField (w : Word) : Reg := w.extractLsb' 21 5
def rtField (w : Word) : Reg := w.extractLsb' 16 5
def rdField (w : Word) : Reg := w.extractLsb' 11 5
def shamtField (w : Word) : BitVec 5 := w.extractLsb' 6 5
def functField (w : Word) : BitVec 6 := w.extractLsb' 0 6
def imm16Field (w : Word) : BitVec 16 := w.extractLsb' 0 16
def indexField (w : Word) : BitVec 26 := w.extractLsb' 0 26

/-! ### Decoding -/

/-- Why a word is no instruction. -/
inductive DecodeError where
  /-- A primary opcode, SPECIAL funct or SPECIAL2 funct of the fatal list (R96, R302). -/
  | invalidInstruction
  /-- REGIMM with `insn[20:16]` neither 0 nor 1 (R94, R138, R303). -/
  | invalidBranch
  /-- Fewer than four bytes: no instruction word (R80). No step meets this; a fetch reads a whole word. -/
  | truncated
  deriving DecidableEq, Repr

/-- SPECIAL (primary opcode 0): the function map of R92. -/
def decodeSpecial (w : Word) : Except DecodeError Instr :=
  match functField w with
  | 0x00#6 => .ok (.sll (rdField w) (rtField w) (shamtField w))
  | 0x02#6 => .ok (.srl (rdField w) (rtField w) (shamtField w))
  | 0x03#6 => .ok (.sra (rdField w) (rtField w) (shamtField w))
  | 0x04#6 => .ok (.sllv (rdField w) (rtField w) (rsField w))
  | 0x06#6 => .ok (.srlv (rdField w) (rtField w) (rsField w))
  | 0x07#6 => .ok (.srav (rdField w) (rtField w) (rsField w))
  | 0x08#6 => .ok (.jr (rsField w))
  | 0x09#6 => .ok (.jalr (rdField w) (rsField w))
  | 0x0a#6 => .ok (.movz (rdField w) (rsField w) (rtField w))
  | 0x0b#6 => .ok (.movn (rdField w) (rsField w) (rtField w))
  | 0x0c#6 => .ok (.syscall)
  | 0x0d#6 => .ok (.special0x0d (rdField w) (rsField w))
  | 0x0e#6 => .ok (.special0x0e (rdField w) (rsField w))
  | 0x0f#6 => .ok (.special0x0f (rdField w) (rsField w))
  | 0x10#6 => .ok (.mfhi (rdField w))
  | 0x11#6 => .ok (.mthi (rsField w))
  | 0x12#6 => .ok (.mflo (rdField w))
  | 0x13#6 => .ok (.mtlo (rsField w))
  | 0x18#6 => .ok (.mult (rsField w) (rtField w))
  | 0x19#6 => .ok (.multu (rsField w) (rtField w))
  | 0x1a#6 => .ok (.div (rsField w) (rtField w))
  | 0x1b#6 => .ok (.divu (rsField w) (rtField w))
  | 0x1c#6 => .ok (.special0x1c (rdField w) (rsField w))
  | 0x1d#6 => .ok (.special0x1d (rdField w) (rsField w))
  | 0x1e#6 => .ok (.special0x1e (rdField w) (rsField w))
  | 0x1f#6 => .ok (.special0x1f (rdField w) (rsField w))
  | 0x20#6 => .ok (.add (rdField w) (rsField w) (rtField w))
  | 0x21#6 => .ok (.addu (rdField w) (rsField w) (rtField w))
  | 0x22#6 => .ok (.sub (rdField w) (rsField w) (rtField w))
  | 0x23#6 => .ok (.subu (rdField w) (rsField w) (rtField w))
  | 0x24#6 => .ok (.and (rdField w) (rsField w) (rtField w))
  | 0x25#6 => .ok (.or (rdField w) (rsField w) (rtField w))
  | 0x26#6 => .ok (.xor (rdField w) (rsField w) (rtField w))
  | 0x27#6 => .ok (.nor (rdField w) (rsField w) (rtField w))
  | 0x2a#6 => .ok (.slt (rdField w) (rsField w) (rtField w))
  | 0x2b#6 => .ok (.sltu (rdField w) (rsField w) (rtField w))
  | _ => .error .invalidInstruction

/-- SPECIAL2 (primary opcode 0x1c): the function map of R93. -/
def decodeSpecial2 (w : Word) : Except DecodeError Instr :=
  match functField w with
  | 0x02#6 => .ok (.mul (rdField w) (rsField w) (rtField w))
  | 0x20#6 => .ok (.clz (rdField w) (rsField w))
  | 0x21#6 => .ok (.clo (rdField w) (rsField w))
  | _ => .error .invalidInstruction

/-- REGIMM (primary opcode 1): the map of R94 over `insn[20:16]`. -/
def decodeRegimm (w : Word) : Except DecodeError Instr :=
  match rtField w with
  | 0x00#5 => .ok (.bltz (rsField w) (imm16Field w))
  | 0x01#5 => .ok (.bgez (rsField w) (imm16Field w))
  | _ => .error .invalidBranch

/-- The decoder: the primary opcode map of R91, in the order of R90. It reads only `opcode`, and in addition `funct` for
SPECIAL and SPECIAL2 and the `rt` field for REGIMM. -/
def decode (w : Word) : Except DecodeError Instr :=
  match opcodeField w with
  | 0x00#6 => decodeSpecial w
  | 0x01#6 => decodeRegimm w
  | 0x02#6 => .ok (.j (indexField w))
  | 0x03#6 => .ok (.jal (indexField w))
  | 0x04#6 => .ok (.beq (rsField w) (rtField w) (imm16Field w))
  | 0x05#6 => .ok (.bne (rsField w) (rtField w) (imm16Field w))
  | 0x06#6 => .ok (.blez (rsField w) (imm16Field w))
  | 0x07#6 => .ok (.bgtz (rsField w) (imm16Field w))
  | 0x08#6 => .ok (.addi (rtField w) (rsField w) (imm16Field w))
  | 0x09#6 => .ok (.addiu (rtField w) (rsField w) (imm16Field w))
  | 0x0a#6 => .ok (.slti (rtField w) (rsField w) (imm16Field w))
  | 0x0b#6 => .ok (.sltiu (rtField w) (rsField w) (imm16Field w))
  | 0x0c#6 => .ok (.andi (rtField w) (rsField w) (imm16Field w))
  | 0x0d#6 => .ok (.ori (rtField w) (rsField w) (imm16Field w))
  | 0x0e#6 => .ok (.xori (rtField w) (rsField w) (imm16Field w))
  | 0x0f#6 => .ok (.lui (rtField w) (imm16Field w))
  | 0x1c#6 => decodeSpecial2 w
  | 0x20#6 => .ok (.lb (rtField w) (imm16Field w) (rsField w))
  | 0x21#6 => .ok (.lh (rtField w) (imm16Field w) (rsField w))
  | 0x22#6 => .ok (.lwl (rtField w) (imm16Field w) (rsField w))
  | 0x23#6 => .ok (.lw (rtField w) (imm16Field w) (rsField w))
  | 0x24#6 => .ok (.lbu (rtField w) (imm16Field w) (rsField w))
  | 0x25#6 => .ok (.lhu (rtField w) (imm16Field w) (rsField w))
  | 0x26#6 => .ok (.lwr (rtField w) (imm16Field w) (rsField w))
  | 0x28#6 => .ok (.sb (rtField w) (imm16Field w) (rsField w))
  | 0x29#6 => .ok (.sh (rtField w) (imm16Field w) (rsField w))
  | 0x2a#6 => .ok (.swl (rtField w) (imm16Field w) (rsField w))
  | 0x2b#6 => .ok (.sw (rtField w) (imm16Field w) (rsField w))
  | 0x2e#6 => .ok (.swr (rtField w) (imm16Field w) (rsField w))
  | 0x30#6 => .ok (.ll (rtField w) (imm16Field w) (rsField w))
  | 0x38#6 => .ok (.sc (rtField w) (imm16Field w) (rsField w))
  | _ => .error .invalidInstruction

/-- `be32` of R9: a word from its four bytes, most significant first. -/
def be32 (b0 b1 b2 b3 : Byte) : Word := b0 ++ b1 ++ b2 ++ b3

/-- The decoder over bytes in the order memory stores them (R58: "the most significant instruction byte at the lowest
address"): the instruction and the bytes after it. -/
def decodeBytes : List Byte → Except DecodeError (Instr × List Byte)
  | b0 :: b1 :: b2 :: b3 :: rest =>
    match decode (be32 b0 b1 b2 b3) with
    | .ok i => .ok (i, rest)
    | .error e => .error e
  | _ => .error .truncated

/-- The table numbers an instruction word's bits as R8 does. An instruction is one 32-bit word, so bits the row leaves out
are 0 and a number that needs more than 32 bits is no instruction. -/
def decodeTableWord (nbits w : Nat) : Option Instr :=
  let v := w % 2 ^ nbits
  if v < 2 ^ 32 then
    match decode (BitVec.ofNat 32 v) with
    | .ok i => some i
    | .error _ => none
  else none

/-! ### Encoding -/

/-- R-format (R82). -/
def encodeR (opcode : BitVec 6) (rs rt rd : Reg) (shamt : BitVec 5) (funct : BitVec 6) : Word :=
  opcode ++ rs ++ rt ++ rd ++ shamt ++ funct

/-- I-format (R83). -/
def encodeI (opcode : BitVec 6) (rs rt : Reg) (imm : BitVec 16) : Word := opcode ++ rs ++ rt ++ imm

/-- J-format (R84). -/
def encodeJ (opcode : BitVec 6) (index : BitVec 26) : Word := opcode ++ index

/-- The canonical word of an instruction: fields no rule reads are zero (R13, R95). -/
def encode : Instr → Word
  | .j index => encodeJ 0x02 index
  | .jal index => encodeJ 0x03 index
  | .jr rs => encodeR 0x00 rs 0 0 0 0x08
  | .jalr rd rs => encodeR 0x00 rs 0 rd 0 0x09
  | .beq rs rt imm => encodeI 0x04 rs rt imm
  | .bne rs rt imm => encodeI 0x05 rs rt imm
  | .blez rs imm => encodeI 0x06 rs 0 imm
  | .bgtz rs imm => encodeI 0x07 rs 0 imm
  | .bltz rs imm => encodeI 0x01 rs 0 imm
  | .bgez rs imm => encodeI 0x01 rs 1 imm
  | .sll rd rt shamt => encodeR 0x00 0 rt rd shamt 0x00
  | .srl rd rt shamt => encodeR 0x00 0 rt rd shamt 0x02
  | .sra rd rt shamt => encodeR 0x00 0 rt rd shamt 0x03
  | .sllv rd rt rs => encodeR 0x00 rs rt rd 0 0x04
  | .srlv rd rt rs => encodeR 0x00 rs rt rd 0 0x06
  | .srav rd rt rs => encodeR 0x00 rs rt rd 0 0x07
  | .add rd rs rt => encodeR 0x00 rs rt rd 0 0x20
  | .addu rd rs rt => encodeR 0x00 rs rt rd 0 0x21
  | .sub rd rs rt => encodeR 0x00 rs rt rd 0 0x22
  | .subu rd rs rt => encodeR 0x00 rs rt rd 0 0x23
  | .and rd rs rt => encodeR 0x00 rs rt rd 0 0x24
  | .or rd rs rt => encodeR 0x00 rs rt rd 0 0x25
  | .xor rd rs rt => encodeR 0x00 rs rt rd 0 0x26
  | .nor rd rs rt => encodeR 0x00 rs rt rd 0 0x27
  | .slt rd rs rt => encodeR 0x00 rs rt rd 0 0x2a
  | .sltu rd rs rt => encodeR 0x00 rs rt rd 0 0x2b
  | .addi rt rs imm => encodeI 0x08 rs rt imm
  | .addiu rt rs imm => encodeI 0x09 rs rt imm
  | .slti rt rs imm => encodeI 0x0a rs rt imm
  | .sltiu rt rs imm => encodeI 0x0b rs rt imm
  | .andi rt rs imm => encodeI 0x0c rs rt imm
  | .ori rt rs imm => encodeI 0x0d rs rt imm
  | .xori rt rs imm => encodeI 0x0e rs rt imm
  | .lui rt imm => encodeI 0x0f 0 rt imm
  | .mul rd rs rt => encodeR 0x1c rs rt rd 0 0x02
  | .clz rd rs => encodeR 0x1c rs 0 rd 0 0x20
  | .clo rd rs => encodeR 0x1c rs 0 rd 0 0x21
  | .movz rd rs rt => encodeR 0x00 rs rt rd 0 0x0a
  | .movn rd rs rt => encodeR 0x00 rs rt rd 0 0x0b
  | .special0x0d rd rs => encodeR 0x00 rs 0 rd 0 0x0d
  | .special0x0e rd rs => encodeR 0x00 rs 0 rd 0 0x0e
  | .special0x0f rd rs => encodeR 0x00 rs 0 rd 0 0x0f
  | .special0x1c rd rs => encodeR 0x00 rs 0 rd 0 0x1c
  | .special0x1d rd rs => encodeR 0x00 rs 0 rd 0 0x1d
  | .special0x1e rd rs => encodeR 0x00 rs 0 rd 0 0x1e
  | .special0x1f rd rs => encodeR 0x00 rs 0 rd 0 0x1f
  | .lb rt imm rs => encodeI 0x20 rs rt imm
  | .lh rt imm rs => encodeI 0x21 rs rt imm
  | .lwl rt imm rs => encodeI 0x22 rs rt imm
  | .lw rt imm rs => encodeI 0x23 rs rt imm
  | .lbu rt imm rs => encodeI 0x24 rs rt imm
  | .lhu rt imm rs => encodeI 0x25 rs rt imm
  | .lwr rt imm rs => encodeI 0x26 rs rt imm
  | .sb rt imm rs => encodeI 0x28 rs rt imm
  | .sh rt imm rs => encodeI 0x29 rs rt imm
  | .swl rt imm rs => encodeI 0x2a rs rt imm
  | .sw rt imm rs => encodeI 0x2b rs rt imm
  | .swr rt imm rs => encodeI 0x2e rs rt imm
  | .ll rt imm rs => encodeI 0x30 rs rt imm
  | .sc rt imm rs => encodeI 0x38 rs rt imm
  | .mfhi rd => encodeR 0x00 0 0 rd 0 0x10
  | .mthi rs => encodeR 0x00 rs 0 0 0 0x11
  | .mflo rd => encodeR 0x00 0 0 rd 0 0x12
  | .mtlo rs => encodeR 0x00 rs 0 0 0 0x13
  | .mult rs rt => encodeR 0x00 rs rt 0 0 0x18
  | .multu rs rt => encodeR 0x00 rs rt 0 0 0x19
  | .div rs rt => encodeR 0x00 rs rt 0 0 0x1a
  | .divu rs rt => encodeR 0x00 rs rt 0 0 0x1b
  | .syscall => encodeR 0x00 0 0 0 0 0x0c

end Sys2Proof
end

