-- ==== Sys2Proof/Config.lean ====
section
/-! DEFINITION. What the source leaves to whoever launches a run (00_scope.md R7, 93_implementation_defined.md): one record of
named parameters, and the one free value of the model. The recommended values of the parameters stand in
Machine/Defaults.lean. -/

namespace Sys2Proof

/-- `DIV_ZERO_POLICY` (R7, R240, 93 U1): what `div` and `divu` do with a zero divisor. -/
inductive DivZeroPolicy where
  /-- The spec's decision: `Fatal(DivideByZero)`, nothing written. -/
  | fatal
  /-- 93 U1: `hi` and `lo` keep their values and the program counter advances. -/
  | unchanged
  /-- 93 U1: the values common MIPS hardware yields. -/
  | host
  deriving DecidableEq, Repr

/-- `DIV_OVF_POLICY` (R7, R241, 93 U2): what `div` of 0x80000000 by 0xFFFFFFFF does. -/
inductive DivOverflowPolicy where
  /-- The spec's decision: `Fatal(DivideOverflow)`, nothing written. -/
  | fatal
  /-- 93 U2: quotient 0x80000000, remainder 0. -/
  | wrap
  deriving DecidableEq, Repr

/-- The named parameters of a run (00_scope.md R7). No step changes one. -/
structure Config where
  /-- `PAGE_SIZE` is a power of two (R7), so the parameter is its exponent. -/
  pageSizeLog2 : Nat
  /-- `BRK_VALUE`: the "fixed constant address" brk returns (R254). -/
  brkValue : Word
  /-- `F_GETFL`: the one fcntl command that is understood (R267). -/
  fGetfl : Word
  /-- `O_RDONLY`: the "read-only flag" (R267). -/
  oRdonly : Word
  /-- `O_WRONLY`: the "write-only flag" (R267). -/
  oWronly : Word
  /-- `STEP_WIDTH`: the width in bits of the `step` counter (R7, R33). -/
  stepWidth : Nat
  /-- `DIV_ZERO_POLICY` (R240). -/
  divZero : DivZeroPolicy
  /-- `DIV_OVF_POLICY` (R241). -/
  divOverflow : DivOverflowPolicy
  /-- `PROOF_ENABLE`: whether the memory port is asked for Merkle proofs (R40, R62). -/
  proofEnable : Bool
  /-- `MERKLE_DEPTH`: the number of sibling hashes in a proof (R7, 92 D31). -/
  merkleDepth : Nat
  deriving DecidableEq, Repr

/-- FREE VALUE (log entry 7). The content of a Merkle proof is not specified (R5, R320, 93 U15 `any value`): the sibling hash at
a level, for the memory's contents and an address, is some number nothing constrains. -/
opaque Config.siblingHash : List Host.Cell → Word → Nat → Nat

end Sys2Proof
end

