-- ==== Sys2Proof/Machine/Defaults.lean ====
section
/-! DEFINITION. The values the model gives to what the spec leaves to the launcher: the defaults the spec recommends (00_scope.md
R7) and, where it gives none, the values the assumption log names. They stand here, and nowhere else, so that each can be
changed in one place (92_eei_decisions.md). -/

namespace Sys2Proof.Machine

/-- The defaults of 00_scope.md R7 (log entries 8, 10 and 11); `MERKLE_DEPTH` has none there and is 0 (DESIGN CHOICE, log entry
7, not observable while `PROOF_ENABLE` is off). -/
def defaultConfig : Config where
  pageSizeLog2 := 12
  brkValue := 0x40000000
  fGetfl := 3
  oRdonly := 0
  oWronly := 1
  stepWidth := 64
  divZero := .fatal
  divOverflow := .fatal
  proofEnable := false
  merkleDepth := 0

/-- `INIT_REGS` of `State.reset`: DESIGN CHOICE 0 (log entry 1). -/
def defaultInitRegs : Vector Word 32 := Vector.replicate 32 0

/-- `INIT_PC` of `State.reset`: DESIGN CHOICE 0 (log entry 2). -/
def defaultInitPc : Word := 0

/-- `INIT_HEAP` of `State.reset`: DESIGN CHOICE 0 (log entry 3); the spec gives the parameter no default (90_conflicts.md C14). -/
def defaultInitHeap : Word := 0

end Sys2Proof.Machine
end

