-- ==== Sys2Proof/Machine/State.lean ====
section
/-! DEFINITION. The machine state of 10_state.md R20, whole, as plain data; the external parties a step talks to; the reasons a
step can stop; the reset state of 70_reset_and_hazards.md R331. -/

namespace Sys2Proof.Machine

/-- Memory: pairs of a byte address below 2^32 and a byte, addresses strictly rising, no entry equal to what an unlisted
address reads as (`Memory.wf`, Machine/Ops.lean). -/
abbrev Memory := List Host.Cell

/-- A Merkle proof of a tracked access: the word address and one sibling hash a level (20_memory.md R50). The hashes are
Config.siblingHash, a free value (log entry 7). -/
structure MerkleProof where
  addr : Word
  siblings : List Nat
  deriving DecidableEq, Repr

/-- What the oracle does with one `get_preimage` (46_preimage.md R289, R290). -/
inductive OracleReply where
  /-- It answers this blob. -/
  | blob (bytes : List Byte)
  /-- It fails: `Fatal(OracleFailure)`. -/
  | fail
  /-- It never answers: the step does not complete (93 U9, `stuck`). -/
  | block
  deriving DecidableEq, Repr

/-- An output sink (R289): the bytes it has accepted, oldest first, and how many more it accepts before it fails, `none` for
a sink that never fails (60_exceptions.md R308; log entry 13). -/
structure Sink where
  bytes : List Byte
  room : Option Nat
  deriving DecidableEq, Repr

/-- The external parties of a step and the transactions of the run so far (46_preimage.md R289). The oracle is a function of
the key for the whole run (R290), given as a table; a key it does not list is unknown to it, and a `get_preimage` of an
unknown key fails (93 U9; log entry 12). -/
structure Ports where
  /-- The oracle's answers. -/
  oracle : List (Key × OracleReply)
  /-- The keys given to `get_preimage`, oldest first, whatever came back. -/
  preimageKeys : List Key
  /-- The payloads of the completed `hint` transactions, oldest first. -/
  hints : List (List Byte)
  /-- How many more `hint` transactions complete before one fails; `none`: all of them. -/
  hintRoom : Option Nat
  /-- The sink of fd 1. -/
  stdout : Sink
  /-- The sink of fd 2. -/
  stderr : Sink
  deriving DecidableEq, Repr

/-- The machine state: the Machine State and the engine state of 10_state.md R20, then the model's own two fields, the ports
and the launch parameters, which R20 calls "parameters or external parties of the step". -/
@[ext]
structure State where
  /-- General registers (R21). Entry 0 is never written and is not what reads of register 0 go through (`readReg`). -/
  regs : Vector Word 32
  /-- The address now retiring (R25). -/
  pc : Word
  /-- The address that retires on the following step (R25). -/
  nextPc : Word
  /-- Upper half of a product, remainder of a division (R30). -/
  hi : Word
  /-- Lower half of a product, quotient of a division (R30). -/
  lo : Word
  /-- Bump-allocator pointer (R32). -/
  heap : Word
  /-- `step`, the count of completed transitions (R33), a number below 2 to the `STEP_WIDTH` (`State.Inv`; log entry 8). -/
  stepCount : Nat
  /-- The terminal-state flag (R35). -/
  exited : Bool
  /-- The low byte of the status given to exit_group (R34). -/
  exitCode : Byte
  /-- The 32-byte key the guest shifts in (R36). -/
  preimageKey : Key
  /-- Index into the length-prefixed preimage (R37). -/
  preimageOffset : Word
  /-- Hint bytes not yet forwarded (R38). -/
  lastHint : List Byte
  /-- The 2^32 bytes of memory (R42, 20_memory.md R51). -/
  mem : Memory
  /-- The access tracker: the address tracked in this step, if any (R39). -/
  lastMemAccess : Option Word
  /-- The proof of the access most recently tracked with `PROOF_ENABLE` on (R40). -/
  proofCache : Option MerkleProof
  /-- The key whose preimage is cached, if any (R41). -/
  lastPreimageKey : Option Key
  /-- The cached preimage with its 4-byte length prefix (R41). -/
  lastPreimage : List Byte
  /-- The offset of the latest preimage read (R41). -/
  lastPreimageOffset : Word
  /-- The external parties and the run's transactions (R289). -/
  ports : Ports
  /-- The launch parameters (00_scope.md R7). -/
  cfg : Config
  deriving DecidableEq, Repr

/-- The causes of a fatal abort (60_exceptions.md R315, a closed list) and the one stuck state. An abort commits nothing and
halts the machine (R300), so a fault carries no state: the state is the one before the step. What an external port has already
done in the aborted step is not retracted (R300), so a cause that arises at a port carries the ports as the step left them
(log entry 14); every other cause arises where the step has used no port. -/
inductive Fault where
  /-- `pc` is not a multiple of 4 at the start of a step (R301). Raised by `fetch`. Safe. -/
  | unalignedFetch
  /-- A word of the fatal list (R302), with the word. Raised by `step` when the decoder rejects. Safe. -/
  | invalidInstruction (insn : Word)
  /-- REGIMM with `insn[20:16]` neither 0 nor 1 (R303). Raised by `step` when the decoder rejects. Safe. -/
  | invalidBranch
  /-- A second, different tracked address in one step (R304). Raised by `track`; no step reaches it (R63). Safe. -/
  | dualAddress
  /-- A register number of 32 or more (R305). Raised by `writeback`; no instruction reaches it. Safe. -/
  | registerIndex
  /-- mmap in heap mode past the top of the address space (R306). Raised by `execSyscall`. Safe. -/
  | heapOverflow
  /-- `get_preimage` failed, or its blob is 2^32 - 4 bytes or longer (R307), with the ports after it. Raised by `execSyscall`.
  Safe. -/
  | oracleFailure (after : Ports)
  /-- A sink or the hint channel did not take the bytes (R308), with the ports after what they did take. Raised by
  `execSyscall`. Safe. -/
  | sinkFailure (after : Ports)
  /-- `div` or `divu` with a zero divisor under `DIV_ZERO_POLICY = fatal` (R309). Raised by `execDiv`, `execDivu`. Safe. -/
  | divideByZero
  /-- `div` of 0x80000000 by -1 under `DIV_OVF_POLICY = fatal` (R309). Raised by `execDiv`. Safe. -/
  | divideOverflow
  /-- STUCK, no abort: `get_preimage` blocks for ever, so the step does not complete (46_preimage.md R290, 93 U9; log entry
  12), with the ports as they then are. Raised by `execSyscall`. Safe. -/
  | oracleBlocked (after : Ports)
  deriving DecidableEq, Repr

/-- Why an instruction has no meaning in the model. -/
inductive Refusal where
  /-- An instruction not modelled yet; raised by an arm of `exec` that has no meaning. Safe. -/
  | notModelled (mnemonic : String)
  deriving DecidableEq, Repr

/-- What a step, a meaning or a shared operation answers. -/
abbrev Result := Host.Outcome State Fault Refusal

/-! ### Reset (70_reset_and_hazards.md R330, R331) -/

/-- What the external loader supplies (R331): `INIT_REGS` (its entry 0 is not used), `INIT_PC`, `INIT_HEAP`, `INIT_MEM`. -/
structure Loader where
  regs : Vector Word 32
  pc : Word
  heap : Word
  mem : Memory
  deriving DecidableEq, Repr

/-- Ports on which nothing has happened yet, for an oracle and for ports that fail after so many bytes or hints. -/
def Ports.fresh (oracle : List (Key × OracleReply)) (hintRoom stdoutRoom stderrRoom : Option Nat) : Ports where
  oracle := oracle
  preimageKeys := []
  hints := []
  hintRoom := hintRoom
  stdout := ⟨[], stdoutRoom⟩
  stderr := ⟨[], stderrRoom⟩

/-- `Reset`: the state right after reset (R331), for every loader, parameters and external parties. -/
def State.resetWith (l : Loader) (cfg : Config) (ports : Ports) : State where
  regs := l.regs.set 0 0
  pc := l.pc
  nextPc := l.pc + 4
  hi := 0
  lo := 0
  heap := l.heap
  stepCount := 0
  exited := false
  exitCode := 0
  preimageKey := Vector.replicate 32 0
  preimageOffset := 0
  lastHint := []
  mem := l.mem
  lastMemAccess := none
  proofCache := none
  lastPreimageKey := none
  lastPreimage := []
  lastPreimageOffset := 0
  ports := ports
  cfg := cfg

/-- The loader of `State.reset` (log entries 1 to 4): the values Machine/Defaults.lean names, memory with nothing listed. -/
def Loader.default : Loader := ⟨defaultInitRegs, defaultInitPc, defaultInitHeap, []⟩

/-- The machine right after reset, with the default loader and parameters, an oracle that knows no key and ports that never
fail (log entries 12 and 13). -/
def State.reset : State := State.resetWith Loader.default defaultConfig (Ports.fresh [] none none none)

end Sys2Proof.Machine
end

