-- ==== Sys2Proof/Machine/Operands.lean ====
section
/-! DEFINITION. Operand forms: sign and zero extension, immediates, jump and branch targets, effective addresses, byte and
halfword lanes, shift amounts (00_scope.md R9, 30_encoding.md R85 to R89, 20_memory.md R55, R59). -/

namespace Sys2Proof.Machine

/-- `sext_n(v)` (R9): the low `n` bits of `v`, bit `n - 1` replicated above them. -/
def sext (n : Nat) (v : Word) : Word := (v.setWidth n).signExtend 32

/-- `sext_16(imm16)`, the immediate of every immediate instruction but `andi`, `ori`, `xori` (R85). -/
def sextImm (imm : BitVec 16) : Word := imm.signExtend 32

/-- `zext_16(imm16)`, the immediate of `andi`, `ori`, `xori` (R85). -/
def zextImm (imm : BitVec 16) : Word := imm.setWidth 32

/-- The J-format target `sext_26(index) << 2` (R86). It does not depend on `pc` (90_conflicts.md C4). -/
def jumpTarget (index : BitVec 26) : Word := index.signExtend 32 <<< 2

/-- The taken-branch target of the branch at `prev` (R87). -/
def branchTarget (prev : Word) (imm : BitVec 16) : Word := prev + 4 + (sextImm imm <<< 2)

/-- The effective address of a load or store (R88). -/
def effectiveAddress (base : Word) (imm : BitVec 16) : Word := base + sextImm imm

/-- "word-aligned down to a multiple of 4" (R59). -/
def alignDown (a : Word) : Word := a &&& 0xFFFFFFFC

/-- `a & 3`: the byte offset of an address in its word. -/
def byteOffset (a : Word) : Nat := (a &&& 3).toNat

/-- The byte lane `24 - (addr & 3) * 8` (R55). -/
def byteLane (a : Word) : Nat := 24 - byteOffset a * 8

/-- The halfword lane `16 - (addr & 2) * 8` (R55); bit 0 of the address is ignored. -/
def halfLane (a : Word) : Nat := 16 - (a &&& 2).toNat * 8

/-- The amount of a variable shift, `x[rs] & 0x1f` (R89; log entry 23). -/
def shiftAmount (v : Word) : Nat := (v &&& 0x1f).toNat

/-- The four bytes of a word, most significant first: `be32bytes` of 46_preimage.md R281 and the lanes of R55. -/
def wordBytes (v : Word) : List Byte :=
  [v.extractLsb' 24 8, v.extractLsb' 16 8, v.extractLsb' 8 8, v.extractLsb' 0 8]

/-- The word whose four bytes are the first four of a list, most significant first (`be32` of R9); a byte the list does not
have counts as 0, which no caller meets. -/
def wordOfBytes (b : List Byte) : Word := be32 (b.getD 0 0) (b.getD 1 0) (b.getD 2 0) (b.getD 3 0)

end Sys2Proof.Machine
end

