-- ==== Sys2Proof/Machine/Flags.lean ====
section
/-! DEFINITION. The core has no flags (10_state.md R29): "comparisons write 0 or 1 into a general register and branches compare
registers directly". This file holds those comparisons: the 0-or-1 results of `slt`, `sltu` and the branch conditions of
41_branch_jump.md R132 to R137. -/

namespace Sys2Proof.Machine

/-- 1 if the condition holds, else 0. -/
def boolWord (b : Bool) : Word := if b then 1 else 0

/-- `signed(a) < signed(b)` (R168, R172). -/
def signedLess (a b : Word) : Bool := decide (a.toInt < b.toInt)

/-- `a < b`, unsigned (R169, R173). -/
def unsignedLess (a b : Word) : Bool := decide (a.toNat < b.toNat)

/-- `beq`: equal (R132). -/
def takenEq (a b : Word) : Bool := a == b

/-- `bne`: not equal (R133). -/
def takenNe (a b : Word) : Bool := a != b

/-- `blez`: `signed(a) <= 0` (R134). -/
def takenLez (a : Word) : Bool := decide (a.toInt ≤ 0)

/-- `bgtz`: `signed(a) > 0` (R135). -/
def takenGtz (a : Word) : Bool := decide (0 < a.toInt)

/-- `bltz`: `signed(a) < 0` (R136). -/
def takenLtz (a : Word) : Bool := decide (a.toInt < 0)

/-- `bgez`: `signed(a) >= 0` (R137). -/
def takenGez (a : Word) : Bool := decide (0 ≤ a.toInt)

end Sys2Proof.Machine
end

