-- ==== Sys2Proof/Machine/Ops.lean ====
section
/-! DEFINITION. The named operations over registers, memory and the program-counter pair that every meaning is written with,
and the fatal abort, the machine's only exception (60_exceptions.md R300, R310: there is no trap and no return from one). -/

namespace Sys2Proof.Machine

/-! ### The fatal abort -/

/-- `raise Fatal(cause)` (R300): the step commits nothing, so what it answers holds no state; the machine stays as it was
before the step and is halted until reset. -/
def raise (cause : Fault) : Result := .fault cause

/-- The ports after a step that stopped with a cause, from those before it: what a port has already done is not retracted
(R300; log entry 14). -/
def Fault.portsAfter (cause : Fault) (before : Ports) : Ports :=
  match cause with
  | .oracleFailure after | .sinkFailure after | .oracleBlocked after => after
  | .unalignedFetch | .invalidInstruction _ | .invalidBranch | .dualAddress | .registerIndex | .heapOverflow
  | .divideByZero | .divideOverflow => before

/-- Go on from a next state; a fault or refusal stands. -/
def andThen (r : Result) (k : State → Result) : Result :=
  match r with
  | .next s => k s
  | .fault f => .fault f
  | .refused e => .refused e

/-! ### General registers (10_state.md R21) -/

/-- `x[r]`: register 0 reads 0. -/
def readReg (s : State) (r : Reg) : Word :=
  if r = 0#5 then 0 else s.regs[r.toNat]'r.isLt

/-- `x[r] <- v`: a write to register 0 is discarded. -/
def writeReg (s : State) (r : Reg) (v : Word) : State :=
  if r = 0#5 then s else { s with regs := s.regs.set r.toNat v r.isLt }

/-! ### The program-counter pair -/

/-- `Advance()` (40_pipeline.md R120), both from the values before. -/
def advance (s : State) : State := { s with pc := s.nextPc, nextPc := s.nextPc + 4 }

/-- `Writeback(store_reg, val, cond)` (40_pipeline.md R121). -/
def writeback (storeReg : Nat) (val : Word) (cond : Bool) (s : State) : Result :=
  if 32 ≤ storeReg then raise .registerIndex
  else .next (advance (if cond then writeReg s (BitVec.ofNat 5 storeReg) val else s))

/-- `Branch` once its condition is known (41_branch_jump.md R131): the old `next_pc` retires next, taken or not. -/
def branch (taken : Bool) (imm : BitVec 16) (s : State) : Result :=
  .next { s with
    pc := s.nextPc
    nextPc := if taken then branchTarget s.pc imm else s.nextPc + 4 }

/-- `Jump(link_reg, dest)` (41_branch_jump.md R139); link register 0 links nothing. -/
def jump (linkReg : Reg) (dest : Word) (s : State) : Result :=
  .next (writeReg { s with pc := s.nextPc, nextPc := dest } linkReg (s.pc + 8))

/-! ### Memory (20_memory.md) -/

/-- What a byte of memory that is not listed reads as: DESIGN CHOICE 0 (log entry 4). A loader that wants another content
lists it. -/
def unlistedByte : Byte := 0

/-- The byte at a byte address. -/
def Memory.readByte : Memory → Nat → Byte
  | [], _ => unlistedByte
  | (k, b) :: rest, a => if a = k then b else Memory.readByte rest a

/-- An entry, unless it equals what an unlisted address reads as. -/
def Memory.entry (a : Nat) (b : Byte) : Memory := if b = unlistedByte then [] else [(a, b)]

/-- Write one byte, keeping the canonical form. -/
def Memory.writeByte : Memory → Nat → Byte → Memory
  | [], a, b => Memory.entry a b
  | (k, c) :: rest, a, b =>
    if a < k then Memory.entry a b ++ (k, c) :: rest
    else if a = k then Memory.entry a b ++ rest
    else (k, c) :: Memory.writeByte rest a b

/-- The canonical form from a least address on: addresses strictly rising and inside the address space (R42), no entry equal
to what an unlisted address reads as. -/
def Memory.wfFrom : Nat → Memory → Bool
  | _, [] => true
  | least, (k, b) :: rest =>
    decide (least ≤ k) && decide (k < 2 ^ 32) && decide (b ≠ unlistedByte) && Memory.wfFrom (k + 1) rest

/-- The canonical form. -/
def Memory.wf (m : Memory) : Bool := Memory.wfFrom 0 m

/-- The word at an aligned address, most significant byte at the lowest address (R52, R55). -/
def Memory.readWord (m : Memory) (addr : Word) : Word :=
  be32 (Memory.readByte m addr.toNat) (Memory.readByte m (addr + 1).toNat)
    (Memory.readByte m (addr + 2).toNat) (Memory.readByte m (addr + 3).toNat)

/-- Replace the whole word at an aligned address (R53, R55). -/
def Memory.writeWord (m : Memory) (addr v : Word) : Memory :=
  let m0 := Memory.writeByte m addr.toNat (v.extractLsb' 24 8)
  let m1 := Memory.writeByte m0 (addr + 1).toNat (v.extractLsb' 16 8)
  let m2 := Memory.writeByte m1 (addr + 2).toNat (v.extractLsb' 8 8)
  Memory.writeByte m2 (addr + 3).toNat (v.extractLsb' 0 8)

/-- `MemRead(addr, 4)` (R52). -/
def memRead (s : State) (addr : Word) : Word := Memory.readWord s.mem addr

/-- `MemWrite(addr, 4, v)` (R53). -/
def memWrite (s : State) (addr v : Word) : State := { s with mem := Memory.writeWord s.mem addr v }

/-- `MemByte(a)` (R57): a lane of the word that holds it. -/
def memByte (s : State) (a : Word) : Byte := (memRead s (alignDown a) >>> byteLane a).setWidth 8

/-- `open_range_reader(a, count)` (R57): the bytes from `a` on, addresses modulo 2^32. -/
def rangeRead (s : State) : Word → Nat → List Byte
  | _, 0 => []
  | a, count + 1 => memByte s a :: rangeRead s (a + 1) count

/-! ### The access tracker (20_memory.md R62) -/

/-- The memory port's `merkle_proof(addr)`: `MERKLE_DEPTH` sibling hashes, each a free value (log entry 7). -/
def merkleProof (s : State) (addr : Word) : MerkleProof :=
  ⟨addr, (List.range s.cfg.merkleDepth).map (Config.siblingHash s.mem addr)⟩

/-- Whether a proof for the address is cached for this step: the tracker holds the address and the cache its proof. -/
def proofHeld (s : State) (addr : Word) : Bool :=
  s.lastMemAccess == some addr && s.proofCache.map MerkleProof.addr == some addr

/-- `Track(addr)`. -/
def track (addr : Word) (s : State) : Result :=
  if s.lastMemAccess ≠ none ∧ s.lastMemAccess ≠ some addr then raise .dualAddress
  else .next { s with
    lastMemAccess := some addr
    proofCache :=
      if s.cfg.proofEnable && !proofHeld s addr then some (merkleProof s addr) else s.proofCache }

/-! ### The common frame of loads and stores (43_load_store.md R200) -/

/-- A load: `value ea old mem` goes to `rt`. -/
def load (value : Word → Word → Word → Word) (rt : Reg) (imm : BitVec 16) (rs : Reg) (s : State) : Result :=
  let ea := effectiveAddress (readReg s rs) imm
  let old := readReg s rt
  andThen (track (alignDown ea) s) fun s1 =>
    writeback rt.toNat (value ea old (memRead s1 (alignDown ea))) true s1

/-- A store: `value ea old mem` replaces the word; "stores do not write a GPR directly" (40_pipeline.md R115, R118). -/
def store (value : Word → Word → Word → Word) (rt : Reg) (imm : BitVec 16) (rs : Reg) (s : State) : Result :=
  let ea := effectiveAddress (readReg s rs) imm
  let old := readReg s rt
  andThen (track (alignDown ea) s) fun s1 =>
    writeback 0 0 true (memWrite s1 (alignDown ea) (value ea old (memRead s1 (alignDown ea))))

/-! ### Fetch (40_pipeline.md R111) -/

/-- `step` plus 1 in `STEP_WIDTH` bits (10_state.md R33; log entry 8). -/
def countStep (s : State) : Nat := (s.stepCount + 1) % 2 ^ s.cfg.stepWidth

/-- Part 0 of a step that starts with `exited = false`: count it, clear the tracker (R33, R39). The proof cache is written by
`Track` alone (10_state.md R20; log entry 9). -/
def beginStep (s : State) : State := { s with stepCount := countStep s, lastMemAccess := none }

/-- Part 1: a misaligned `pc` aborts before the fetch (R60, R301; log entry 15); else the word at `pc`, untracked (R63). -/
def fetch (s : State) : Except Fault Word :=
  if s.pc &&& 3 ≠ 0 then .error .unalignedFetch else .ok (memRead s s.pc)

/-- The abort a rejected word raises (30_encoding.md R96). -/
def decodeFault (w : Word) : DecodeError → Fault
  | .invalidInstruction => .invalidInstruction w
  | .invalidBranch => .invalidBranch
  | .truncated => .invalidInstruction w

end Sys2Proof.Machine
end

