-- ==== Sys2Proof/Machine/Branch.lean ====
section
/-! DEFINITION. The branches (41_branch_jump.md R131 to R137). -/

namespace Sys2Proof.Machine

/-- `beq rs, rt, imm` (R132). -/
def execBeq (rs rt : Reg) (imm : BitVec 16) (s : State) : Result :=
  branch (takenEq (readReg s rs) (readReg s rt)) imm s

/-- `bne rs, rt, imm` (R133). -/
def execBne (rs rt : Reg) (imm : BitVec 16) (s : State) : Result :=
  branch (takenNe (readReg s rs) (readReg s rt)) imm s

/-- `blez rs, imm` (R134). -/
def execBlez (rs : Reg) (imm : BitVec 16) (s : State) : Result :=
  branch (takenLez (readReg s rs)) imm s

/-- `bgtz rs, imm` (R135). -/
def execBgtz (rs : Reg) (imm : BitVec 16) (s : State) : Result :=
  branch (takenGtz (readReg s rs)) imm s

/-- `bltz rs, imm` (R136). -/
def execBltz (rs : Reg) (imm : BitVec 16) (s : State) : Result :=
  branch (takenLtz (readReg s rs)) imm s

/-- `bgez rs, imm` (R137). -/
def execBgez (rs : Reg) (imm : BitVec 16) (s : State) : Result :=
  branch (takenGez (readReg s rs)) imm s

end Sys2Proof.Machine
end

