-- ==== Sys2Proof/Machine/Values.lean ====
section
/-! DEFINITION. The value function, one pure definition per operation: the ALU part of 42_alu.md R150 and the load and store
part of 43_load_store.md R200. Each formula is the spec's own. -/

namespace Sys2Proof.Machine

/-! ### Shifts (42_alu.md R151 to R156) -/

/-- `rt << s` (R151, R154). -/
def shiftLeftValue (rt : Word) (s : Nat) : Word := rt <<< s

/-- `rt >> s`, logical (R152, R155). -/
def shiftRightValue (rt : Word) (s : Nat) : Word := rt >>> s

/-- `sext_(32-s)(rt >> s)`, the arithmetic right shift (R153, R156). -/
def shiftRightArithValue (rt : Word) (s : Nat) : Word := sext (32 - s) (rt >>> s)

/-! ### Count and multiply (42_alu.md R180 to R182) -/

/-- The scan of R150: how many leading bits of `v` are 1, at most `fuel`, by shifting left one bit at a time. -/
def leadingOnes : Nat → Word → Nat
  | 0, _ => 0
  | fuel + 1, v => if v &&& 0x80000000 ≠ 0 then leadingOnes fuel (v <<< 1) + 1 else 0

/-- `clo` (R182); a word has 32 bits, so the scan ends within 32. -/
def countLeadingOnes (v : Word) : Word := BitVec.ofNat 32 (leadingOnes 32 v)

/-- `clz`: invert, then count (R181). -/
def countLeadingZeros (v : Word) : Word := countLeadingOnes (~~~v)

/-- `mul`: the low 32 bits of the signed product (R180). -/
def mulValue (a b : Word) : Word := BitVec.ofInt 32 (a.toInt * b.toInt)

/-! ### Loads: `ea` is the effective address, `old` the destination register before, `mem` the word at `ea` aligned down
(43_load_store.md R200) -/

def lbValue (ea _old mem : Word) : Word := sext 8 ((mem >>> byteLane ea) &&& 0xFF)
def lhValue (ea _old mem : Word) : Word := sext 16 ((mem >>> halfLane ea) &&& 0xFFFF)
def lbuValue (ea _old mem : Word) : Word := (mem >>> byteLane ea) &&& 0xFF
def lhuValue (ea _old mem : Word) : Word := (mem >>> halfLane ea) &&& 0xFFFF
def lwValue (_ea _old mem : Word) : Word := mem

/-- `lwl`: the bytes from `ea` to the end of its word replace the leading bytes of the register (R203; log entry 21). -/
def lwlValue (ea old mem : Word) : Word :=
  let m : Word := 0xFFFFFFFF <<< (byteOffset ea * 8)
  (old &&& ~~~m) ||| (mem <<< (byteOffset ea * 8))

/-- `lwr`: the bytes from the start of the word up to `ea` replace the trailing bytes of the register (R207; log entry 21). -/
def lwrValue (ea old mem : Word) : Word :=
  let m : Word := 0xFFFFFFFF >>> byteLane ea
  (old &&& ~~~m) ||| (mem >>> byteLane ea)

/-! ### Stores: the merged word that is written back (43_load_store.md R200) -/

/-- `sb` (R208). -/
def sbValue (ea old mem : Word) : Word :=
  let m : Word := 0xFF <<< byteLane ea
  (mem &&& ~~~m) ||| ((old &&& 0xFF) <<< byteLane ea)

/-- `sh` (R209). -/
def shValue (ea old mem : Word) : Word :=
  let m : Word := 0xFFFF <<< halfLane ea
  (mem &&& ~~~m) ||| ((old &&& 0xFFFF) <<< halfLane ea)

/-- `swl` (R210; log entry 21). -/
def swlValue (ea old mem : Word) : Word :=
  let m : Word := 0xFFFFFFFF >>> (byteOffset ea * 8)
  (mem &&& ~~~m) ||| (old >>> (byteOffset ea * 8))

/-- `swr` (R212; log entry 21). -/
def swrValue (ea old mem : Word) : Word :=
  let m : Word := 0xFFFFFFFF <<< byteLane ea
  (mem &&& ~~~m) ||| (old <<< byteLane ea)

/-- `sw`, and the word `sc` stores (R211, R214). -/
def swValue (_ea old _mem : Word) : Word := old

/-! ### Products and quotients (44_hilo.md R235 to R238) -/

/-- The 64-bit signed product (R235). -/
def signedProduct (a b : Word) : BitVec 64 := BitVec.ofInt 64 (a.toInt * b.toInt)

/-- The 64-bit unsigned product (R236). -/
def unsignedProduct (a b : Word) : BitVec 64 := BitVec.ofNat 64 (a.toNat * b.toNat)

/-- The half that goes to `hi`: bits 63:32. -/
def upperHalf (p : BitVec 64) : Word := p.extractLsb' 32 32

/-- The half that goes to `lo`: bits 31:0. -/
def lowerHalf (p : BitVec 64) : Word := p.extractLsb' 0 32

/-- The signed quotient, rounded toward zero (R237; log entry 20). -/
def signedQuotient (a b : Word) : Word := BitVec.ofInt 32 (a.toInt.tdiv b.toInt)

/-- The remainder `n - q * d` of the signed division (R237). -/
def signedRemainder (a b : Word) : Word := BitVec.ofInt 32 (a.toInt - a.toInt.tdiv b.toInt * b.toInt)

/-- The unsigned quotient (R238). -/
def unsignedQuotient (a b : Word) : Word := BitVec.ofNat 32 (a.toNat / b.toNat)

/-- The unsigned remainder (R238). -/
def unsignedRemainder (a b : Word) : Word := BitVec.ofNat 32 (a.toNat % b.toNat)

end Sys2Proof.Machine
end

