-- ==== Sys2Proof/Machine/HiLo.lean ====
section
/-! DEFINITION. The hi/lo instructions (44_hilo.md R230 to R241). -/

namespace Sys2Proof.Machine

/-- `mfhi rd` (R231). -/
def execMfhi (rd : Reg) (s : State) : Result :=
  .next (advance (writeReg s rd s.hi))

/-- `mthi rs` (R232); `lo` is unchanged. -/
def execMthi (rs : Reg) (s : State) : Result :=
  .next (advance { s with hi := readReg s rs })

/-- `mflo rd` (R233). -/
def execMflo (rd : Reg) (s : State) : Result :=
  .next (advance (writeReg s rd s.lo))

/-- `mtlo rs` (R234); `hi` is unchanged. -/
def execMtlo (rs : Reg) (s : State) : Result :=
  .next (advance { s with lo := readReg s rs })

/-- Write both halves and advance (R230). -/
def setHiLo (hi lo : Word) (s : State) : Result := .next (advance { s with hi := hi, lo := lo })

/-- `mult rs, rt` (R235). -/
def execMult (rs rt : Reg) (s : State) : Result :=
  let p := signedProduct (readReg s rs) (readReg s rt)
  setHiLo (upperHalf p) (lowerHalf p) s

/-- `multu rs, rt` (R236). -/
def execMultu (rs rt : Reg) (s : State) : Result :=
  let p := unsignedProduct (readReg s rs) (readReg s rt)
  setHiLo (upperHalf p) (lowerHalf p) s

/-- `DIV_ZERO_POLICY` applied to a division of `n` by zero (R240; log entry 11). `hostQuotient` is the quotient of the `host`
setting, whose remainder is the dividend (93_implementation_defined.md U1). -/
def divideByZero (n hostQuotient : Word) (s : State) : Result :=
  match s.cfg.divZero with
  | .fatal => raise .divideByZero
  | .unchanged => .next (advance s)
  | .host => setHiLo n hostQuotient s

/-- `DIV_OVF_POLICY` applied to 0x80000000 divided by -1 (R241; log entry 11). -/
def divideOverflow (s : State) : Result :=
  match s.cfg.divOverflow with
  | .fatal => raise .divideOverflow
  | .wrap => setHiLo 0 0x80000000 s

/-- `div rs, rt` (R237). -/
def execDiv (rs rt : Reg) (s : State) : Result :=
  let n := readReg s rs
  let d := readReg s rt
  if d = 0 then divideByZero n (if 0 ≤ n.toInt then 0xFFFFFFFF else 1) s
  else if n = 0x80000000 ∧ d = 0xFFFFFFFF then divideOverflow s
  else setHiLo (signedRemainder n d) (signedQuotient n d) s

/-- `divu rs, rt` (R238). -/
def execDivu (rs rt : Reg) (s : State) : Result :=
  let n := readReg s rs
  let d := readReg s rt
  if d = 0 then divideByZero n 0xFFFFFFFF s
  else setHiLo (unsignedRemainder n d) (unsignedQuotient n d) s

end Sys2Proof.Machine
end

