-- ==== Sys2Proof/Machine/Immediate.lean ====
section
/-! DEFINITION. The immediate instructions (42_alu.md R170 to R177). -/

namespace Sys2Proof.Machine

/-- `addi rt, rs, imm` (R170; no overflow detection, log entry 24). -/
def execAddi (rt rs : Reg) (imm : BitVec 16) (s : State) : Result :=
  writeback rt.toNat (readReg s rs + sextImm imm) true s

/-- `addiu rt, rs, imm` (R171). -/
def execAddiu (rt rs : Reg) (imm : BitVec 16) (s : State) : Result :=
  writeback rt.toNat (readReg s rs + sextImm imm) true s

/-- `slti rt, rs, imm` (R172). -/
def execSlti (rt rs : Reg) (imm : BitVec 16) (s : State) : Result :=
  writeback rt.toNat (boolWord (signedLess (readReg s rs) (sextImm imm))) true s

/-- `sltiu rt, rs, imm` (R173; the immediate is sign-extended, the compare unsigned). -/
def execSltiu (rt rs : Reg) (imm : BitVec 16) (s : State) : Result :=
  writeback rt.toNat (boolWord (unsignedLess (readReg s rs) (sextImm imm))) true s

/-- `andi rt, rs, imm` (R174). -/
def execAndi (rt rs : Reg) (imm : BitVec 16) (s : State) : Result :=
  writeback rt.toNat (readReg s rs &&& zextImm imm) true s

/-- `ori rt, rs, imm` (R175). -/
def execOri (rt rs : Reg) (imm : BitVec 16) (s : State) : Result :=
  writeback rt.toNat (readReg s rs ||| zextImm imm) true s

/-- `xori rt, rs, imm` (R176). -/
def execXori (rt rs : Reg) (imm : BitVec 16) (s : State) : Result :=
  writeback rt.toNat (readReg s rs ^^^ zextImm imm) true s

/-- `lui rt, imm` (R177). -/
def execLui (rt : Reg) (imm : BitVec 16) (s : State) : Result :=
  writeback rt.toNat (sextImm imm <<< 16) true s

end Sys2Proof.Machine
end

