-- ==== Sys2Proof/Machine/Jump.lean ====
section
/-! DEFINITION. The jumps (41_branch_jump.md R139 to R143). -/

namespace Sys2Proof.Machine

/-- `j index` (R140). -/
def execJ (index : BitVec 26) (s : State) : Result :=
  jump 0#5 (jumpTarget index) s

/-- `jal index` (R141): the link register is 31. -/
def execJal (index : BitVec 26) (s : State) : Result :=
  jump 31#5 (jumpTarget index) s

/-- `jr rs` (R142): links nothing, and checks no alignment (R146). -/
def execJr (rs : Reg) (s : State) : Result :=
  jump 0#5 (readReg s rs) s

/-- `jalr rd, rs` (R143): the destination is read before the link is written. -/
def execJalr (rd rs : Reg) (s : State) : Result :=
  jump rd (readReg s rs) s

end Sys2Proof.Machine
end

