-- ==== Sys2Proof/Machine/Load.lean ====
section
/-! DEFINITION. The loads and load-linked (43_load_store.md R201 to R207, R213). -/

namespace Sys2Proof.Machine

/-- `lb rt, imm(rs)` (R201). -/
def execLb (rt : Reg) (imm : BitVec 16) (rs : Reg) (s : State) : Result :=
  load lbValue rt imm rs s

/-- `lh rt, imm(rs)` (R202). -/
def execLh (rt : Reg) (imm : BitVec 16) (rs : Reg) (s : State) : Result :=
  load lhValue rt imm rs s

/-- `lwl rt, imm(rs)` (R203). -/
def execLwl (rt : Reg) (imm : BitVec 16) (rs : Reg) (s : State) : Result :=
  load lwlValue rt imm rs s

/-- `lw rt, imm(rs)` (R204). -/
def execLw (rt : Reg) (imm : BitVec 16) (rs : Reg) (s : State) : Result :=
  load lwValue rt imm rs s

/-- `lbu rt, imm(rs)` (R205). -/
def execLbu (rt : Reg) (imm : BitVec 16) (rs : Reg) (s : State) : Result :=
  load lbuValue rt imm rs s

/-- `lhu rt, imm(rs)` (R206). -/
def execLhu (rt : Reg) (imm : BitVec 16) (rs : Reg) (s : State) : Result :=
  load lhuValue rt imm rs s

/-- `lwr rt, imm(rs)` (R207). -/
def execLwr (rt : Reg) (imm : BitVec 16) (rs : Reg) (s : State) : Result :=
  load lwrValue rt imm rs s

/-- `ll rt, imm(rs)` (R213: exactly `lw`, no reservation). -/
def execLl (rt : Reg) (imm : BitVec 16) (rs : Reg) (s : State) : Result :=
  load lwValue rt imm rs s

end Sys2Proof.Machine
end

