-- ==== Sys2Proof/Machine/Move.lean ====
section
/-! DEFINITION. The conditional moves and the pass-through encodings (42_alu.md R184 to R186). -/

namespace Sys2Proof.Machine

/-- `movz rd, rs, rt` (R184): the move happens when `x[rt]` is 0; the advance always. -/
def execMovz (rd rs rt : Reg) (s : State) : Result :=
  writeback rd.toNat (readReg s rs) (readReg s rt == 0) s

/-- `movn rd, rs, rt` (R185): the move happens when `x[rt]` is not 0; the advance always. -/
def execMovn (rd rs rt : Reg) (s : State) : Result :=
  writeback rd.toNat (readReg s rs) (readReg s rt != 0) s

/-- A pass-through encoding (R186): `x[rd] <- x[rs]`. -/
def passThrough (rd rs : Reg) (s : State) : Result :=
  writeback rd.toNat (readReg s rs) true s

/-- SPECIAL funct 0x0d (R186), MIPS32 `break`, which does not trap here (60_exceptions.md R310). -/
def execSpecial0x0d (rd rs : Reg) (s : State) : Result :=
  passThrough rd rs s

/-- SPECIAL funct 0x0e (R186). -/
def execSpecial0x0e (rd rs : Reg) (s : State) : Result :=
  passThrough rd rs s

/-- SPECIAL funct 0x0f (R186), MIPS32 `sync`, no fence here (20_memory.md R67). -/
def execSpecial0x0f (rd rs : Reg) (s : State) : Result :=
  passThrough rd rs s

/-- SPECIAL funct 0x1c (R186). -/
def execSpecial0x1c (rd rs : Reg) (s : State) : Result :=
  passThrough rd rs s

/-- SPECIAL funct 0x1d (R186). -/
def execSpecial0x1d (rd rs : Reg) (s : State) : Result :=
  passThrough rd rs s

/-- SPECIAL funct 0x1e (R186). -/
def execSpecial0x1e (rd rs : Reg) (s : State) : Result :=
  passThrough rd rs s

/-- SPECIAL funct 0x1f (R186). -/
def execSpecial0x1f (rd rs : Reg) (s : State) : Result :=
  passThrough rd rs s

end Sys2Proof.Machine
end

