-- ==== Sys2Proof/Machine/Register.lean ====
section
/-! DEFINITION. Three-register arithmetic and logic (42_alu.md R160 to R169). -/

namespace Sys2Proof.Machine

/-- `add rd, rs, rt` (R160; no overflow detection, log entry 24). -/
def execAdd (rd rs rt : Reg) (s : State) : Result :=
  writeback rd.toNat (readReg s rs + readReg s rt) true s

/-- `addu rd, rs, rt` (R161). -/
def execAddu (rd rs rt : Reg) (s : State) : Result :=
  writeback rd.toNat (readReg s rs + readReg s rt) true s

/-- `sub rd, rs, rt` (R162; no overflow detection, log entry 24). -/
def execSub (rd rs rt : Reg) (s : State) : Result :=
  writeback rd.toNat (readReg s rs - readReg s rt) true s

/-- `subu rd, rs, rt` (R163). -/
def execSubu (rd rs rt : Reg) (s : State) : Result :=
  writeback rd.toNat (readReg s rs - readReg s rt) true s

/-- `and rd, rs, rt` (R164). -/
def execAnd (rd rs rt : Reg) (s : State) : Result :=
  writeback rd.toNat (readReg s rs &&& readReg s rt) true s

/-- `or rd, rs, rt` (R165; 90_conflicts.md C2). -/
def execOr (rd rs rt : Reg) (s : State) : Result :=
  writeback rd.toNat (readReg s rs ||| readReg s rt) true s

/-- `xor rd, rs, rt` (R166). -/
def execXor (rd rs rt : Reg) (s : State) : Result :=
  writeback rd.toNat (readReg s rs ^^^ readReg s rt) true s

/-- `nor rd, rs, rt` (R167). -/
def execNor (rd rs rt : Reg) (s : State) : Result :=
  writeback rd.toNat (~~~(readReg s rs ||| readReg s rt)) true s

/-- `slt rd, rs, rt` (R168). -/
def execSlt (rd rs rt : Reg) (s : State) : Result :=
  writeback rd.toNat (boolWord (signedLess (readReg s rs) (readReg s rt))) true s

/-- `sltu rd, rs, rt` (R169). -/
def execSltu (rd rs rt : Reg) (s : State) : Result :=
  writeback rd.toNat (boolWord (unsignedLess (readReg s rs) (readReg s rt))) true s

end Sys2Proof.Machine
end

