-- ==== Sys2Proof/Machine/Shift.lean ====
section
/-! DEFINITION. The shifts (42_alu.md R151 to R156). -/

namespace Sys2Proof.Machine

/-- `sll rd, rt, shamt` (R151). -/
def execSll (rd rt : Reg) (shamt : BitVec 5) (s : State) : Result :=
  writeback rd.toNat (shiftLeftValue (readReg s rt) shamt.toNat) true s

/-- `srl rd, rt, shamt` (R152). -/
def execSrl (rd rt : Reg) (shamt : BitVec 5) (s : State) : Result :=
  writeback rd.toNat (shiftRightValue (readReg s rt) shamt.toNat) true s

/-- `sra rd, rt, shamt` (R153). -/
def execSra (rd rt : Reg) (shamt : BitVec 5) (s : State) : Result :=
  writeback rd.toNat (shiftRightArithValue (readReg s rt) shamt.toNat) true s

/-- `sllv rd, rt, rs` (R154): the amount is `x[rs] & 0x1f` (R89). -/
def execSllv (rd rt rs : Reg) (s : State) : Result :=
  writeback rd.toNat (shiftLeftValue (readReg s rt) (shiftAmount (readReg s rs))) true s

/-- `srlv rd, rt, rs` (R155): the amount is `x[rs] & 0x1f` (R89). -/
def execSrlv (rd rt rs : Reg) (s : State) : Result :=
  writeback rd.toNat (shiftRightValue (readReg s rt) (shiftAmount (readReg s rs))) true s

/-- `srav rd, rt, rs` (R156): the amount is `x[rs] & 0x1f` (R89). -/
def execSrav (rd rt rs : Reg) (s : State) : Result :=
  writeback rd.toNat (shiftRightArithValue (readReg s rt) (shiftAmount (readReg s rs))) true s

end Sys2Proof.Machine
end

