-- ==== Sys2Proof/Machine/Special2.lean ====
section
/-! DEFINITION. The SPECIAL2 instructions (42_alu.md R180 to R182). -/

namespace Sys2Proof.Machine

/-- `mul rd, rs, rt` (R180); `hi` and `lo` are not changed (R30). -/
def execMul (rd rs rt : Reg) (s : State) : Result :=
  writeback rd.toNat (mulValue (readReg s rs) (readReg s rt)) true s

/-- `clz rd, rs` (R181). -/
def execClz (rd rs : Reg) (s : State) : Result :=
  writeback rd.toNat (countLeadingZeros (readReg s rs)) true s

/-- `clo rd, rs` (R182). -/
def execClo (rd rs : Reg) (s : State) : Result :=
  writeback rd.toNat (countLeadingOnes (readReg s rs)) true s

end Sys2Proof.Machine
end

