-- ==== Sys2Proof/Machine/Store.lean ====
section
/-! DEFINITION. The stores and store-conditional (43_load_store.md R208 to R212, R214). -/

namespace Sys2Proof.Machine

/-- `sb rt, imm(rs)` (R208). -/
def execSb (rt : Reg) (imm : BitVec 16) (rs : Reg) (s : State) : Result :=
  store sbValue rt imm rs s

/-- `sh rt, imm(rs)` (R209). -/
def execSh (rt : Reg) (imm : BitVec 16) (rs : Reg) (s : State) : Result :=
  store shValue rt imm rs s

/-- `swl rt, imm(rs)` (R210). -/
def execSwl (rt : Reg) (imm : BitVec 16) (rs : Reg) (s : State) : Result :=
  store swlValue rt imm rs s

/-- `sw rt, imm(rs)` (R211). -/
def execSw (rt : Reg) (imm : BitVec 16) (rs : Reg) (s : State) : Result :=
  store swValue rt imm rs s

/-- `swr rt, imm(rs)` (R212). -/
def execSwr (rt : Reg) (imm : BitVec 16) (rs : Reg) (s : State) : Result :=
  store swrValue rt imm rs s

/-- `sc rt, imm(rs)` (R214): a word store that also writes 1 to `rt`; it never fails. The word stored is the register's value
before it is overwritten (40_pipeline.md R119). -/
def execSc (rt : Reg) (imm : BitVec 16) (rs : Reg) (s : State) : Result :=
  let ea := effectiveAddress (readReg s rs) imm
  let old := readReg s rt
  andThen (track (alignDown ea) s) fun s1 =>
    writeback 0 0 true
      (memWrite (writeReg s1 rt 1) (alignDown ea) (swValue ea old (memRead s1 (alignDown ea))))

end Sys2Proof.Machine
end

