-- ==== Sys2Proof/Machine/Preimage.lean ====
section
/-! DEFINITION. The preimage-oracle protocol engine and the ports it drives (46_preimage.md): the preimage read path with its
one-entry cache, the key write path, the hint buffer with its record framing, the output sinks. -/

namespace Sys2Proof.Machine

/-! ### Preimage read path (46_preimage.md R281, R282) -/

/-- The oracle's answer to a key; a key it does not know fails (93 U9; log entry 12). -/
def oracleReply : List (Key × OracleReply) → Key → OracleReply
  | [], _ => .fail
  | (k, r) :: rest, key => if k = key then r else oracleReply rest key

/-- `be32bytes(len(blob)) ++ blob`: the length-prefixed buffer (R281, 90_conflicts.md C8). -/
def prefixed (blob : List Byte) : List Byte := wordBytes (BitVec.ofNat 32 blob.length) ++ blob

/-- Whether the cache holds the preimage of a key (R41, R281). -/
def cached (s : State) (key : Key) : Bool := s.lastPreimageKey == some key

/-- The ports after a `get_preimage` of a key, whatever the oracle does with it (R289; log entry 12). -/
def Ports.askPreimage (p : Ports) (key : Key) : Ports := { p with preimageKeys := p.preimageKeys ++ [key] }

/-- The fetch of R281: nothing if the cache holds the key, else one `get_preimage` transaction. A blob of 2^32 - 4 bytes or
more fails like an oracle that fails (R290); an oracle that blocks leaves the step stuck (93 U9). Either way the oracle has been
asked (60_exceptions.md R300). -/
def fetchPreimage (key : Key) (s : State) : Result :=
  if cached s key then .next s
  else
    let ports := s.ports.askPreimage key
    match oracleReply s.ports.oracle key with
    | .fail => raise (.oracleFailure ports)
    | .block => raise (.oracleBlocked ports)
    | .blob bytes =>
      if bytes.length + 4 < 2 ^ 32 then
        .next { s with lastPreimageKey := some key, lastPreimage := prefixed bytes, ports := ports }
      else raise (.oracleFailure ports)

/-- The window of R281: up to 32 bytes of the cached buffer from an offset on, none at or past its end. -/
def preimageWindow (s : State) (offset : Word) : List Byte := (s.lastPreimage.drop offset.toNat).take 32

/-- `ReadPreimage(key, offset)` but for its answer, which is `preimageWindow` of the state after (R281). -/
def readPreimage (key : Key) (offset : Word) (s : State) : Result :=
  andThen (fetchPreimage key s) fun s1 => .next { s1 with lastPreimageOffset := offset }

/-- `B[align + i] <- dat[i]` for the bytes of `dat`: the others keep their value (R282). -/
def placeBytes (old : List Byte) (align : Nat) (dat : List Byte) : List Byte :=
  old.take align ++ dat ++ old.drop (align + dat.length)

/-- How many bytes a preimage read or a key write moves at most: the lanes left in the word and the count asked for. -/
def laneCount (addr count : Word) : Nat := min (4 - byteOffset addr) count.toNat

/-- What a read from fd 5 does once the window is at hand (R282): the bytes that fit go into the word, the offset moves on. -/
def deliverPreimage (addr count : Word) (s : State) : State × Word :=
  let dat := (preimageWindow s s.preimageOffset).take (laneCount addr count)
  let bytes := placeBytes (wordBytes (memRead s (alignDown addr))) (byteOffset addr) dat
  let n := BitVec.ofNat 32 dat.length
  ({ memWrite s (alignDown addr) (wordOfBytes bytes) with preimageOffset := s.preimageOffset + n }, n)

/-! ### Key write path (46_preimage.md R284) -/

/-- `preimage_key[n : 32] ++ bytes`, `n` the number of bytes: shift left and append. -/
def shiftKey (key : Key) (bytes : List Byte) : Key :=
  Vector.ofFn fun i : Fin 32 =>
    if h : i.val + bytes.length < 32 then key[i.val + bytes.length] else bytes.getD (i.val + bytes.length - 32) 0

/-- A write to fd 6 (R284) after its access is tracked: the addressed bytes of the word become the key's last bytes, the
offset goes back to 0. -/
def acceptKeyBytes (addr count : Word) (s : State) : State × Word :=
  let bytes := ((wordBytes (memRead s (alignDown addr))).drop (byteOffset addr)).take (laneCount addr count)
  ({ s with preimageKey := shiftKey s.preimageKey bytes, preimageOffset := 0 }, BitVec.ofNat 32 bytes.length)

/-! ### Hint write path (46_preimage.md R286, R287) -/

/-- The length prefix at the head of the hint buffer, once its four bytes are there. -/
def hintLength : List Byte → Option Nat
  | b0 :: b1 :: b2 :: b3 :: _ => some (be32 b0 b1 b2 b3).toNat
  | _ => none

/-- Whether the buffer starts with a complete record: a prefix and all the payload it announces (R287). -/
def completeRecord (buf : List Byte) : Bool :=
  match hintLength buf with
  | some hl => decide (4 + hl ≤ buf.length)
  | none => false

/-- The loop of R287: the payloads of the complete records, in order, and the bytes that stay. A record has at least four
bytes, so the buffer's length is fuel enough. -/
def extractHints : Nat → List Byte → List (List Byte) × List Byte
  | 0, buf => ([], buf)
  | fuel + 1, buf =>
    match hintLength buf with
    | some hl =>
      if 4 + hl ≤ buf.length then
        let rest := extractHints fuel (buf.drop (4 + hl))
        ((buf.drop 4).take hl :: rest.1, rest.2)
      else ([], buf)
    | none => ([], buf)

/-! ### Ports that can fail (60_exceptions.md R308): a room says how many more items, bytes or hints, the port takes -/

/-- Whether a port takes so many items. -/
def Room.accepts (room : Option Nat) (n : Nat) : Bool :=
  match room with
  | none => true
  | some r => decide (n ≤ r)

/-- The items a port takes of a sequence it is given, in order, before it fails if it does. -/
def Room.taken {α : Type} (room : Option Nat) (items : List α) : List α :=
  match room with
  | none => items
  | some r => items.take r

/-- What is left of a room after a port was given so many items. -/
def Room.left (room : Option Nat) (n : Nat) : Option Nat := room.map fun r => r - n

/-- The ports after the oracle's hint callback was given these payloads, in order. -/
def Ports.sendHints (p : Ports) (payloads : List (List Byte)) : Ports :=
  { p with hints := p.hints ++ Room.taken p.hintRoom payloads, hintRoom := Room.left p.hintRoom payloads.length }

/-- Append bytes to the hint buffer, forward the complete records to the oracle's hint callback, keep the rest (R286, R287).
A `hint` transaction that fails is `Fatal(SinkFailure)` (60_exceptions.md R308); those before it in the step stand (R300). -/
def writeHint (bytes : List Byte) (s : State) : Result :=
  let buf := s.lastHint ++ bytes
  let split := extractHints buf.length buf
  let ports := s.ports.sendHints split.1
  if Room.accepts s.ports.hintRoom split.1.length then .next { s with lastHint := split.2, ports := ports }
  else raise (.sinkFailure ports)

/-! ### Output sinks (45_syscall.md R263) -/

/-- A sink after it was given bytes: it holds those it took. -/
def Sink.append (k : Sink) (bytes : List Byte) : Sink :=
  ⟨k.bytes ++ Room.taken k.room bytes, Room.left k.room bytes.length⟩

/-- Bytes to stdout; a failed write is `Fatal(SinkFailure)` (60_exceptions.md R308), and the bytes the sink took stand (R300). -/
def writeStdout (bytes : List Byte) (s : State) : Result :=
  let ports := { s.ports with stdout := s.ports.stdout.append bytes }
  if Room.accepts s.ports.stdout.room bytes.length then .next { s with ports := ports }
  else raise (.sinkFailure ports)

/-- Bytes to stderr. -/
def writeStderr (bytes : List Byte) (s : State) : Result :=
  let ports := { s.ports with stderr := s.ports.stderr.append bytes }
  if Room.accepts s.ports.stderr.room bytes.length then .next { s with ports := ports }
  else raise (.sinkFailure ports)

end Sys2Proof.Machine
end

