-- ==== Sys2Proof/Machine/Syscall.lean ====
section
/-! DEFINITION. The `syscall` instruction and its dispatcher (45_syscall.md): the whole call is carried out inside the step,
there is no trap (R310). -/

namespace Sys2Proof.Machine

/-! ### Call numbers, file descriptors, error code (00_scope.md R6, R251, R269) -/

def callMmap : Word := 4090
def callBrk : Word := 4045
def callClone : Word := 4120
def callExitGroup : Word := 4246
def callRead : Word := 4003
def callWrite : Word := 4004
def callFcntl : Word := 4055

def fdStdin : Word := 0
def fdStdout : Word := 1
def fdStderr : Word := 2
def fdHintRead : Word := 3
def fdHintWrite : Word := 4
def fdPreimageRead : Word := 5
def fdPreimageWrite : Word := 6

/-- EBADF (R6, R252). -/
def errBadFd : Word := 9

/-! ### Return paths -/

/-- The common return path (R250): `x[2] <- v0; x[7] <- v1; Advance()`. -/
def syscallReturn (v0 v1 : Word) (s : State) : Result :=
  .next (advance (writeReg (writeReg s 2#5 v0) 7#5 v1))

/-- A failing call: -1 and EBADF, and execution goes on (R252). -/
def syscallBadFd (s : State) : Result := syscallReturn 0xFFFFFFFF errBadFd s

/-! ### The calls -/

/-- `PAGE_SIZE`, a power of two (00_scope.md R7). -/
def pageSize (cfg : Config) : Nat := 2 ^ cfg.pageSizeLog2

/-- The least multiple of `PAGE_SIZE` that is at least `length`, unbounded (R253). -/
def roundToPage (cfg : Config) (length : Word) : Nat :=
  (length.toNat + (pageSize cfg - 1)) / pageSize cfg * pageSize cfg

/-- mmap (R253): with hint 0 the bump allocator, which aborts rather than wrap; else the hint itself. -/
def sysMmap (hint length : Word) (s : State) : Result :=
  let size := roundToPage s.cfg length
  if hint = 0 then
    if 2 ^ 32 ≤ s.heap.toNat + size then raise .heapOverflow
    else syscallReturn s.heap 0 { s with heap := BitVec.ofNat 32 (s.heap.toNat + size) }
  else syscallReturn hint 0 s

/-- brk (R254): a fixed address. -/
def sysBrk (s : State) : Result := syscallReturn s.cfg.brkValue 0 s

/-- clone (R255): 1, and no second execution context. -/
def sysClone (s : State) : Result := syscallReturn 1 0 s

/-- exit_group (R256): terminal; no register is written and the program counter does not advance (log entry 19). -/
def sysExitGroup (status : Word) (s : State) : Result :=
  .next { s with exited := true, exitCode := status.setWidth 8 }

/-- read from fd 5 (R259, 46_preimage.md R282). -/
def readFromPreimage (addr count : Word) (s : State) : Result :=
  andThen (track (alignDown addr) s) fun s1 =>
    andThen (readPreimage s1.preimageKey s1.preimageOffset s1) fun s2 =>
      let delivered := deliverPreimage addr count s2
      syscallReturn delivered.2 0 delivered.1

/-- read (R257 to R261). -/
def sysRead (fd addr count : Word) (s : State) : Result :=
  if fd = fdStdin then syscallReturn 0 0 s
  else if fd = fdPreimageRead then readFromPreimage addr count s
  else if fd = fdHintRead then syscallReturn count 0 s
  else syscallBadFd s

/-- write to fd 6 (R265, 46_preimage.md R284). -/
def writeToPreimage (addr count : Word) (s : State) : Result :=
  andThen (track (alignDown addr) s) fun s1 =>
    let accepted := acceptKeyBytes addr count s1
    syscallReturn accepted.2 0 accepted.1

/-- write (R262 to R266). -/
def sysWrite (fd addr count : Word) (s : State) : Result :=
  if fd = fdStdout then
    andThen (writeStdout (rangeRead s addr count.toNat) s) (syscallReturn count 0)
  else if fd = fdStderr then
    andThen (writeStderr (rangeRead s addr count.toNat) s) (syscallReturn count 0)
  else if fd = fdHintWrite then
    andThen (writeHint (rangeRead s addr count.toNat) s) (syscallReturn count 0)
  else if fd = fdPreimageWrite then writeToPreimage addr count s
  else syscallBadFd s

/-- fcntl (R267). -/
def sysFcntl (fd cmd : Word) (s : State) : Result :=
  if cmd = s.cfg.fGetfl then
    if fd = fdStdin ∨ fd = fdHintRead ∨ fd = fdPreimageRead then syscallReturn s.cfg.oRdonly 0 s
    else if fd = fdStdout ∨ fd = fdStderr ∨ fd = fdHintWrite ∨ fd = fdPreimageWrite then
      syscallReturn s.cfg.oWronly 0 s
    else syscallBadFd s
  else syscallBadFd s

/-- `syscall` (R250): `x[2]` is the call number, compared whole, `x[4]` to `x[6]` the arguments; a number no call has does
nothing but return 0 (R268; log entry 19). -/
def execSyscall (s : State) : Result :=
  let num := readReg s 2#5
  let a0 := readReg s 4#5
  let a1 := readReg s 5#5
  let a2 := readReg s 6#5
  if num = callMmap then sysMmap a0 a1 s
  else if num = callBrk then sysBrk s
  else if num = callClone then sysClone s
  else if num = callExitGroup then sysExitGroup a0 s
  else if num = callRead then sysRead a0 a1 a2 s
  else if num = callWrite then sysWrite a0 a1 a2 s
  else if num = callFcntl then sysFcntl a0 a1 s
  else syscallReturn 0 0 s

end Sys2Proof.Machine
end

