-- ==== Sys2Proof/Machine/Step.lean ====
section
/-! DEFINITION. One step of the machine (40_pipeline.md R110, 60_exceptions.md R322 `Step()`), and the placing of an instruction
word where the next step fetches. -/

namespace Sys2Proof.Machine

/-- One step. A step that starts exited is a no-op (R35). Else it counts itself and clears the tracker, fetches, decodes and
runs the instruction; a misaligned `pc` or a word of the fatal list aborts (R60, R96). -/
def step (s : State) : Host.Outcome State Fault Refusal :=
  if s.exited then .next s
  else
    match fetch (beginStep s) with
    | .error f => raise f
    | .ok w =>
      match decode w with
      | .ok i => exec i (beginStep s)
      | .error e => raise (decodeFault w e)

/-- The state with an instruction word at the place the next step fetches from (log entry 5): the word at `pc`, whose bits
above `nbits` are 0. A fetch needs `exited` false and `pc` a multiple of 4, so it sets these; it changes nothing else. -/
def State.withFetchWord (s : State) (nbits w : Nat) : State :=
  { s with
    exited := false
    pc := alignDown s.pc
    mem := Memory.writeWord s.mem (alignDown s.pc) (BitVec.ofNat 32 (w % 2 ^ nbits)) }

end Sys2Proof.Machine
end

