-- ==== Sys2Proof/Machine/Pipeline.lean ====
section
/-! DEFINITION. The reference pipeline: the numbered parts of 40_pipeline.md R110 over the raw instruction word, with the value
function of 42_alu.md R150, the load and store values of 43_load_store.md R200, the branch handler of 41_branch_jump.md R131
and the hi/lo handler of 44_hilo.md R230, each transcribed as the spec writes it. The machine itself is `step`
(Machine/Step.lean), which decodes a word into an Instr and dispatches to one meaning per instruction; this file says what
the spec's own order of parts does, so that the two can be proved equal. Nothing of the machine uses it. -/

namespace Sys2Proof.Machine

/-- The immediates normalised to their R-type functs (R150): the pair of `op` and `f` the value function selects by. -/
def normalised (opcode funct : Nat) : Nat × Nat :=
  match opcode with
  | 0x08 => (0, 0x20)
  | 0x09 => (0, 0x21)
  | 0x0a => (0, 0x2a)
  | 0x0b => (0, 0x2b)
  | 0x0c => (0, 0x24)
  | 0x0d => (0, 0x25)
  | 0x0e => (0, 0x26)
  | _ => (opcode, funct)

/-- `LSValue(opcode, ea, old, mem)` (R200); `none` for an unlisted opcode. -/
def loadStoreValue (opcode : Nat) (ea old mem : Word) : Option Word :=
  match opcode with
  | 0x20 => some (lbValue ea old mem)
  | 0x21 => some (lhValue ea old mem)
  | 0x22 => some (lwlValue ea old mem)
  | 0x23 => some mem
  | 0x24 => some (lbuValue ea old mem)
  | 0x25 => some (lhuValue ea old mem)
  | 0x26 => some (lwrValue ea old mem)
  | 0x28 => some (sbValue ea old mem)
  | 0x29 => some (shValue ea old mem)
  | 0x2a => some (swlValue ea old mem)
  | 0x2b => some old
  | 0x2e => some (swrValue ea old mem)
  | 0x30 => some mem
  | 0x38 => some old
  | _ => none

/-- The SPECIAL part of the value function, by funct (R150). -/
def specialValue (f shamt : Nat) (rsVal rtVal : Word) : Option Word :=
  if f = 0x00 then some (rtVal <<< shamt)
  else if f = 0x02 then some (rtVal >>> shamt)
  else if f = 0x03 then some (sext (32 - shamt) (rtVal >>> shamt))
  else if f = 0x04 then some (rtVal <<< (rsVal &&& 0x1f).toNat)
  else if f = 0x06 then some (rtVal >>> (rsVal &&& 0x1f).toNat)
  else if f = 0x07 then some (sext (32 - (rsVal &&& 0x1f).toNat) (rtVal >>> (rsVal &&& 0x1f).toNat))
  else if 8 ≤ f ∧ f < 0x20 then some rsVal
  else if f = 0x20 ∨ f = 0x21 then some (rsVal + rtVal)
  else if f = 0x22 ∨ f = 0x23 then some (rsVal - rtVal)
  else if f = 0x24 then some (rsVal &&& rtVal)
  else if f = 0x25 then some (rsVal ||| rtVal)
  else if f = 0x26 then some (rsVal ^^^ rtVal)
  else if f = 0x27 then some (~~~(rsVal ||| rtVal))
  else if f = 0x2a then some (if rsVal.toInt < rtVal.toInt then 1 else 0)
  else if f = 0x2b then some (if rsVal.toNat < rtVal.toNat then 1 else 0)
  else none

/-- `Execute(insn, rs_val, rt_val, mem)` (R150); `none` where it raises `Fatal(InvalidInstruction)`. -/
def execute (insn rsVal rtVal mem : Word) : Option Word :=
  let opcode := (opcodeField insn).toNat
  let shamt := (shamtField insn).toNat
  if opcode < 0x20 then
    let (op, f) := normalised opcode (functField insn).toNat
    if op = 0 then specialValue f shamt rsVal rtVal
    else if op = 0x0f then some (rtVal <<< 16)
    else if op = 0x1c then
      if f = 0x02 then some (BitVec.ofInt 32 (rsVal.toInt * rtVal.toInt))
      else if f = 0x20 then some (BitVec.ofNat 32 (leadingOnes 32 (~~~rsVal)))
      else if f = 0x21 then some (BitVec.ofNat 32 (leadingOnes 32 rsVal))
      else none
    else none
  else loadStoreValue opcode rsVal rtVal mem

/-- `Branch(opcode, insn, rt_reg, rs_val)` (R131 to R138). -/
def branchHandler (insn rsVal : Word) (s : State) : Result :=
  let imm := imm16Field insn
  match (opcodeField insn).toNat with
  | 0x04 => branch (decide (rsVal = readReg s (rtField insn))) imm s
  | 0x05 => branch (decide (rsVal ≠ readReg s (rtField insn))) imm s
  | 0x06 => branch (decide (rsVal.toInt ≤ 0)) imm s
  | 0x07 => branch (decide (0 < rsVal.toInt)) imm s
  | _ =>
    match (rtField insn).toNat with
    | 0 => branch (decide (rsVal.toInt < 0)) imm s
    | 1 => branch (decide (0 ≤ rsVal.toInt)) imm s
    | _ => raise .invalidBranch

/-- `HiLo(funct, rs_val, rt_val, rd_reg)` (R230, R237, R238, R240, R241). -/
def hiLoHandler (insn rsVal rtVal : Word) (rdReg : Reg) (s : State) : Result :=
  match (functField insn).toNat with
  | 0x10 => .next (advance (writeReg s rdReg s.hi))
  | 0x11 => .next (advance { s with hi := rsVal })
  | 0x12 => .next (advance (writeReg s rdReg s.lo))
  | 0x13 => .next (advance { s with lo := rsVal })
  | 0x18 =>
    let p : BitVec 64 := BitVec.ofInt 64 (rsVal.toInt * rtVal.toInt)
    .next (advance { s with hi := p.extractLsb' 32 32, lo := p.extractLsb' 0 32 })
  | 0x19 =>
    let p : BitVec 64 := BitVec.ofNat 64 (rsVal.toNat * rtVal.toNat)
    .next (advance { s with hi := p.extractLsb' 32 32, lo := p.extractLsb' 0 32 })
  | 0x1a =>
    if rtVal.toInt = 0 then divideByZero rsVal (if 0 ≤ rsVal.toInt then 0xFFFFFFFF else 1) s
    else if rsVal.toInt = -2 ^ 31 ∧ rtVal.toInt = -1 then divideOverflow s
    else
      let q := rsVal.toInt.tdiv rtVal.toInt
      .next (advance { s with lo := BitVec.ofInt 32 q, hi := BitVec.ofInt 32 (rsVal.toInt - q * rtVal.toInt) })
  | 0x1b =>
    if rtVal.toNat = 0 then divideByZero rsVal 0xFFFFFFFF s
    else
      .next (advance { s with
        lo := BitVec.ofNat 32 (rsVal.toNat / rtVal.toNat)
        hi := BitVec.ofNat 32 (rsVal.toNat % rtVal.toNat) })
  | _ => raise (.invalidInstruction insn)

/-- Parts 8 to 10 of R110: store-conditional's 1, the memory write, the writeback. -/
def pipelineWrite (opcode : Nat) (rtReg rdReg : Reg) (storeAddr : Option Word) (val : Word) (s : State) : Result :=
  let s8 := if opcode = 0x38 then writeReg s rtReg 1 else s
  let s9 := match storeAddr with
    | some addr => memWrite s8 addr val
    | none => s8
  writeback rdReg.toNat val true s9

/-- Part 7 of R110: the handlers of SPECIAL functs 8 to 0x1b; functs 0xd, 0xe, 0xf fall through. -/
def pipelineHandlers (insn rsVal rtVal val : Word) (rtReg rdReg : Reg) (storeAddr : Option Word) (s : State) : Result :=
  let opcode := (opcodeField insn).toNat
  let funct := (functField insn).toNat
  if opcode = 0 ∧ 8 ≤ funct ∧ funct < 0x1c then
    if funct = 8 then jump 0#5 rsVal s
    else if funct = 9 then jump rdReg rsVal s
    else if funct = 0x0a then writeback rdReg.toNat rsVal (decide (rtVal = 0)) s
    else if funct = 0x0b then writeback rdReg.toNat rsVal (decide (rtVal ≠ 0)) s
    else if funct = 0x0c then execSyscall s
    else if 0x10 ≤ funct then hiLoHandler insn rsVal rtVal rdReg s
    else pipelineWrite opcode rtReg rdReg storeAddr val s
  else pipelineWrite opcode rtReg rdReg storeAddr val s

/-- Part 6 and on of R110. -/
def pipelineExecute (insn rsVal rtVal mem : Word) (rtReg rdReg : Reg) (storeAddr : Option Word) (s : State) : Result :=
  match execute insn rsVal rtVal mem with
  | none => raise (.invalidInstruction insn)
  | some val => pipelineHandlers insn rsVal rtVal val rtReg rdReg storeAddr s

/-- Part 5 and on of R110: the memory operand for opcodes 0x20 and above, whose effective address becomes `rs_val`. -/
def pipelineMemory (insn rsVal rtVal : Word) (rtReg rdReg : Reg) (s : State) : Result :=
  let opcode := (opcodeField insn).toNat
  if 0x20 ≤ opcode then
    let ea := rsVal + sextImm (imm16Field insn)
    let addr := alignDown ea
    andThen (track addr s) fun s5 =>
      if 0x28 ≤ opcode ∧ opcode ≠ 0x30 then
        pipelineExecute insn ea rtVal (memRead s5 addr) rtReg 0 (some addr) s5
      else pipelineExecute insn ea rtVal (memRead s5 addr) rtReg rdReg none s5
  else pipelineExecute insn rsVal rtVal 0 rtReg rdReg none s

/-- Parts 2 to 10 of R110 for the fetched word. -/
def pipelineInsn (insn : Word) (s : State) : Result :=
  let opcode := (opcodeField insn).toNat
  if opcode = 2 ∨ opcode = 3 then
    jump (if opcode = 3 then 31#5 else 0#5) ((indexField insn).signExtend 32 <<< 2) s
  else
    let rtReg := rtField insn
    let rsVal := readReg s (rsField insn)
    let rdReg := if opcode = 0 ∨ opcode = 0x1c then rdField insn else rtReg
    let rtVal :=
      if opcode = 0 ∨ opcode = 0x1c then readReg s rtReg
      else if opcode < 0x20 then
        if opcode = 0x0c ∨ opcode = 0x0d ∨ opcode = 0x0e then zextImm (imm16Field insn)
        else sextImm (imm16Field insn)
      else if 0x28 ≤ opcode ∨ opcode = 0x22 ∨ opcode = 0x26 then readReg s rtReg
      else 0
    if opcode = 4 ∨ opcode = 5 ∨ opcode = 6 ∨ opcode = 7 ∨ opcode = 1 then branchHandler insn rsVal s
    else pipelineMemory insn rsVal rtVal rtReg rdReg s

/-- `Step()` of R110, parts 0 to 10. -/
def pipelineStep (s : State) : Result :=
  if s.exited then .next s
  else
    let s0 := beginStep s
    if s0.pc &&& 3 ≠ 0 then raise .unalignedFetch
    else pipelineInsn (memRead s0 s0.pc) s0

end Sys2Proof.Machine
end

