-- ==== Sys2Proof/Safety.lean ====
section
/-! DEFINITION. The terms claims are stated in: what a completed instruction wrote and what it left alone, what a run ends in
(60_exceptions.md R323), and the invariant of the machine's states. -/

namespace Sys2Proof.Machine

/-! ### What an instruction wrote -/

/-- Register `r` holds `v` (register 0 holds 0 whatever is written to it, 10_state.md R21); every other register is as before. -/
def RegWritten (s t : State) (r : Reg) (v : Word) : Prop :=
  readReg t r = (if r = 0#5 then 0#32 else v) ∧ ∀ q : Reg, q ≠ r → readReg t q = readReg s q

/-- Every register is as before. -/
def SameRegs (s t : State) : Prop := ∀ q : Reg, readReg t q = readReg s q

/-- The program-counter pair advanced (40_pipeline.md R120). -/
def Advanced (s t : State) : Prop := t.pc = s.nextPc ∧ t.nextPc = s.nextPc + 4

/-- Every byte of memory reads as before. -/
def SameMemory (s t : State) : Prop := ∀ a : Word, memByte t a = memByte s a

/-- Every byte of memory outside a set of addresses reads as before. -/
def SameMemoryOutside (s t : State) (inside : Word → Prop) : Prop :=
  ∀ a : Word, ¬ inside a → memByte t a = memByte s a

/-! ### What an instruction left alone: the record equations say that every field they do not name is as before -/

/-- Nothing but the program-counter pair changed. -/
def OnlyPcChanged (s t : State) : Prop := t = { s with pc := t.pc, nextPc := t.nextPc }

/-- Nothing but general registers and the program-counter pair changed. -/
def OnlyRegsChanged (s t : State) : Prop := t = { s with regs := t.regs, pc := t.pc, nextPc := t.nextPc }

/-- Nothing but `hi`, `lo` and the program-counter pair changed. -/
def OnlyHiLoChanged (s t : State) : Prop := t = { s with hi := t.hi, lo := t.lo, pc := t.pc, nextPc := t.nextPc }

/-- Nothing but general registers, the program-counter pair and the access tracker changed. -/
def OnlyRegsAndTrackerChanged (s t : State) : Prop :=
  t = { s with
    regs := t.regs, pc := t.pc, nextPc := t.nextPc, lastMemAccess := t.lastMemAccess, proofCache := t.proofCache }

/-- Nothing but general registers, memory, the program-counter pair and the access tracker changed. -/
def OnlyRegsMemoryAndTrackerChanged (s t : State) : Prop :=
  t = { s with
    regs := t.regs, mem := t.mem, pc := t.pc, nextPc := t.nextPc, lastMemAccess := t.lastMemAccess,
    proofCache := t.proofCache }

/-! ### The access tracker -/

/-- The tracker accepts an access to this address: no other address is tracked in this step (20_memory.md R62). Every step
starts with the tracker clear (R111), so inside a step this always holds. -/
def Trackable (s : State) (addr : Word) : Prop := s.lastMemAccess = none ∨ s.lastMemAccess = some addr

/-- The address is the step's tracked access; the proof cache holds a proof for it if proofs are enabled and is as before if
they are not (20_memory.md R62). -/
def Tracked (s t : State) (addr : Word) : Prop :=
  t.lastMemAccess = some addr ∧
  (s.cfg.proofEnable = true → t.proofCache.map MerkleProof.addr = some addr) ∧
  (s.cfg.proofEnable = false → t.proofCache = s.proofCache)

/-! ### The shapes of results -/

/-- One register is written, the program-counter pair advances, every byte of memory and everything else is as before. -/
def WritesReg (s t : State) (r : Reg) (v : Word) : Prop :=
  RegWritten s t r v ∧ Advanced s t ∧ SameMemory s t ∧ OnlyRegsChanged s t

/-- `hi` and `lo` hold these values, the program-counter pair advances, everything else is as before. -/
def WritesHiLo (s t : State) (hi lo : Word) : Prop :=
  t.hi = hi ∧ t.lo = lo ∧ SameRegs s t ∧ Advanced s t ∧ SameMemory s t ∧ OnlyHiLoChanged s t

/-- A load from effective address `ea` that gives `v`: the register is written, memory is not, the word is the step's tracked
access. -/
def Loads (s t : State) (rt : Reg) (ea v : Word) : Prop :=
  RegWritten s t rt v ∧ Advanced s t ∧ SameMemory s t ∧ Tracked s t (alignDown ea) ∧ OnlyRegsAndTrackerChanged s t

/-- A store to effective address `ea`, but for the bytes it stores: no register is written, the word is the step's tracked
access. -/
def Stores (s t : State) (ea : Word) : Prop :=
  SameRegs s t ∧ Advanced s t ∧ Tracked s t (alignDown ea) ∧ OnlyRegsMemoryAndTrackerChanged s t

/-- A branch with this condition and offset (41_branch_jump.md R131). -/
def Branches (s t : State) (taken : Prop) (imm : BitVec 16) : Prop :=
  t.pc = s.nextPc ∧
  (taken → t.nextPc = s.pc + 4 + (imm.signExtend 32 <<< 2)) ∧ (¬ taken → t.nextPc = s.nextPc + 4) ∧
  SameRegs s t ∧ SameMemory s t ∧ OnlyPcChanged s t

/-- A jump to `dest` that links in register `link`, register 0 for no link (41_branch_jump.md R139). -/
def Jumps (s t : State) (link : Reg) (dest : Word) : Prop :=
  t.pc = s.nextPc ∧ t.nextPc = dest ∧ RegWritten s t link (s.pc + 8) ∧ SameMemory s t ∧ OnlyRegsChanged s t

/-- The two result registers of a system call, and the advance (45_syscall.md R250): no other register changes (R269). -/
def Returns (s t : State) (v0 v1 : Word) : Prop :=
  readReg t 2#5 = v0 ∧ readReg t 7#5 = v1 ∧ (∀ q : Reg, q ≠ 2#5 → q ≠ 7#5 → readReg t q = readReg s q) ∧ Advanced s t

/-- A system call that does nothing but return. -/
def OnlyReturns (s t : State) (v0 v1 : Word) : Prop := Returns s t v0 v1 ∧ SameMemory s t ∧ OnlyRegsChanged s t

/-! ### Forgetting a part of the state, to say that nothing else depends on it -/

def forgetHiLo (s : State) : State := { s with hi := 0, lo := 0 }

/-- Without the proof cache and the proof toggle (10_state.md R40). -/
def forgetProof (s : State) : State := { s with proofCache := none, cfg := { s.cfg with proofEnable := false } }

/-- Without the preimage cache and the record of the oracle transactions (10_state.md R41). -/
def forgetPreimageCache (s : State) : State :=
  { s with
    lastPreimageKey := none, lastPreimage := [], lastPreimageOffset := 0, ports := { s.ports with preimageKeys := [] } }

/-! ### Classes of instructions -/

/-- A branch or jump: the instructions with a delay slot (70_reset_and_hazards.md R340). -/
def isControl : Instr → Bool
  | .j _ | .jal _ | .jr _ | .jalr _ _ => true
  | .beq _ _ _ | .bne _ _ _ | .blez _ _ | .bgtz _ _ | .bltz _ _ | .bgez _ _ => true
  | _ => false

/-- A store instruction: part 9 of the pipeline writes memory (40_pipeline.md R118). -/
def isStore : Instr → Bool
  | .sb _ _ _ | .sh _ _ _ | .swl _ _ _ | .sw _ _ _ | .swr _ _ _ | .sc _ _ _ => true
  | _ => false

/-- A load or store instruction. -/
def isLoadOrStore : Instr → Bool
  | .lb _ _ _ | .lh _ _ _ | .lwl _ _ _ | .lw _ _ _ | .lbu _ _ _ | .lhu _ _ _ | .lwr _ _ _ | .ll _ _ _ => true
  | i => isStore i

/-- An instruction that writes `hi` or `lo` (10_state.md R30). -/
def writesHiLo : Instr → Bool
  | .mthi _ | .mtlo _ | .mult _ _ | .multu _ _ | .div _ _ | .divu _ _ => true
  | _ => false

/-! ### Runs (60_exceptions.md R323) -/

/-- What a run of so many steps ends in. -/
inductive RunOutcome where
  /-- `exited` is still false. -/
  | running (s : State)
  /-- exit_group was executed; the exit code is in the state. -/
  | exited (s : State)
  /-- A fatal abort, with the state before the failing step and the ports after it (R300). -/
  | aborted (cause : Fault) (before : State) (ports : Ports)
  /-- `get_preimage` never answers: no outcome; the state before the step, and the ports as they then are. -/
  | stuck (before : State) (ports : Ports)
  /-- The model has no meaning for an instruction. -/
  | refused (why : Refusal) (before : State)
  deriving DecidableEq, Repr

/-- A run of `n` steps. -/
def runFor : Nat → State → RunOutcome
  | 0, s => if s.exited then .exited s else .running s
  | n + 1, s =>
    match step s with
    | .next t => runFor n t
    | .fault (.oracleBlocked ports) => .stuck s ports
    | .fault f => .aborted f s (f.portsAfter s.ports)
    | .refused e => .refused e s

/-- The ports at the end of a run: what the run shows of itself beside its state (46_preimage.md R289). -/
def RunOutcome.ports : RunOutcome → Ports
  | .running s | .exited s => s.ports
  | .aborted _ _ ports | .stuck _ ports => ports
  | .refused _ before => before.ports

/-- The same oracle, and every transaction of `p` is still there, in its place. -/
def Ports.Extends (p q : Ports) : Prop :=
  q.oracle = p.oracle ∧ p.preimageKeys <+: q.preimageKeys ∧ p.hints <+: q.hints ∧
  p.stdout.bytes <+: q.stdout.bytes ∧ p.stderr.bytes <+: q.stderr.bytes

/-! ### The invariant -/

/-- The length of the prefixed buffer of a key the oracle knows (46_preimage.md R281). -/
def KnownPreimage (s : State) (key : Key) (blob : List Byte) : Prop :=
  oracleReply s.ports.oracle key = .blob blob ∧ blob.length + 4 < 2 ^ 32

/-- What holds at reset and after every step, beyond what the types say. -/
structure State.Inv (s : State) : Prop where
  /-- Register 0 is always 0 (10_state.md R43 (1)). -/
  regZero : s.regs[0] = 0
  /-- Memory keeps its canonical form. -/
  memory : Memory.wf s.mem = true
  /-- The step counter fits its width (10_state.md R33). -/
  counter : s.stepCount < 2 ^ s.cfg.stepWidth
  /-- `last_hint` holds no complete record (10_state.md R38). -/
  hint : completeRecord s.lastHint = false
  /-- The cached buffer is the oracle's, with its prefix (10_state.md R41, 46_preimage.md R290). -/
  cache : ∀ key, s.lastPreimageKey = some key → ∃ blob, KnownPreimage s key blob ∧ s.lastPreimage = prefixed blob
  /-- `preimage_offset` is 0 or an index into the current key's buffer, or its end, so it cannot overflow (10_state.md R37). -/
  offset : s.preimageOffset = 0 ∨
    ∃ blob, KnownPreimage s s.preimageKey blob ∧ s.preimageOffset.toNat ≤ blob.length + 4

end Sys2Proof.Machine
end

