-- ==== Sys2Proof/Certificates/Slice0/Obligations.lean ====
section
/-! DEFINITION. The statements for the provers. A statement whose docstring names a log entry rests there on a choice of the
model or on an inference the spec marks as its own. -/

open Sys2Proof Sys2Proof.Machine

/-! ### Encoding -/

/-- Words written out from the encodings of 30_encoding.md, one a family, decode to their instructions (log entry 22). -/
def Obligations.SpecWordsDecode : Prop :=
  decode 0x08000800#32 = .ok (.j 0x800) ∧
  decode 0x0320F809#32 = .ok (.jalr 31 25) ∧
  decode 0x10220003#32 = .ok (.beq 1 2 3) ∧
  decode 0x04610002#32 = .ok (.bgez 3 2) ∧
  decode 0x00011103#32 = .ok (.sra 2 1 4) ∧
  decode 0x00611007#32 = .ok (.srav 2 1 3) ∧
  decode 0x00221822#32 = .ok (.sub 3 1 2) ∧
  decode 0x2022FFFF#32 = .ok (.addi 2 1 0xFFFF) ∧
  decode 0x3C021234#32 = .ok (.lui 2 0x1234) ∧
  decode 0x70221802#32 = .ok (.mul 3 1 2) ∧
  decode 0x0022180A#32 = .ok (.movz 3 1 2) ∧
  decode 0x0020100F#32 = .ok (.special0x0f 2 1) ∧
  decode 0x98220002#32 = .ok (.lwr 2 2 1) ∧
  decode 0xE0220000#32 = .ok (.sc 2 0 1) ∧
  decode 0x0022001A#32 = .ok (.div 1 2) ∧
  decode 0x0000000C#32 = .ok .syscall

/-- Decoding gives back every encoded instruction, with every operand at every value its field holds. -/
def Obligations.DecodeEncodeRoundTrip : Prop := ∀ i : Instr, decode (encode i) = .ok i

/-- A word decodes exactly if a row of the opcode table applies to it; the row of the decoded instruction does; no two rows apply
to one word. -/
def Obligations.LegalWordsAreTheDecodedOnes : Prop :=
  ∀ w : Word,
    (legalWord w = true ↔ ∃ i, decode w = .ok i) ∧
    (∀ i, decode w = .ok i → i.row.applies w = true) ∧
    (∀ r ∈ encodingRows, ∀ r' ∈ encodingRows, r.applies w = true → r'.applies w = true → r = r')

/-- The fields 30_encoding.md R95 lists as ignored do not change what a word decodes to (log entry 16), for every instruction
that has one. -/
def Obligations.UnreadFieldsAreIgnored : Prop :=
  ∀ (rs rt rd : Reg) (sh : BitVec 5) (imm : BitVec 16),
    decode (encodeR 0x00 rs rt rd sh 0x00) = .ok (.sll rd rt sh) ∧
    decode (encodeR 0x00 rs rt rd sh 0x02) = .ok (.srl rd rt sh) ∧
    decode (encodeR 0x00 rs rt rd sh 0x03) = .ok (.sra rd rt sh) ∧
    decode (encodeR 0x00 rs rt rd sh 0x04) = .ok (.sllv rd rt rs) ∧
    decode (encodeR 0x00 rs rt rd sh 0x06) = .ok (.srlv rd rt rs) ∧
    decode (encodeR 0x00 rs rt rd sh 0x07) = .ok (.srav rd rt rs) ∧
    decode (encodeR 0x00 rs rt rd sh 0x08) = .ok (.jr rs) ∧
    decode (encodeR 0x00 rs rt rd sh 0x09) = .ok (.jalr rd rs) ∧
    decode (encodeR 0x00 rs rt rd sh 0x0a) = .ok (.movz rd rs rt) ∧
    decode (encodeR 0x00 rs rt rd sh 0x0b) = .ok (.movn rd rs rt) ∧
    decode (encodeR 0x00 rs rt rd sh 0x0c) = .ok .syscall ∧
    decode (encodeR 0x00 rs rt rd sh 0x0d) = .ok (.special0x0d rd rs) ∧
    decode (encodeR 0x00 rs rt rd sh 0x0e) = .ok (.special0x0e rd rs) ∧
    decode (encodeR 0x00 rs rt rd sh 0x0f) = .ok (.special0x0f rd rs) ∧
    decode (encodeR 0x00 rs rt rd sh 0x10) = .ok (.mfhi rd) ∧
    decode (encodeR 0x00 rs rt rd sh 0x11) = .ok (.mthi rs) ∧
    decode (encodeR 0x00 rs rt rd sh 0x12) = .ok (.mflo rd) ∧
    decode (encodeR 0x00 rs rt rd sh 0x13) = .ok (.mtlo rs) ∧
    decode (encodeR 0x00 rs rt rd sh 0x18) = .ok (.mult rs rt) ∧
    decode (encodeR 0x00 rs rt rd sh 0x19) = .ok (.multu rs rt) ∧
    decode (encodeR 0x00 rs rt rd sh 0x1a) = .ok (.div rs rt) ∧
    decode (encodeR 0x00 rs rt rd sh 0x1b) = .ok (.divu rs rt) ∧
    decode (encodeR 0x00 rs rt rd sh 0x1c) = .ok (.special0x1c rd rs) ∧
    decode (encodeR 0x00 rs rt rd sh 0x1d) = .ok (.special0x1d rd rs) ∧
    decode (encodeR 0x00 rs rt rd sh 0x1e) = .ok (.special0x1e rd rs) ∧
    decode (encodeR 0x00 rs rt rd sh 0x1f) = .ok (.special0x1f rd rs) ∧
    decode (encodeR 0x00 rs rt rd sh 0x20) = .ok (.add rd rs rt) ∧
    decode (encodeR 0x00 rs rt rd sh 0x21) = .ok (.addu rd rs rt) ∧
    decode (encodeR 0x00 rs rt rd sh 0x22) = .ok (.sub rd rs rt) ∧
    decode (encodeR 0x00 rs rt rd sh 0x23) = .ok (.subu rd rs rt) ∧
    decode (encodeR 0x00 rs rt rd sh 0x24) = .ok (.and rd rs rt) ∧
    decode (encodeR 0x00 rs rt rd sh 0x25) = .ok (.or rd rs rt) ∧
    decode (encodeR 0x00 rs rt rd sh 0x26) = .ok (.xor rd rs rt) ∧
    decode (encodeR 0x00 rs rt rd sh 0x27) = .ok (.nor rd rs rt) ∧
    decode (encodeR 0x00 rs rt rd sh 0x2a) = .ok (.slt rd rs rt) ∧
    decode (encodeR 0x00 rs rt rd sh 0x2b) = .ok (.sltu rd rs rt) ∧
    decode (encodeR 0x1c rs rt rd sh 0x02) = .ok (.mul rd rs rt) ∧
    decode (encodeR 0x1c rs rt rd sh 0x20) = .ok (.clz rd rs) ∧
    decode (encodeR 0x1c rs rt rd sh 0x21) = .ok (.clo rd rs) ∧
    decode (encodeI 0x06 rs rt imm) = .ok (.blez rs imm) ∧
    decode (encodeI 0x07 rs rt imm) = .ok (.bgtz rs imm) ∧
    decode (encodeI 0x0f rs rt imm) = .ok (.lui rt imm)

/-- The REGIMM map (30_encoding.md R94), and the abort of every other discriminant (60_exceptions.md R303): a step raises it
exactly there. -/
def Obligations.RegimmMapAndInvalidBranch : Prop :=
  (∀ w : Word, opcodeField w = 1 →
    (rtField w = 0 → decode w = .ok (.bltz (rsField w) (imm16Field w))) ∧
    (rtField w = 1 → decode w = .ok (.bgez (rsField w) (imm16Field w))) ∧
    (rtField w ≠ 0 → rtField w ≠ 1 → decode w = .error .invalidBranch)) ∧
  ∀ s : State, step s = .fault .invalidBranch ↔
    s.exited = false ∧ s.pc &&& 3 = 0 ∧ opcodeField (memRead s s.pc) = 1 ∧
      rtField (memRead s s.pc) ≠ 0 ∧ rtField (memRead s s.pc) ≠ 1

/-- A step raises `Fatal(InvalidInstruction)` exactly on the fatal list of 30_encoding.md R96, with the word as its information
(60_exceptions.md R302); that the list extends to function codes is a decision of the spec (log entry 17). -/
def Obligations.InvalidInstructionAbort : Prop :=
  ∀ (s : State) (w : Word), step s = .fault (.invalidInstruction w) ↔
    s.exited = false ∧ s.pc &&& 3 = 0 ∧ w = memRead s s.pc ∧
    ((0x10 ≤ (opcodeField w).toNat ∧ (opcodeField w).toNat ≤ 0x1b) ∨
     (0x1d ≤ (opcodeField w).toNat ∧ (opcodeField w).toNat ≤ 0x1f) ∨
     (opcodeField w).toNat ∈ [0x27, 0x2c, 0x2d, 0x2f] ∨
     (0x31 ≤ (opcodeField w).toNat ∧ (opcodeField w).toNat ≤ 0x37) ∨ 0x39 ≤ (opcodeField w).toNat ∨
     (opcodeField w = 0 ∧
       ((functField w).toNat ∈ [0x01, 0x05, 0x14, 0x15, 0x16, 0x17, 0x28, 0x29] ∨ 0x2c ≤ (functField w).toNat)) ∨
     (opcodeField w = 0x1c ∧ (functField w).toNat ∉ [0x02, 0x20, 0x21]))

/-! ### The step -/

/-- When the four bytes at `pc` decode to an instruction, the step is that instruction's meaning, run in the state whose step
counter is one higher and whose access tracker is clear (log entries 8 and 26). -/
def Obligations.StepRunsDecodedInstruction : Prop :=
  ∀ (s : State) (i : Instr), s.exited = false → s.pc &&& 3 = 0 → decodeBytes (rangeRead s s.pc 4) = .ok (i, []) →
    step s = exec i { s with stepCount := (s.stepCount + 1) % 2 ^ s.cfg.stepWidth, lastMemAccess := none }

/-- The exited state (10_state.md R35): a step that starts exited changes nothing, `exited` is never cleared, and only exit_group
sets it. -/
def Obligations.ExitedIsTerminal : Prop :=
  (∀ s : State, s.exited = true → step s = .next s) ∧
  ∀ s t : State, step s = .next t →
    (s.exited = true → t.exited = true) ∧
    (s.exited = false → t.exited = true → decode (memRead s s.pc) = .ok .syscall ∧ readReg s 2#5 = 4246)

/-- The machine, one meaning an instruction, is the spec's own pipeline: parts 0 to 10 of 40_pipeline.md R110 with the value
function of R150 and R200, transcribed literally in Machine/Pipeline.lean (log entries 11, 15, 17 and 28). -/
def Obligations.StepIsTheReferencePipeline : Prop := ∀ s : State, step s = pipelineStep s

/-- What a step can stop with, and on which instruction: the abort causes of 60_exceptions.md R313 and R315 that a step can raise,
and the model's own stuck state `oracleBlocked`, which is no abort (log entry 12); no step is refused. The causes rest on decisions
of the spec: the divisions (log entry 11), the oracle and the sinks (log entries 12 and 13), what the ports of a cause are (log
entry 14), the misaligned fetch (log entry 15), the fatal function codes (log entry 17), the heap (log entry 18), and that the
tracker never fires (log entry 26). -/
def Obligations.AbortCauses : Prop :=
  ∀ s : State,
    (∀ e, step s ≠ .refused e) ∧
    ∀ f, step s = .fault f →
      s.exited = false ∧
      ((f = .unalignedFetch ∧ s.pc.toNat % 4 ≠ 0) ∨
       (s.pc.toNat % 4 = 0 ∧
         ((∃ e, decode (memRead s s.pc) = .error e ∧
            (f = .invalidBranch ∨ f = .invalidInstruction (memRead s s.pc))) ∨
          (∃ rs rt, (decode (memRead s s.pc) = .ok (.div rs rt) ∨ decode (memRead s s.pc) = .ok (.divu rs rt)) ∧
            readReg s rt = 0 ∧ f = .divideByZero) ∨
          (∃ rs rt, decode (memRead s s.pc) = .ok (.div rs rt) ∧
            readReg s rs = 0x80000000 ∧ readReg s rt = 0xFFFFFFFF ∧ f = .divideOverflow) ∨
          (decode (memRead s s.pc) = .ok .syscall ∧
            (f = .heapOverflow ∨
              ∃ p, s.ports.Extends p ∧ (f = .oracleFailure p ∨ f = .oracleBlocked p ∨ f = .sinkFailure p))))))

/-- The two assertions of the spec. `Track`: a second, different address in one step aborts, the same address again does not
(60_exceptions.md R304). `Writeback`: a register number of 32 or more aborts (R305). No step raises either:
that none raises DualAddress rests on the spec's list of tracked accesses (log entry 26). -/
def Obligations.AssertionsNeverFire : Prop :=
  (∀ (s : State) (a : Word), s.lastMemAccess = none →
    ∃ t, track a s = .next t ∧ (∃ u, track a t = .next u) ∧ ∀ b, b ≠ a → track b t = .fault .dualAddress) ∧
  (∀ (n : Nat) (v : Word) (c : Bool) (s : State), writeback n v c s = .fault .registerIndex ↔ 32 ≤ n) ∧
  ∀ s : State, step s ≠ .fault .dualAddress ∧ step s ≠ .fault .registerIndex

/-- Every completed instruction but exit_group makes the old `next_pc` the new `pc`, and one that is no branch and no jump makes
`next_pc` the word after it (10_state.md R25, 40_pipeline.md R120); the wrap at 2^32 is log entry 25. -/
def Obligations.NextPcPolicy : Prop :=
  ∀ (i : Instr) (s t : State), exec i s = .next t → ¬ (i = .syscall ∧ readReg s 2#5 = 4246) →
    t.pc = s.nextPc ∧ (isControl i = false → t.nextPc = s.nextPc + 4)

/-- The delay-slot property (41_branch_jump.md R147): after a branch or jump at `A` that is itself in no delay slot, the next step
retires the instruction at `A + 4`, whatever the outcome. -/
def Obligations.DelaySlotRetiresNext : Prop :=
  ∀ (s : State) (A : Word) (i : Instr), s.exited = false → A &&& 3 = 0 → s.pc = A → s.nextPc = A + 4 →
    decode (memRead s A) = .ok i → isControl i = true →
    ∃ t, step s = .next t ∧ t.exited = false ∧ t.pc = A + 4 ∧
      ∀ j, decode (memRead s (A + 4)) = .ok j → step t = exec j (beginStep t)

/-- A control transfer in a delay slot (41_branch_jump.md R145): the first target retires next, and the second transfer's target,
relative to its own address, after that; its link is `A + 12`. -/
def Obligations.ControlTransferInDelaySlot : Prop :=
  ∀ (t : State) (A T : Word) (j : Instr), t.exited = false → A &&& 3 = 0 → t.pc = A + 4 → t.nextPc = T →
    decode (memRead t (A + 4)) = .ok j → isControl j = true →
    ∃ u, step t = .next u ∧ u.pc = T ∧
      (∀ index, j = .j index → u.nextPc = index.signExtend 32 <<< 2) ∧
      (∀ index, j = .jal index → u.nextPc = index.signExtend 32 <<< 2 ∧ readReg u 31#5 = A + 12) ∧
      (∀ rs, j = .jr rs → u.nextPc = readReg t rs) ∧
      (∀ rd rs, j = .jalr rd rs → u.nextPc = readReg t rs ∧ (rd ≠ 0 → readReg u rd = A + 12)) ∧
      (∀ rs rt imm, j = .beq rs rt imm →
        u.nextPc = if readReg t rs = readReg t rt then A + 8 + (imm.signExtend 32 <<< 2) else T + 4) ∧
      (∀ rs rt imm, j = .bne rs rt imm →
        u.nextPc = if readReg t rs ≠ readReg t rt then A + 8 + (imm.signExtend 32 <<< 2) else T + 4) ∧
      (∀ rs imm, j = .blez rs imm →
        u.nextPc = if (readReg t rs).toInt ≤ 0 then A + 8 + (imm.signExtend 32 <<< 2) else T + 4) ∧
      (∀ rs imm, j = .bgtz rs imm →
        u.nextPc = if 0 < (readReg t rs).toInt then A + 8 + (imm.signExtend 32 <<< 2) else T + 4) ∧
      (∀ rs imm, j = .bltz rs imm →
        u.nextPc = if (readReg t rs).toInt < 0 then A + 8 + (imm.signExtend 32 <<< 2) else T + 4) ∧
      (∀ rs imm, j = .bgez rs imm →
        u.nextPc = if 0 ≤ (readReg t rs).toInt then A + 8 + (imm.signExtend 32 <<< 2) else T + 4)

/-- A step raises `Fatal(UnalignedFetch)` exactly when it starts running at a misaligned `pc`. A jump through a register to a
misaligned address completes, its delay slot retires, and the step after aborts (41_branch_jump.md R146). That a misaligned fetch
aborts is the spec's decision (log entry 15). -/
def Obligations.MisalignedTargetAbortsAtItsFetch : Prop :=
  (∀ s : State, step s = .fault .unalignedFetch ↔ s.exited = false ∧ s.pc.toNat % 4 ≠ 0) ∧
  ∀ (s t u : State) (i j : Instr) (rs : Reg), s.exited = false → s.pc &&& 3 = 0 →
    decode (memRead s s.pc) = .ok i → (i = .jr rs ∨ ∃ rd, i = .jalr rd rs) → (readReg s rs).toNat % 4 ≠ 0 →
    step s = .next t → t.pc &&& 3 = 0 → decode (memRead t t.pc) = .ok j → step t = .next u → u.exited = false →
    step u = .fault .unalignedFetch

/-- The bookkeeping of a step: a completed step counts itself once, one that starts exited does not (10_state.md R33; the counter
is `STEP_WIDTH` bits wide and wraps there, log entry 8); the launch parameters and the oracle never change; a step that runs
neither a load or store nor a system call leaves the tracker clear (which accesses it sees, and that every step starts with it
clear, is the spec's decision, log entry 26). -/
def Obligations.StepBookkeeping : Prop :=
  ∀ s t : State, step s = .next t →
    t.stepCount = (if s.exited then s.stepCount else (s.stepCount + 1) % 2 ^ s.cfg.stepWidth) ∧ t.cfg = s.cfg ∧
    t.ports.oracle = s.ports.oracle ∧
    ∀ i, s.exited = false → decode (memRead s s.pc) = .ok i → isLoadOrStore i = false → i ≠ .syscall →
      t.lastMemAccess = none

/-! ### Reset and invariants -/

/-- What reset leaves (70_reset_and_hazards.md R331): the loader's registers, `pc`, `heap` and memory, and the fixed values, which
are the spec's decisions (log entry 6). -/
def Obligations.ResetState : Prop :=
  ∀ (l : Loader) (cfg : Config) (p : Ports), let s := State.resetWith l cfg p
    (∀ r : Reg, readReg s r = if r = 0 then 0 else l.regs[r.toNat]'r.isLt) ∧
    s.pc = l.pc ∧ s.nextPc = l.pc + 4 ∧ s.hi = 0 ∧ s.lo = 0 ∧ s.heap = l.heap ∧ s.mem = l.mem ∧
    s.stepCount = 0 ∧ s.exited = false ∧ s.exitCode = 0 ∧ (∀ i : Fin 32, s.preimageKey[i] = 0) ∧ s.preimageOffset = 0 ∧
    s.lastHint = [] ∧ s.lastMemAccess = none ∧ s.proofCache = none ∧ s.lastPreimageKey = none ∧
    s.lastPreimage = [] ∧ s.lastPreimageOffset = 0 ∧ s.cfg = cfg ∧ s.ports = p

/-- The invariant holds after reset with every loader whose memory is in canonical form, so it holds of `State.reset`. The canonical
form is the model's choice (log entry 4); the values of the counter, the key's offset, the hint buffer and the preimage cache at
reset are decisions of the spec (log entry 6). -/
def Obligations.InvariantHoldsAtReset : Prop :=
  (∀ (l : Loader) (cfg : Config) (p : Ports), Memory.wf l.mem = true → (State.resetWith l cfg p).Inv) ∧ State.reset.Inv

/-- Every step keeps the invariant: register 0 is 0, memory is canonical (the model's choice, log entry 4), the step counter fits
its width (log entry 8), `last_hint` holds no complete record, the preimage cache holds the oracle's blob with its prefix, and
`preimage_offset` stays inside the current key's buffer (both rest on the contract of the oracle, a decision of the spec, and on
the model's oracle table, log entry 12). -/
def Obligations.InvariantIsKeptByEveryStep : Prop := ∀ s t : State, s.Inv → step s = .next t → t.Inv

/-- The invariants 10_state.md R43 lists. `step` needs the launch premise of R33 that the counter is not at the top of its width
(log entry 8), and `heap` rests on the decision that overflow aborts (log entry 18). -/
def Obligations.MachineStateInvariants : Prop :=
  (∀ (l : Loader) (cfg : Config) (p : Ports), readReg (State.resetWith l cfg p) 0#5 = 0) ∧
  ∀ s t : State, step s = .next t →
    readReg t 0#5 = 0 ∧
    (s.regs[0] = 0 → t.regs[0] = 0) ∧
    s.heap.toNat ≤ t.heap.toNat ∧
    (s.stepCount + 1 < 2 ^ s.cfg.stepWidth → s.stepCount ≤ t.stepCount) ∧
    (s.exited = true → t = s) ∧
    (t.preimageKey ≠ s.preimageKey → t.preimageOffset = 0)

/-- What an instruction leaves alone by its kind. Only a store and a read from fd 5 change memory (20_memory.md R53); only a
system call changes the heap pointer, the exit state, the preimage and hint state or a port (10_state.md R32 to R38, section 6);
only a load, a store or a system call reaches the tracker (the spec's decision, log entry 26). -/
def Obligations.OnlyTheirInstructionsChangeThem : Prop :=
  ∀ (i : Instr) (s t : State), exec i s = .next t →
    (isStore i = false → ¬ (i = .syscall ∧ readReg s 2#5 = 4003 ∧ readReg s 4#5 = 5) → t.mem = s.mem) ∧
    (i ≠ .syscall →
      t.heap = s.heap ∧ t.exited = s.exited ∧ t.exitCode = s.exitCode ∧ t.preimageKey = s.preimageKey ∧
      t.preimageOffset = s.preimageOffset ∧ t.lastHint = s.lastHint ∧ t.lastPreimageKey = s.lastPreimageKey ∧
      t.lastPreimage = s.lastPreimage ∧ t.lastPreimageOffset = s.lastPreimageOffset ∧ t.ports = s.ports) ∧
    (i ≠ .syscall → isLoadOrStore i = false → t.lastMemAccess = s.lastMemAccess ∧ t.proofCache = s.proofCache)

/-- `hi` and `lo` are written only by their six instructions and read only by `mfhi` and `mflo` (10_state.md R30): no other
instruction's completion or result depends on them. -/
def Obligations.HiLoAreReachedOnlyByTheirInstructions : Prop :=
  ∀ (i : Instr) (s t : State) (h l : Word), exec i s = .next t →
    (writesHiLo i = false → t.hi = s.hi ∧ t.lo = s.lo) ∧
    ((∀ rd, i ≠ .mfhi rd ∧ i ≠ .mflo rd) →
      ∃ t', exec i { s with hi := h, lo := l } = .next t' ∧ forgetHiLo t' = forgetHiLo t)

/-- `PROOF_ENABLE` changes no architectural result (10_state.md R40, 60_exceptions.md R320): whatever the toggle and the cached
proof, a step has the same outcome, but for these two (the content of a proof is a free value, log entry 7). -/
def Obligations.ProofToggleHasNoArchitecturalEffect : Prop :=
  ∀ (s : State) (b : Bool) (c : Option MerkleProof),
    let s' : State := { s with proofCache := c, cfg := { s.cfg with proofEnable := b } }
    (∀ t, step s = .next t → ∃ t', step s' = .next t' ∧ forgetProof t' = forgetProof t) ∧
    ∀ f, step s = .fault f ↔ step s' = .fault f

/-- The preimage cache is unobservable apart from the number of oracle transactions (10_state.md R41): emptying it changes the
outcome of no step from a state of the invariant, but for the cache and that record (the oracle answers a key the same way for the
whole run, log entry 12). -/
def Obligations.PreimageCacheIsUnobservable : Prop :=
  ∀ s : State, s.Inv →
    let s' : State := { s with lastPreimageKey := none, lastPreimage := [], lastPreimageOffset := 0 }
    (∀ t, step s = .next t → ∃ t', step s' = .next t' ∧ forgetPreimageCache t' = forgetPreimageCache t) ∧
    ∀ f, step s = .fault f ↔ step s' = .fault f

/-! ### Registers and memory -/

/-- The register file (10_state.md R21): register 0 reads 0 and discards writes, every other register reads what was last written
to it, and a write reaches no other register. -/
def Obligations.RegisterFile : Prop :=
  ∀ (s : State) (r q : Reg) (v : Word),
    readReg s 0#5 = 0 ∧ writeReg s 0#5 v = s ∧
    readReg (writeReg s r v) q = (if q = 0 then 0 else if q = r then v else readReg s q)

/-- A word read gives the word most recently written to the address, or the loader's if there is none (20_memory.md R52): for
every sequence of word writes after reset. -/
def Obligations.MemoryReadsTheLastWrite : Prop :=
  ∀ (l : Loader) (cfg : Config) (p : Ports) (writes : List (Word × Word)) (addr : Word),
    Memory.wf l.mem = true → (∀ w ∈ writes, w.1 &&& 3 = 0) → addr &&& 3 = 0 →
    memRead (writes.foldl (fun s w => memWrite s w.1 w.2) (State.resetWith l cfg p)) addr =
      match writes.reverse.find? (fun w => w.1 = addr) with
      | some w => w.2
      | none => Memory.readWord l.mem addr

/-- The byte order (20_memory.md R55): big-endian within each word, byte lane `24 - (addr & 3) * 8`, halfword lane
`16 - (addr & 2) * 8`, bit 0 of a halfword address ignored. -/
def Obligations.ByteOrderIsBigEndianInEachWord : Prop :=
  ∀ (s : State) (a : Word), let w := memRead s (alignDown a)
    memByte s a = w.extractLsb' (24 - (a &&& 3).toNat * 8) 8 ∧
    ((a &&& 3).toNat = 0 → memByte s a = w.extractLsb' 24 8) ∧
    ((a &&& 3).toNat = 1 → memByte s a = w.extractLsb' 16 8) ∧
    ((a &&& 3).toNat = 2 → memByte s a = w.extractLsb' 8 8) ∧
    ((a &&& 3).toNat = 3 → memByte s a = w.extractLsb' 0 8) ∧
    lhuValue a 0 w = (w.extractLsb' (16 - (a &&& 2).toNat * 8) 16).setWidth 32 ∧
    ((a &&& 3).toNat < 2 → lhuValue a 0 w = (w.extractLsb' 16 16).setWidth 32) ∧
    (2 ≤ (a &&& 3).toNat → lhuValue a 0 w = (w.extractLsb' 0 16).setWidth 32) ∧
    lhuValue (a ||| 1) 0 w = lhuValue (a &&& 0xFFFFFFFE) 0 w

/-- The range reader yields `count` bytes from consecutive addresses, in order, modulo 2^32 (20_memory.md R57, the spec's
decision on the order, log entry 25); inside one word they are the word's bytes. -/
def Obligations.RangeReaderYieldsConsecutiveBytes : Prop :=
  ∀ (s : State) (a : Word) (count : Nat),
    (rangeRead s a count).length = count ∧
    (∀ i, i < count → (rangeRead s a count)[i]? = some (memByte s (a + BitVec.ofNat 32 i))) ∧
    (byteOffset a + count ≤ 4 →
      rangeRead s a count = ((wordBytes (memRead s (alignDown a))).drop (byteOffset a)).take count)

/-- The model's memory has one canonical form (log entry 4): every write keeps it, and two canonical memories that read the same
at every address are the same data. -/
def Obligations.MemoryKeepsItsCanonicalForm : Prop :=
  (∀ (m : Memory) (addr v : Word), Memory.wf m = true → Memory.wf (Memory.writeWord m addr v) = true) ∧
  (∀ (m : Memory) (a : Word) (b : Byte), Memory.wf m = true → Memory.wf (Memory.writeByte m a.toNat b) = true) ∧
  ∀ m m' : Memory, Memory.wf m = true → Memory.wf m' = true →
    (∀ a : Word, Memory.readByte m a.toNat = Memory.readByte m' a.toNat) → m = m'

/-! ### Arithmetic and logic -/

/-- The shifts (42_alu.md R151 to R156; function numbers, the five-bit mask and the effective amount of the arithmetic shift are
log entries 22 and 23). -/
def Obligations.ShiftResults : Prop :=
  ∀ (s : State) (rd rt rs : Reg) (sh : BitVec 5),
    (∃ t, exec (.sll rd rt sh) s = .next t ∧ WritesReg s t rd (readReg s rt <<< sh.toNat)) ∧
    (∃ t, exec (.srl rd rt sh) s = .next t ∧ WritesReg s t rd (readReg s rt >>> sh.toNat)) ∧
    (∃ t, exec (.sra rd rt sh) s = .next t ∧ WritesReg s t rd ((readReg s rt).sshiftRight sh.toNat)) ∧
    (∃ t, exec (.sllv rd rt rs) s = .next t ∧ WritesReg s t rd (readReg s rt <<< ((readReg s rs).toNat % 32))) ∧
    (∃ t, exec (.srlv rd rt rs) s = .next t ∧ WritesReg s t rd (readReg s rt >>> ((readReg s rs).toNat % 32))) ∧
    (∃ t, exec (.srav rd rt rs) s = .next t ∧
      WritesReg s t rd ((readReg s rt).sshiftRight ((readReg s rs).toNat % 32)))

/-- Three-register arithmetic and logic (42_alu.md R160 to R169; function numbers are log entry 22, the absence of an overflow
exception is log entry 24). -/
def Obligations.ThreeRegisterResults : Prop :=
  ∀ (s : State) (rd rs rt : Reg), let a := readReg s rs; let b := readReg s rt
    (∃ t, exec (.add rd rs rt) s = .next t ∧ WritesReg s t rd (BitVec.ofNat 32 (a.toNat + b.toNat))) ∧
    (∃ t, exec (.addu rd rs rt) s = .next t ∧ WritesReg s t rd (BitVec.ofNat 32 (a.toNat + b.toNat))) ∧
    (∃ t, exec (.sub rd rs rt) s = .next t ∧ WritesReg s t rd (BitVec.ofInt 32 (a.toInt - b.toInt))) ∧
    (∃ t, exec (.subu rd rs rt) s = .next t ∧ WritesReg s t rd (BitVec.ofInt 32 (a.toInt - b.toInt))) ∧
    (∃ t, exec (.and rd rs rt) s = .next t ∧ WritesReg s t rd (a &&& b)) ∧
    (∃ t, exec (.or rd rs rt) s = .next t ∧ WritesReg s t rd (a ||| b)) ∧
    (∃ t, exec (.xor rd rs rt) s = .next t ∧ WritesReg s t rd (a ^^^ b)) ∧
    (∃ t, exec (.nor rd rs rt) s = .next t ∧ WritesReg s t rd (~~~ (a ||| b))) ∧
    (∃ t, exec (.slt rd rs rt) s = .next t ∧ WritesReg s t rd (if a.toInt < b.toInt then 1 else 0)) ∧
    (∃ t, exec (.sltu rd rs rt) s = .next t ∧ WritesReg s t rd (if a.toNat < b.toNat then 1 else 0))

/-- The immediates with a sign-extended operand (42_alu.md R170 to R173; opcode numbers are log entry 22, the absence of an
overflow exception is log entry 24). -/
def Obligations.SignedImmediateResults : Prop :=
  ∀ (s : State) (rt rs : Reg) (imm : BitVec 16), let a := readReg s rs
    (∃ t, exec (.addi rt rs imm) s = .next t ∧ WritesReg s t rt (BitVec.ofInt 32 (a.toInt + imm.toInt))) ∧
    (∃ t, exec (.addiu rt rs imm) s = .next t ∧ WritesReg s t rt (BitVec.ofInt 32 (a.toInt + imm.toInt))) ∧
    (∃ t, exec (.slti rt rs imm) s = .next t ∧ WritesReg s t rt (if a.toInt < imm.toInt then 1 else 0)) ∧
    (∃ t, exec (.sltiu rt rs imm) s = .next t ∧
      WritesReg s t rt (if a.toNat < (imm.signExtend 32).toNat then 1 else 0))

/-- `andi`, `ori`, `xori` with a zero-extended immediate and `lui` (42_alu.md R174 to R177): encoding, result and frame. -/
def Obligations.LogicalImmediateResults : Prop :=
  (∀ w : Word,
    (opcodeField w = 0x0c → decode w = .ok (.andi (rtField w) (rsField w) (imm16Field w))) ∧
    (opcodeField w = 0x0d → decode w = .ok (.ori (rtField w) (rsField w) (imm16Field w))) ∧
    (opcodeField w = 0x0e → decode w = .ok (.xori (rtField w) (rsField w) (imm16Field w))) ∧
    (opcodeField w = 0x0f → decode w = .ok (.lui (rtField w) (imm16Field w)))) ∧
  ∀ (s : State) (rt rs : Reg) (imm : BitVec 16), let a := readReg s rs
    (∃ t, exec (.andi rt rs imm) s = .next t ∧ WritesReg s t rt (a &&& imm.setWidth 32) ∧
      (readReg t rt).extractLsb' 16 16 = 0) ∧
    (∃ t, exec (.ori rt rs imm) s = .next t ∧ WritesReg s t rt (a ||| imm.setWidth 32)) ∧
    (∃ t, exec (.xori rt rs imm) s = .next t ∧ WritesReg s t rt (a ^^^ imm.setWidth 32)) ∧
    (∃ t, exec (.lui rt imm) s = .next t ∧ WritesReg s t rt (imm.signExtend 32 <<< 16) ∧
      imm.signExtend 32 <<< 16 = imm ++ 0#16)

/-- `mul`, `clz` and `clo` (42_alu.md R180 to R182): encoding, result and frame. `mul` gives the low 32 bits of the signed product,
which are those of the unsigned one; `clz` and `clo` count leading bits, 0 to 32. -/
def Obligations.MultiplyAndCountResults : Prop :=
  (∀ w : Word, opcodeField w = 0x1c →
    (functField w = 0x02 → decode w = .ok (.mul (rdField w) (rsField w) (rtField w))) ∧
    (functField w = 0x20 → decode w = .ok (.clz (rdField w) (rsField w))) ∧
    (functField w = 0x21 → decode w = .ok (.clo (rdField w) (rsField w)))) ∧
  ∀ (s : State) (rd rs rt : Reg), let a := readReg s rs; let b := readReg s rt
    (∃ t, exec (.mul rd rs rt) s = .next t ∧ WritesReg s t rd (BitVec.ofInt 32 (a.toInt * b.toInt)) ∧
      BitVec.ofInt 32 (a.toInt * b.toInt) = BitVec.ofNat 32 (a.toNat * b.toNat) ∧ t.hi = s.hi ∧ t.lo = s.lo) ∧
    (∃ t n, exec (.clz rd rs) s = .next t ∧ WritesReg s t rd (BitVec.ofNat 32 n) ∧ n ≤ 32 ∧
      (∀ i, 32 - n ≤ i → i < 32 → a.getLsbD i = false) ∧ (n < 32 → a.getLsbD (31 - n) = true)) ∧
    (∃ t n, exec (.clo rd rs) s = .next t ∧ WritesReg s t rd (BitVec.ofNat 32 n) ∧ n ≤ 32 ∧
      (∀ i, 32 - n ≤ i → i < 32 → a.getLsbD i = true) ∧ (n < 32 → a.getLsbD (31 - n) = false))

/-- The conditional moves (42_alu.md R184, R185): encoding, the move when the condition holds, the old value when it fails, the
advance always. -/
def Obligations.ConditionalMoveResults : Prop :=
  (∀ w : Word, opcodeField w = 0 →
    (functField w = 0x0a → decode w = .ok (.movz (rdField w) (rsField w) (rtField w))) ∧
    (functField w = 0x0b → decode w = .ok (.movn (rdField w) (rsField w) (rtField w)))) ∧
  ∀ (s : State) (rd rs rt : Reg),
    (∃ t, exec (.movz rd rs rt) s = .next t ∧
      WritesReg s t rd (if readReg s rt = 0 then readReg s rs else readReg s rd)) ∧
    (∃ t, exec (.movn rd rs rt) s = .next t ∧
      WritesReg s t rd (if readReg s rt ≠ 0 then readReg s rs else readReg s rd))

/-- The seven pass-through encodings copy `x[rs]` into `x[rd]` (42_alu.md R186, the spec's decision, log entry 17); in canonical
form they change nothing but the program-counter pair. -/
def Obligations.PassThroughResults : Prop :=
  ∀ (s : State) (rd rs : Reg),
    ∀ i ∈ [Instr.special0x0d rd rs, .special0x0e rd rs, .special0x0f rd rs, .special0x1c rd rs, .special0x1d rd rs,
        .special0x1e rd rs, .special0x1f rd rs],
      ∃ t, exec i s = .next t ∧ WritesReg s t rd (readReg s rs) ∧ (rd = 0 → OnlyPcChanged s t)

/-! ### Loads and stores -/

/-- `lb`, `lbu`, `lh`, `lhu`, `lw` by the bytes of memory (43_load_store.md R201, R202, R204 to R206; opcode numbers are log entry
22). The premise holds in every step: the tracker is clear when an instruction starts. -/
def Obligations.LoadResults : Prop :=
  ∀ (s : State) (rt rs : Reg) (imm : BitVec 16), let ea := effectiveAddress (readReg s rs) imm
    let half : BitVec 16 := memByte s (ea &&& 0xFFFFFFFE) ++ memByte s (ea ||| 1)
    Trackable s (alignDown ea) →
    (∃ t, exec (.lb rt imm rs) s = .next t ∧ Loads s t rt ea ((memByte s ea).signExtend 32)) ∧
    (∃ t, exec (.lbu rt imm rs) s = .next t ∧ Loads s t rt ea ((memByte s ea).setWidth 32)) ∧
    (∃ t, exec (.lh rt imm rs) s = .next t ∧ Loads s t rt ea (half.signExtend 32)) ∧
    (∃ t, exec (.lhu rt imm rs) s = .next t ∧ Loads s t rt ea (half.setWidth 32)) ∧
    (∃ t, exec (.lw rt imm rs) s = .next t ∧ Loads s t rt ea (wordOfBytes (rangeRead s (alignDown ea) 4)))

/-- `ll` is exactly `lw`: it loads the word and keeps no reservation and no link bit, since nothing but the destination, the
program-counter pair and the tracker changes (43_load_store.md R213). -/
def Obligations.LoadLinkedIsLoadWord : Prop :=
  (∀ w : Word, opcodeField w = 0x30 → decode w = .ok (.ll (rtField w) (imm16Field w) (rsField w))) ∧
  ∀ (s : State) (rt rs : Reg) (imm : BitVec 16), let ea := readReg s rs + imm.signExtend 32
    exec (.ll rt imm rs) s = exec (.lw rt imm rs) s ∧
    (Trackable s (alignDown ea) →
      ∃ t, exec (.ll rt imm rs) s = .next t ∧ Loads s t rt ea (memRead s (ea &&& 0xFFFFFFFC)))

/-- `lwl` and `lwr` by bytes (43_load_store.md R203, R207; the masks are from general knowledge, log entry 21): the bytes from `ea`
to the end of its word become the leading bytes of the register, or those from the start of the word up to `ea` the trailing ones;
the register's other bytes stay. -/
def Obligations.PartialLoadResults : Prop :=
  ∀ (s : State) (rt rs : Reg) (imm : BitVec 16), let ea := effectiveAddress (readReg s rs) imm
    let b := ea.toNat % 4
    let old := wordBytes (readReg s rt)
    Trackable s (alignDown ea) →
    (∃ t, exec (.lwl rt imm rs) s = .next t ∧
      Loads s t rt ea (wordOfBytes (rangeRead s ea (4 - b) ++ old.drop (4 - b)))) ∧
    (∃ t, exec (.lwr rt imm rs) s = .next t ∧
      Loads s t rt ea (wordOfBytes (old.take (3 - b) ++ rangeRead s (alignDown ea) (b + 1))))

/-- `sb`, `sh`, `sw` by the bytes of memory (43_load_store.md R208, R209, R211; opcode numbers are log entry 22): the stored bytes,
every other byte as before, no register written. -/
def Obligations.StoreResults : Prop :=
  ∀ (s : State) (rt rs : Reg) (imm : BitVec 16), let ea := effectiveAddress (readReg s rs) imm
    let v := readReg s rt
    Memory.wf s.mem = true → Trackable s (alignDown ea) →
    (∃ t, exec (.sb rt imm rs) s = .next t ∧ Stores s t ea ∧
      memByte t ea = v.extractLsb' 0 8 ∧ SameMemoryOutside s t (fun a => a = ea)) ∧
    (∃ t, exec (.sh rt imm rs) s = .next t ∧ Stores s t ea ∧
      memByte t (ea &&& 0xFFFFFFFE) = v.extractLsb' 8 8 ∧ memByte t (ea ||| 1) = v.extractLsb' 0 8 ∧
      SameMemoryOutside s t (fun a => a = ea &&& 0xFFFFFFFE ∨ a = ea ||| 1)) ∧
    (∃ t, exec (.sw rt imm rs) s = .next t ∧ Stores s t ea ∧
      rangeRead t (alignDown ea) 4 = wordBytes v ∧
      SameMemoryOutside s t (fun a => alignDown a = alignDown ea))

/-- `swl` and `swr` by bytes (43_load_store.md R210, R212; the masks are from general knowledge, log entry 21). -/
def Obligations.PartialStoreResults : Prop :=
  ∀ (s : State) (rt rs : Reg) (imm : BitVec 16), let ea := effectiveAddress (readReg s rs) imm
    let b := ea.toNat % 4
    let v := wordBytes (readReg s rt)
    Memory.wf s.mem = true → Trackable s (alignDown ea) →
    (∃ t, exec (.swl rt imm rs) s = .next t ∧ Stores s t ea ∧
      rangeRead t ea (4 - b) = v.take (4 - b) ∧
      SameMemoryOutside s t (fun a => ea.toNat ≤ a.toNat ∧ a.toNat < (alignDown ea).toNat + 4)) ∧
    (∃ t, exec (.swr rt imm rs) s = .next t ∧ Stores s t ea ∧
      rangeRead t (alignDown ea) (b + 1) = v.drop (3 - b) ∧
      SameMemoryOutside s t (fun a => (alignDown ea).toNat ≤ a.toNat ∧ a.toNat ≤ ea.toNat))

/-- `sc` always stores the old `x[rt]` and, unless `rt` is 0, writes 1 to it, in every state and without a preceding `ll`
(43_load_store.md R214). -/
def Obligations.StoreConditionalAlwaysSucceeds : Prop :=
  (∀ w : Word, opcodeField w = 0x38 → decode w = .ok (.sc (rtField w) (imm16Field w) (rsField w))) ∧
  ∀ (s : State) (rt rs : Reg) (imm : BitVec 16), let ea := readReg s rs + imm.signExtend 32
    Memory.wf s.mem = true → Trackable s (alignDown ea) →
    ∃ t, exec (.sc rt imm rs) s = .next t ∧
      RegWritten s t rt 1 ∧ memRead t (ea &&& 0xFFFFFFFC) = readReg s rt ∧
      SameMemoryOutside s t (fun a => alignDown a = alignDown ea) ∧
      Advanced s t ∧ Tracked s t (alignDown ea) ∧ OnlyRegsMemoryAndTrackerChanged s t

/-! ### Control transfer -/

/-- The branches (41_branch_jump.md R131 to R137): encoding, condition, target and frame. -/
def Obligations.BranchResults : Prop :=
  (∀ w : Word,
    (opcodeField w = 4 → decode w = .ok (.beq (rsField w) (rtField w) (imm16Field w))) ∧
    (opcodeField w = 5 → decode w = .ok (.bne (rsField w) (rtField w) (imm16Field w))) ∧
    (opcodeField w = 6 → decode w = .ok (.blez (rsField w) (imm16Field w))) ∧
    (opcodeField w = 7 → decode w = .ok (.bgtz (rsField w) (imm16Field w))) ∧
    (opcodeField w = 1 → rtField w = 0 → decode w = .ok (.bltz (rsField w) (imm16Field w))) ∧
    (opcodeField w = 1 → rtField w = 1 → decode w = .ok (.bgez (rsField w) (imm16Field w)))) ∧
  ∀ (s : State) (rs rt : Reg) (imm : BitVec 16), let a := readReg s rs
    (∃ t, exec (.beq rs rt imm) s = .next t ∧ Branches s t (a = readReg s rt) imm) ∧
    (∃ t, exec (.bne rs rt imm) s = .next t ∧ Branches s t (a ≠ readReg s rt) imm) ∧
    (∃ t, exec (.blez rs imm) s = .next t ∧ Branches s t (a.toInt ≤ 0) imm) ∧
    (∃ t, exec (.bgtz rs imm) s = .next t ∧ Branches s t (0 < a.toInt) imm) ∧
    (∃ t, exec (.bltz rs imm) s = .next t ∧ Branches s t (a.msb = true) imm) ∧
    (∃ t, exec (.bgez rs imm) s = .next t ∧ Branches s t (a.msb = false) imm)

/-- The jumps (41_branch_jump.md R139 to R143): encoding, destination, link and frame; the destination is read before the link is
written, and register 0 links nothing. -/
def Obligations.JumpResults : Prop :=
  (∀ w : Word,
    (opcodeField w = 2 → decode w = .ok (.j (indexField w))) ∧
    (opcodeField w = 3 → decode w = .ok (.jal (indexField w))) ∧
    (opcodeField w = 0 → functField w = 8 → decode w = .ok (.jr (rsField w))) ∧
    (opcodeField w = 0 → functField w = 9 → decode w = .ok (.jalr (rdField w) (rsField w)))) ∧
  (∀ (s : State) (link : Reg) (dest : Word), ∃ t, jump link dest s = .next t ∧ Jumps s t link dest) ∧
  ∀ (s : State) (rd rs : Reg) (index : BitVec 26),
    (∃ t, exec (.j index) s = .next t ∧ Jumps s t 0 (index.signExtend 32 <<< 2) ∧ SameRegs s t) ∧
    (∃ t, exec (.jal index) s = .next t ∧ Jumps s t 31 (index.signExtend 32 <<< 2)) ∧
    (∃ t, exec (.jr rs) s = .next t ∧ Jumps s t 0 (readReg s rs) ∧ SameRegs s t) ∧
    (∃ t, exec (.jalr rd rs) s = .next t ∧ Jumps s t rd (readReg s rs))

/-! ### Hi and lo -/

/-- The moves between a register and `hi` or `lo`, and the multiplications, after which `hi` and `lo` together hold the exact
64-bit product (44_hilo.md R231 to R236; function numbers and which register a move uses are log entry 22). -/
def Obligations.HiLoMoveAndMultiplyResults : Prop :=
  ∀ (s : State) (rs rt : Reg), let a := readReg s rs; let b := readReg s rt
    (∃ t, exec (.mfhi rs) s = .next t ∧ WritesReg s t rs s.hi) ∧
    (∃ t, exec (.mflo rs) s = .next t ∧ WritesReg s t rs s.lo) ∧
    (∃ t, exec (.mthi rs) s = .next t ∧ WritesHiLo s t a s.lo) ∧
    (∃ t, exec (.mtlo rs) s = .next t ∧ WritesHiLo s t s.hi a) ∧
    (∃ t, exec (.mult rs rt) s = .next t ∧ WritesHiLo s t t.hi t.lo ∧
      t.hi.toInt * 2 ^ 32 + t.lo.toNat = a.toInt * b.toInt) ∧
    (∃ t, exec (.multu rs rt) s = .next t ∧ WritesHiLo s t t.hi t.lo ∧
      t.hi.toNat * 2 ^ 32 + t.lo.toNat = a.toNat * b.toNat)

/-- `div` and `divu` on the operands no policy is asked for (44_hilo.md R237, R238; truncation is log entry 20): dividend is
quotient times divisor plus remainder, the remainder is smaller than the divisor and has the dividend's sign. -/
def Obligations.DivideResults : Prop :=
  ∀ (s : State) (rs rt : Reg), let n := readReg s rs; let d := readReg s rt
    d ≠ 0 →
    (¬ (n = 0x80000000 ∧ d = 0xFFFFFFFF) →
      ∃ t, exec (.div rs rt) s = .next t ∧ WritesHiLo s t t.hi t.lo ∧
        n.toInt = t.lo.toInt * d.toInt + t.hi.toInt ∧ t.hi.toInt.natAbs < d.toInt.natAbs ∧
        (0 ≤ n.toInt → 0 ≤ t.hi.toInt) ∧ (n.toInt ≤ 0 → t.hi.toInt ≤ 0)) ∧
    (∃ t, exec (.divu rs rt) s = .next t ∧ WritesHiLo s t t.hi t.lo ∧
      n.toNat = t.lo.toNat * d.toNat + t.hi.toNat ∧ t.hi.toNat < d.toNat)

/-- Division by zero and signed overflow follow the launch policies (44_hilo.md R240, R241 and 93_implementation_defined.md U1, U2,
log entry 11): the spec's decision, the fatal abort, and the alternatives it lists. -/
def Obligations.DividePolicies : Prop :=
  ∀ (s : State) (rs rt : Reg), let n := readReg s rs; let d := readReg s rt
    (d = 0 →
      (s.cfg.divZero = .fatal →
        exec (.div rs rt) s = .fault .divideByZero ∧ exec (.divu rs rt) s = .fault .divideByZero) ∧
      (s.cfg.divZero = .unchanged →
        (∃ t, exec (.div rs rt) s = .next t ∧ WritesHiLo s t s.hi s.lo) ∧
        (∃ t, exec (.divu rs rt) s = .next t ∧ WritesHiLo s t s.hi s.lo)) ∧
      (s.cfg.divZero = .host →
        (∃ t, exec (.div rs rt) s = .next t ∧ WritesHiLo s t n (if 0 ≤ n.toInt then 0xFFFFFFFF else 1)) ∧
        (∃ t, exec (.divu rs rt) s = .next t ∧ WritesHiLo s t n 0xFFFFFFFF))) ∧
    (n = 0x80000000 → d = 0xFFFFFFFF →
      (s.cfg.divOverflow = .fatal → exec (.div rs rt) s = .fault .divideOverflow) ∧
      (s.cfg.divOverflow = .wrap → ∃ t, exec (.div rs rt) s = .next t ∧ WritesHiLo s t 0 0x80000000))

/-! ### System calls -/

/-- The calls that do nothing but return (45_syscall.md R254, R255, R258, R260, R267, R268 and mmap with a hint, R253): the two
results, the advance, nothing else. Argument order, constants and the default result are log entries 10, 18 and 19. -/
def Obligations.PlainCallResults : Prop :=
  ∀ s : State, let num := readReg s 2#5; let a0 := readReg s 4#5; let a1 := readReg s 5#5; let a2 := readReg s 6#5
    (num = 4045 → ∃ t, exec .syscall s = .next t ∧ OnlyReturns s t s.cfg.brkValue 0) ∧
    (num = 4120 → ∃ t, exec .syscall s = .next t ∧ OnlyReturns s t 1 0) ∧
    (num = 4090 → a0 ≠ 0 → ∃ t, exec .syscall s = .next t ∧ OnlyReturns s t a0 0) ∧
    (num = 4003 → a0 = 0 → ∃ t, exec .syscall s = .next t ∧ OnlyReturns s t 0 0) ∧
    (num = 4003 → a0 = 3 → ∃ t, exec .syscall s = .next t ∧ OnlyReturns s t a2 0) ∧
    (num = 4055 → a1 = s.cfg.fGetfl → a0 = 0 ∨ a0 = 3 ∨ a0 = 5 →
      ∃ t, exec .syscall s = .next t ∧ OnlyReturns s t s.cfg.oRdonly 0) ∧
    (num = 4055 → a1 = s.cfg.fGetfl → a0 = 1 ∨ a0 = 2 ∨ a0 = 4 ∨ a0 = 6 →
      ∃ t, exec .syscall s = .next t ∧ OnlyReturns s t s.cfg.oWronly 0) ∧
    (num ≠ 4090 → num ≠ 4045 → num ≠ 4120 → num ≠ 4246 → num ≠ 4003 → num ≠ 4004 → num ≠ 4055 →
      ∃ t, exec .syscall s = .next t ∧ OnlyReturns s t 0 0)

/-- The calls that fail return -1 and EBADF and execution goes on (45_syscall.md R252, R261, R266, R267; which register carries
the descriptor is log entry 19), and no call answers another error code. -/
def Obligations.FailingCallsReturnBadFd : Prop :=
  ∀ s : State, let num := readReg s 2#5; let a0 := readReg s 4#5; let a1 := readReg s 5#5
    (num = 4003 → a0 ≠ 0 → a0 ≠ 3 → a0 ≠ 5 → ∃ t, exec .syscall s = .next t ∧ OnlyReturns s t 0xFFFFFFFF 9) ∧
    (num = 4004 → a0 ≠ 1 → a0 ≠ 2 → a0 ≠ 4 → a0 ≠ 6 → ∃ t, exec .syscall s = .next t ∧ OnlyReturns s t 0xFFFFFFFF 9) ∧
    (num = 4055 → a1 ≠ s.cfg.fGetfl ∨ 7 ≤ a0.toNat → ∃ t, exec .syscall s = .next t ∧ OnlyReturns s t 0xFFFFFFFF 9) ∧
    ∀ t, exec .syscall s = .next t → num ≠ 4246 →
      readReg t 7#5 = 0 ∨ (readReg t 7#5 = 9 ∧ readReg t 2#5 = 0xFFFFFFFF)

/-- mmap in heap mode (45_syscall.md R253; length register, page size and the abort on overflow are log entry 18): it returns the
old heap pointer and bumps it by the least page multiple that covers the length, or aborts at the top of the address space. -/
def Obligations.MmapBumpsTheHeap : Prop :=
  ∀ (s : State) (size : Nat), readReg s 2#5 = 4090 → readReg s 4#5 = 0 →
    2 ^ s.cfg.pageSizeLog2 ∣ size → (readReg s 5#5).toNat ≤ size →
    (∀ n, 2 ^ s.cfg.pageSizeLog2 ∣ n → (readReg s 5#5).toNat ≤ n → size ≤ n) →
    (s.heap.toNat + size < 2 ^ 32 →
      ∃ t, exec .syscall s = .next t ∧ Returns s t s.heap 0 ∧ t.heap.toNat = s.heap.toNat + size ∧ SameMemory s t ∧
        t = { s with regs := t.regs, pc := t.pc, nextPc := t.nextPc, heap := t.heap }) ∧
    (2 ^ 32 ≤ s.heap.toNat + size → exec .syscall s = .fault .heapOverflow)

/-- exit_group (45_syscall.md R256): `exited` and the low byte of the status are set, nothing else changes (log entry 19), and
every run from there stays in that state (60_exceptions.md R323). -/
def Obligations.ExitGroupEndsTheRun : Prop :=
  ∀ s : State, readReg s 2#5 = 4246 →
    ∃ t, exec .syscall s = .next t ∧ t = { s with exited := true, exitCode := (readReg s 4#5).extractLsb' 0 8 } ∧
      ∀ n, runFor n t = .exited t

/-- A write to stdout or stderr (45_syscall.md R263; argument order is log entry 19, how a sink fails is log entry 13): the bytes
from the address on are appended to that sink, untracked, and the count is returned; a sink that does not accept them all makes
the step abort, and keeps those it accepted (60_exceptions.md R300, R308; log entry 14). -/
def Obligations.OutputWriteResults : Prop :=
  ∀ s : State, readReg s 2#5 = 4004 →
    let bytes := rangeRead s (readReg s 5#5) (readReg s 6#5).toNat
    let accepts := fun k : Sink => ∀ r, k.room = some r → bytes.length ≤ r
    (readReg s 4#5 = 1 → accepts s.ports.stdout →
      ∃ t, exec .syscall s = .next t ∧ Returns s t (readReg s 6#5) 0 ∧ SameMemory s t ∧
        t.ports.stdout = ⟨s.ports.stdout.bytes ++ bytes, s.ports.stdout.room.map (· - bytes.length)⟩ ∧
        t = { s with
          regs := t.regs, pc := t.pc, nextPc := t.nextPc, ports := { s.ports with stdout := t.ports.stdout } }) ∧
    (readReg s 4#5 = 1 → ∀ r, s.ports.stdout.room = some r → r < bytes.length →
      exec .syscall s = .fault (.sinkFailure { s.ports with
        stdout := ⟨s.ports.stdout.bytes ++ bytes.take r, some 0⟩ })) ∧
    (readReg s 4#5 = 2 → accepts s.ports.stderr →
      ∃ t, exec .syscall s = .next t ∧ Returns s t (readReg s 6#5) 0 ∧ SameMemory s t ∧
        t.ports.stderr = ⟨s.ports.stderr.bytes ++ bytes, s.ports.stderr.room.map (· - bytes.length)⟩ ∧
        t = { s with
          regs := t.regs, pc := t.pc, nextPc := t.nextPc, ports := { s.ports with stderr := t.ports.stderr } }) ∧
    (readReg s 4#5 = 2 → ∀ r, s.ports.stderr.room = some r → r < bytes.length →
      exec .syscall s = .fault (.sinkFailure { s.ports with
        stderr := ⟨s.ports.stderr.bytes ++ bytes.take r, some 0⟩ }))

/-! ### The preimage and hint engine -/

/-- Hint extraction (46_preimage.md R287): the buffer with the new bytes is a run of complete records, whose payloads go to the
oracle in order without their prefix, and an incomplete rest, which stays. -/
def Obligations.HintRecordsAreForwardedInOrder : Prop :=
  ∀ (s : State) (bytes : List Byte),
    (s.ports.hintRoom = none → ∃ t, writeHint bytes s = .next t) ∧
    ∀ t, writeHint bytes s = .next t →
      ∃ payloads,
        s.lastHint ++ bytes =
          (payloads.map fun p => wordBytes (BitVec.ofNat 32 p.length) ++ p).flatten ++ t.lastHint ∧
        (∀ p ∈ payloads, p.length < 2 ^ 32) ∧
        (t.lastHint.length < 4 ∨ t.lastHint.length - 4 < (wordOfBytes t.lastHint).toNat) ∧
        t.ports.hints = s.ports.hints ++ payloads ∧
        t = { s with
          lastHint := t.lastHint
          ports := { s.ports with hints := t.ports.hints, hintRoom := t.ports.hintRoom } }

/-- Splitting the same hint bytes differently across writes gives the same transactions and the same buffer (46_preimage.md
R288), or the same abort, with the same payloads sent before it, of a channel that does not take them all (log entries 13 and 14). -/
def Obligations.HintSplitDoesNotMatter : Prop :=
  ∀ (s : State) (a b : List Byte), andThen (writeHint a s) (writeHint b) = writeHint (a ++ b) s

/-- A write to fd 4 (45_syscall.md R264, 46_preimage.md R286; the result and the argument order are log entry 19): the bytes of
memory go through the hint buffer, and the count is returned. -/
def Obligations.HintWriteResult : Prop :=
  ∀ s u : State, readReg s 2#5 = 4004 → readReg s 4#5 = 4 →
    writeHint (rangeRead s (readReg s 5#5) (readReg s 6#5).toNat) s = .next u →
    ∃ t, exec .syscall s = .next t ∧ Returns s t (readReg s 6#5) 0 ∧ SameMemory s t ∧
      t = { s with regs := t.regs, pc := t.pc, nextPc := t.nextPc, lastHint := u.lastHint, ports := u.ports }

/-- A read from fd 5 of a key the oracle knows (46_preimage.md R281, R282; the result and the argument order are log entry 19):
as many bytes of the prefixed blob from the offset on as fit the word, the count and the buffer go to memory from the address on,
the offset advances by as many, and the oracle is asked only if the cache does not hold the key (the oracle is log entry 12, the
tracked access log entry 26). -/
def Obligations.PreimageReadResult : Prop :=
  ∀ (s : State) (blob : List Byte), let a1 := readReg s 5#5; let a2 := readReg s 6#5
    let buffer := wordBytes (BitVec.ofNat 32 blob.length) ++ blob
    let dat := (buffer.drop s.preimageOffset.toNat).take (min (4 - a1.toNat % 4) a2.toNat)
    readReg s 2#5 = 4003 → readReg s 4#5 = 5 → Memory.wf s.mem = true → Trackable s (alignDown a1) →
    KnownPreimage s s.preimageKey blob → (s.lastPreimageKey = some s.preimageKey → s.lastPreimage = buffer) →
    ∃ t, exec .syscall s = .next t ∧ Returns s t (BitVec.ofNat 32 dat.length) 0 ∧
      rangeRead t a1 dat.length = dat ∧
      SameMemoryOutside s t (fun a => a1.toNat ≤ a.toNat ∧ a.toNat < a1.toNat + dat.length) ∧
      t.preimageOffset = s.preimageOffset + BitVec.ofNat 32 dat.length ∧
      t.lastPreimageKey = some s.preimageKey ∧ t.lastPreimage = buffer ∧ t.lastPreimageOffset = s.preimageOffset ∧
      t.ports.preimageKeys =
        (if s.lastPreimageKey = some s.preimageKey then s.ports.preimageKeys
         else s.ports.preimageKeys ++ [s.preimageKey]) ∧
      Tracked s t (alignDown a1) ∧
      t = { s with
        regs := t.regs, pc := t.pc, nextPc := t.nextPc, mem := t.mem, lastMemAccess := t.lastMemAccess,
        proofCache := t.proofCache, preimageOffset := t.preimageOffset, lastPreimageKey := t.lastPreimageKey,
        lastPreimage := t.lastPreimage, lastPreimageOffset := t.lastPreimageOffset,
        ports := { s.ports with preimageKeys := t.ports.preimageKeys } }

/-- Preimage read bounding (46_preimage.md R283): with a buffer of `L` bytes, a read at offset `L - 1` delivers exactly one byte
however many are asked for, and a read at or past `L` none. -/
def Obligations.PreimageReadIsBounded : Prop :=
  ∀ (s : State) (addr count : Word), 0 < s.lastPreimage.length →
    (s.preimageOffset.toNat = s.lastPreimage.length - 1 → count ≠ 0 → (deliverPreimage addr count s).2 = 1) ∧
    (s.lastPreimage.length ≤ s.preimageOffset.toNat → (deliverPreimage addr count s).2 = 0)

/-- A write to fd 6 (46_preimage.md R284; the bound by the count, the result and the argument order are log entry 19, the tracked
access log entry 26): the bytes of
memory from the address on, up to the end of its word, become the last bytes of the key, the offset goes back to 0, memory and the
preimage cache are untouched. After 32 accepted bytes, in however many writes, the key holds exactly those bytes in order, whatever
it held before (R285). -/
def Obligations.KeyWriteResult : Prop :=
  (∀ s : State, let a1 := readReg s 5#5; let n := min (4 - a1.toNat % 4) (readReg s 6#5).toNat
    readReg s 2#5 = 4004 → readReg s 4#5 = 6 → Trackable s (alignDown a1) →
    ∃ t, exec .syscall s = .next t ∧ Returns s t (BitVec.ofNat 32 n) 0 ∧
      t.preimageKey.toList = s.preimageKey.toList.drop n ++ rangeRead s a1 n ∧ t.preimageOffset = 0 ∧
      SameMemory s t ∧ Tracked s t (alignDown a1) ∧
      t = { s with
        regs := t.regs, pc := t.pc, nextPc := t.nextPc, lastMemAccess := t.lastMemAccess, proofCache := t.proofCache,
        preimageKey := t.preimageKey, preimageOffset := t.preimageOffset }) ∧
  ∀ (s : State) (writes : List (Word × Word)),
    let bytes := (writes.map fun w => rangeRead s w.1 (min (4 - w.1.toNat % 4) w.2.toNat)).flatten
    bytes.length = 32 →
    (writes.foldl (fun u w => (acceptKeyBytes w.1 w.2 u).1) s).preimageKey.toList = bytes

/-- When the engine's ports stop a step (60_exceptions.md R307, R308; log entries 12 and 13), and what the ports then show, since
a transaction of an aborted step is not retracted (R300; log entry 14). A read from fd 5 whose key the cache does not hold, and
which the oracle fails on, answers with 2^32 - 4 bytes or more, or never answers: the oracle has been asked for the key. A write to
fd 4 with more complete records than the hint channel takes: the payloads it takes have been sent. -/
def Obligations.PortFailuresAbort : Prop :=
  ∀ s : State,
    (readReg s 2#5 = 4003 → readReg s 4#5 = 5 → Trackable s (alignDown (readReg s 5#5)) →
      s.lastPreimageKey ≠ some s.preimageKey →
      let asked : Ports := { s.ports with preimageKeys := s.ports.preimageKeys ++ [s.preimageKey] }
      (oracleReply s.ports.oracle s.preimageKey = .fail → exec .syscall s = .fault (.oracleFailure asked)) ∧
      (∀ blob, oracleReply s.ports.oracle s.preimageKey = .blob blob → 2 ^ 32 - 4 ≤ blob.length →
        exec .syscall s = .fault (.oracleFailure asked)) ∧
      (oracleReply s.ports.oracle s.preimageKey = .block → exec .syscall s = .fault (.oracleBlocked asked))) ∧
    (readReg s 2#5 = 4004 → readReg s 4#5 = 4 →
      ∀ (payloads : List (List Byte)) (rest : List Byte) (r : Nat),
        s.lastHint ++ rangeRead s (readReg s 5#5) (readReg s 6#5).toNat =
          (payloads.map fun p => wordBytes (BitVec.ofNat 32 p.length) ++ p).flatten ++ rest →
        (∀ p ∈ payloads, p.length < 2 ^ 32) → completeRecord rest = false →
        s.ports.hintRoom = some r → r < payloads.length →
        exec .syscall s = .fault (.sinkFailure { s.ports with
          hints := s.ports.hints ++ payloads.take r, hintRoom := some 0 }))

/-- Nothing a port has done is retracted (60_exceptions.md R300, 46_preimage.md R289; log entries 12 to 14): at the end of every run,
completed, exited, aborted or stuck, each port's sequence starts with what it was before. The last step of an aborted run (R323) is
the one that raised the cause, from the state the outcome names, which was running; the ports of the outcome are those of that
state with what the step added, and a step that runs no system call added nothing. -/
def Obligations.PortTransactionsAreNotRetracted : Prop :=
  ∀ (n : Nat) (s : State),
    s.ports.Extends (runFor n s).ports ∧
    ∀ f before ports, (runFor n s = .aborted f before ports ∨
        (f = .oracleBlocked ports ∧ runFor n s = .stuck before ports)) →
      step before = .fault f ∧ before.exited = false ∧ ports = f.portsAfter before.ports ∧
      s.ports.Extends before.ports ∧ before.ports.Extends ports ∧
      (decode (memRead before before.pc) ≠ .ok .syscall → ports = before.ports)
end

