-- ==== Sys2Proof/Laws/Encoding.lean ====
section
/-! SUPPORT. The fields of the three instruction formats: every field of an encoded word is the value that was put in. -/

namespace Sys2Proof

section R
variable (op : BitVec 6) (rs rt rd : Reg) (sh : BitVec 5) (fn : BitVec 6)

theorem getLsbD_encodeR (j : Nat) : (encodeR op rs rt rd sh fn).getLsbD j =
    if j < 6 then fn.getLsbD j
    else if j - 6 < 5 then sh.getLsbD (j - 6)
    else if j - 6 - 5 < 5 then rd.getLsbD (j - 6 - 5)
    else if j - 6 - 5 - 5 < 5 then rt.getLsbD (j - 6 - 5 - 5)
    else if j - 6 - 5 - 5 - 5 < 5 then rs.getLsbD (j - 6 - 5 - 5 - 5)
    else op.getLsbD (j - 6 - 5 - 5 - 5 - 5) := by
  unfold encodeR
  rw [← BitVec.getLsbD_append, ← BitVec.getLsbD_append, ← BitVec.getLsbD_append, ← BitVec.getLsbD_append,
    ← BitVec.getLsbD_append]

@[simp] theorem opcodeField_encodeR : opcodeField (encodeR op rs rt rd sh fn) = op := by
  refine BitVec.eq_of_getLsbD_eq fun i hi => ?_
  rw [opcodeField, BitVec.getLsbD_extractLsb', getLsbD_encodeR, if_neg (by omega), if_neg (by omega), if_neg (by omega),
    if_neg (by omega), if_neg (by omega), decide_eq_true hi, Bool.true_and]
  congr 1
  omega

@[simp] theorem rsField_encodeR : rsField (encodeR op rs rt rd sh fn) = rs := by
  refine BitVec.eq_of_getLsbD_eq fun i hi => ?_
  rw [rsField, BitVec.getLsbD_extractLsb', getLsbD_encodeR, if_neg (by omega), if_neg (by omega), if_neg (by omega),
    if_neg (by omega), if_pos (by omega), decide_eq_true hi, Bool.true_and]
  congr 1
  omega

@[simp] theorem rtField_encodeR : rtField (encodeR op rs rt rd sh fn) = rt := by
  refine BitVec.eq_of_getLsbD_eq fun i hi => ?_
  rw [rtField, BitVec.getLsbD_extractLsb', getLsbD_encodeR, if_neg (by omega), if_neg (by omega), if_neg (by omega),
    if_pos (by omega), decide_eq_true hi, Bool.true_and]
  congr 1
  omega

@[simp] theorem rdField_encodeR : rdField (encodeR op rs rt rd sh fn) = rd := by
  refine BitVec.eq_of_getLsbD_eq fun i hi => ?_
  rw [rdField, BitVec.getLsbD_extractLsb', getLsbD_encodeR, if_neg (by omega), if_neg (by omega), if_pos (by omega),
    decide_eq_true hi, Bool.true_and]
  congr 1
  omega

@[simp] theorem shamtField_encodeR : shamtField (encodeR op rs rt rd sh fn) = sh := by
  refine BitVec.eq_of_getLsbD_eq fun i hi => ?_
  rw [shamtField, BitVec.getLsbD_extractLsb', getLsbD_encodeR, if_neg (by omega), if_pos (by omega),
    decide_eq_true hi, Bool.true_and]
  congr 1
  omega

@[simp] theorem functField_encodeR : functField (encodeR op rs rt rd sh fn) = fn := by
  refine BitVec.eq_of_getLsbD_eq fun i hi => ?_
  rw [functField, BitVec.getLsbD_extractLsb', getLsbD_encodeR, if_pos (by omega), decide_eq_true hi, Bool.true_and]
  congr 1
  omega

end R

section I
variable (op : BitVec 6) (rs rt : Reg) (imm : BitVec 16)

theorem getLsbD_encodeI (j : Nat) : (encodeI op rs rt imm).getLsbD j =
    if j < 16 then imm.getLsbD j
    else if j - 16 < 5 then rt.getLsbD (j - 16)
    else if j - 16 - 5 < 5 then rs.getLsbD (j - 16 - 5)
    else op.getLsbD (j - 16 - 5 - 5) := by
  unfold encodeI
  rw [← BitVec.getLsbD_append, ← BitVec.getLsbD_append, ← BitVec.getLsbD_append]

@[simp] theorem opcodeField_encodeI : opcodeField (encodeI op rs rt imm) = op := by
  refine BitVec.eq_of_getLsbD_eq fun i hi => ?_
  rw [opcodeField, BitVec.getLsbD_extractLsb', getLsbD_encodeI, if_neg (by omega), if_neg (by omega), if_neg (by omega),
    decide_eq_true hi, Bool.true_and]
  congr 1
  omega

@[simp] theorem rsField_encodeI : rsField (encodeI op rs rt imm) = rs := by
  refine BitVec.eq_of_getLsbD_eq fun i hi => ?_
  rw [rsField, BitVec.getLsbD_extractLsb', getLsbD_encodeI, if_neg (by omega), if_neg (by omega), if_pos (by omega),
    decide_eq_true hi, Bool.true_and]
  congr 1
  omega

@[simp] theorem rtField_encodeI : rtField (encodeI op rs rt imm) = rt := by
  refine BitVec.eq_of_getLsbD_eq fun i hi => ?_
  rw [rtField, BitVec.getLsbD_extractLsb', getLsbD_encodeI, if_neg (by omega), if_pos (by omega),
    decide_eq_true hi, Bool.true_and]
  congr 1
  omega

@[simp] theorem imm16Field_encodeI : imm16Field (encodeI op rs rt imm) = imm := by
  refine BitVec.eq_of_getLsbD_eq fun i hi => ?_
  rw [imm16Field, BitVec.getLsbD_extractLsb', getLsbD_encodeI, if_pos (by omega), decide_eq_true hi, Bool.true_and]
  congr 1
  omega

end I

section J
variable (op : BitVec 6) (index : BitVec 26)

theorem getLsbD_encodeJ (j : Nat) : (encodeJ op index).getLsbD j =
    if j < 26 then index.getLsbD j else op.getLsbD (j - 26) := by
  unfold encodeJ
  rw [← BitVec.getLsbD_append]

@[simp] theorem opcodeField_encodeJ : opcodeField (encodeJ op index) = op := by
  refine BitVec.eq_of_getLsbD_eq fun i hi => ?_
  rw [opcodeField, BitVec.getLsbD_extractLsb', getLsbD_encodeJ, if_neg (by omega), decide_eq_true hi, Bool.true_and]
  congr 1
  omega

@[simp] theorem indexField_encodeJ : indexField (encodeJ op index) = index := by
  refine BitVec.eq_of_getLsbD_eq fun i hi => ?_
  rw [indexField, BitVec.getLsbD_extractLsb', getLsbD_encodeJ, if_pos (by omega), decide_eq_true hi, Bool.true_and]
  congr 1
  omega

end J

/-! ### The selecting bits of a word, by its fields -/

/-- A row of an I- or J-format opcode selects by the primary opcode alone. -/
theorem and_opcode_mask (w : Word) : w &&& 0xFC000000 = encodeI (opcodeField w) 0 0 0 := by
  refine BitVec.eq_of_getLsbD_eq fun i hi => ?_
  rw [getLsbD_encodeI, BitVec.getLsbD_and]
  interval_cases i <;> simp [opcodeField]

/-- A row of SPECIAL and SPECIAL2 selects by the primary opcode and the function code. -/
theorem and_funct_mask (w : Word) : w &&& 0xFC00003F = encodeR (opcodeField w) 0 0 0 0 (functField w) := by
  refine BitVec.eq_of_getLsbD_eq fun i hi => ?_
  rw [getLsbD_encodeR, BitVec.getLsbD_and]
  interval_cases i <;> simp [opcodeField, functField]

/-- A row of REGIMM selects by the primary opcode and `insn[20:16]`. -/
theorem and_regimm_mask (w : Word) : w &&& 0xFC1F0000 = encodeI (opcodeField w) 0 (rtField w) 0 := by
  refine BitVec.eq_of_getLsbD_eq fun i hi => ?_
  rw [getLsbD_encodeI, BitVec.getLsbD_and]
  interval_cases i <;> simp [opcodeField, rtField]

theorem encodeI_matches {op : BitVec 6} {rs rt : Reg} {imm : BitVec 16} {p : Word} (h : encodeI op 0 0 0 = p) :
    encodeI op rs rt imm &&& 0xFC000000 = p := by
  rw [and_opcode_mask, opcodeField_encodeI, h]

theorem encodeJ_matches {op : BitVec 6} {index : BitVec 26} {p : Word} (h : encodeI op 0 0 0 = p) :
    encodeJ op index &&& 0xFC000000 = p := by
  rw [and_opcode_mask, opcodeField_encodeJ, h]

theorem encodeR_matches {op : BitVec 6} {rs rt rd : Reg} {sh : BitVec 5} {fn : BitVec 6} {p : Word}
    (h : encodeR op 0 0 0 0 fn = p) : encodeR op rs rt rd sh fn &&& 0xFC00003F = p := by
  rw [and_funct_mask, opcodeField_encodeR, functField_encodeR, h]

theorem encodeI_matches_regimm {op : BitVec 6} {rs rt : Reg} {imm : BitVec 16} {p : Word} (h : encodeI op 0 rt 0 = p) :
    encodeI op rs rt imm &&& 0xFC1F0000 = p := by
  rw [and_regimm_mask, opcodeField_encodeI, rtField_encodeI, h]

end Sys2Proof
end

