-- ==== Sys2Proof/Laws/State.lean ====
section
/-! SUPPORT. What each shared update of the state leaves in each field, one lemma a field, and what a register reads after each
of them, so that no later proof unfolds a record update. -/

namespace Sys2Proof.Machine

/-! ### `writeReg`: one general register -/

@[simp] theorem writeReg_pc (s : State) (r : Reg) (v : Word) : (writeReg s r v).pc = s.pc := by
  unfold writeReg; split <;> rfl
@[simp] theorem writeReg_nextPc (s : State) (r : Reg) (v : Word) : (writeReg s r v).nextPc = s.nextPc := by
  unfold writeReg; split <;> rfl
@[simp] theorem writeReg_hi (s : State) (r : Reg) (v : Word) : (writeReg s r v).hi = s.hi := by
  unfold writeReg; split <;> rfl
@[simp] theorem writeReg_lo (s : State) (r : Reg) (v : Word) : (writeReg s r v).lo = s.lo := by
  unfold writeReg; split <;> rfl
@[simp] theorem writeReg_heap (s : State) (r : Reg) (v : Word) : (writeReg s r v).heap = s.heap := by
  unfold writeReg; split <;> rfl
@[simp] theorem writeReg_stepCount (s : State) (r : Reg) (v : Word) : (writeReg s r v).stepCount = s.stepCount := by
  unfold writeReg; split <;> rfl
@[simp] theorem writeReg_exited (s : State) (r : Reg) (v : Word) : (writeReg s r v).exited = s.exited := by
  unfold writeReg; split <;> rfl
@[simp] theorem writeReg_exitCode (s : State) (r : Reg) (v : Word) : (writeReg s r v).exitCode = s.exitCode := by
  unfold writeReg; split <;> rfl
@[simp] theorem writeReg_preimageKey (s : State) (r : Reg) (v : Word) : (writeReg s r v).preimageKey = s.preimageKey := by
  unfold writeReg; split <;> rfl
@[simp] theorem writeReg_preimageOffset (s : State) (r : Reg) (v : Word) : (writeReg s r v).preimageOffset = s.preimageOffset := by
  unfold writeReg; split <;> rfl
@[simp] theorem writeReg_lastHint (s : State) (r : Reg) (v : Word) : (writeReg s r v).lastHint = s.lastHint := by
  unfold writeReg; split <;> rfl
@[simp] theorem writeReg_mem (s : State) (r : Reg) (v : Word) : (writeReg s r v).mem = s.mem := by
  unfold writeReg; split <;> rfl
@[simp] theorem writeReg_lastMemAccess (s : State) (r : Reg) (v : Word) : (writeReg s r v).lastMemAccess = s.lastMemAccess := by
  unfold writeReg; split <;> rfl
@[simp] theorem writeReg_proofCache (s : State) (r : Reg) (v : Word) : (writeReg s r v).proofCache = s.proofCache := by
  unfold writeReg; split <;> rfl
@[simp] theorem writeReg_lastPreimageKey (s : State) (r : Reg) (v : Word) : (writeReg s r v).lastPreimageKey = s.lastPreimageKey := by
  unfold writeReg; split <;> rfl
@[simp] theorem writeReg_lastPreimage (s : State) (r : Reg) (v : Word) : (writeReg s r v).lastPreimage = s.lastPreimage := by
  unfold writeReg; split <;> rfl
@[simp] theorem writeReg_lastPreimageOffset (s : State) (r : Reg) (v : Word) : (writeReg s r v).lastPreimageOffset = s.lastPreimageOffset := by
  unfold writeReg; split <;> rfl
@[simp] theorem writeReg_ports (s : State) (r : Reg) (v : Word) : (writeReg s r v).ports = s.ports := by
  unfold writeReg; split <;> rfl
@[simp] theorem writeReg_cfg (s : State) (r : Reg) (v : Word) : (writeReg s r v).cfg = s.cfg := by
  unfold writeReg; split <;> rfl

/-! ### `advance`: the program-counter pair -/

@[simp] theorem advance_regs (s : State) : (advance s).regs = s.regs := rfl
@[simp] theorem advance_pc (s : State) : (advance s).pc = s.nextPc := rfl
@[simp] theorem advance_nextPc (s : State) : (advance s).nextPc = s.nextPc + 4 := rfl
@[simp] theorem advance_hi (s : State) : (advance s).hi = s.hi := rfl
@[simp] theorem advance_lo (s : State) : (advance s).lo = s.lo := rfl
@[simp] theorem advance_heap (s : State) : (advance s).heap = s.heap := rfl
@[simp] theorem advance_stepCount (s : State) : (advance s).stepCount = s.stepCount := rfl
@[simp] theorem advance_exited (s : State) : (advance s).exited = s.exited := rfl
@[simp] theorem advance_exitCode (s : State) : (advance s).exitCode = s.exitCode := rfl
@[simp] theorem advance_preimageKey (s : State) : (advance s).preimageKey = s.preimageKey := rfl
@[simp] theorem advance_preimageOffset (s : State) : (advance s).preimageOffset = s.preimageOffset := rfl
@[simp] theorem advance_lastHint (s : State) : (advance s).lastHint = s.lastHint := rfl
@[simp] theorem advance_mem (s : State) : (advance s).mem = s.mem := rfl
@[simp] theorem advance_lastMemAccess (s : State) : (advance s).lastMemAccess = s.lastMemAccess := rfl
@[simp] theorem advance_proofCache (s : State) : (advance s).proofCache = s.proofCache := rfl
@[simp] theorem advance_lastPreimageKey (s : State) : (advance s).lastPreimageKey = s.lastPreimageKey := rfl
@[simp] theorem advance_lastPreimage (s : State) : (advance s).lastPreimage = s.lastPreimage := rfl
@[simp] theorem advance_lastPreimageOffset (s : State) : (advance s).lastPreimageOffset = s.lastPreimageOffset := rfl
@[simp] theorem advance_ports (s : State) : (advance s).ports = s.ports := rfl
@[simp] theorem advance_cfg (s : State) : (advance s).cfg = s.cfg := rfl

/-! ### `memWrite`: memory -/

@[simp] theorem memWrite_regs (s : State) (a v : Word) : (memWrite s a v).regs = s.regs := rfl
@[simp] theorem memWrite_pc (s : State) (a v : Word) : (memWrite s a v).pc = s.pc := rfl
@[simp] theorem memWrite_nextPc (s : State) (a v : Word) : (memWrite s a v).nextPc = s.nextPc := rfl
@[simp] theorem memWrite_hi (s : State) (a v : Word) : (memWrite s a v).hi = s.hi := rfl
@[simp] theorem memWrite_lo (s : State) (a v : Word) : (memWrite s a v).lo = s.lo := rfl
@[simp] theorem memWrite_heap (s : State) (a v : Word) : (memWrite s a v).heap = s.heap := rfl
@[simp] theorem memWrite_stepCount (s : State) (a v : Word) : (memWrite s a v).stepCount = s.stepCount := rfl
@[simp] theorem memWrite_exited (s : State) (a v : Word) : (memWrite s a v).exited = s.exited := rfl
@[simp] theorem memWrite_exitCode (s : State) (a v : Word) : (memWrite s a v).exitCode = s.exitCode := rfl
@[simp] theorem memWrite_preimageKey (s : State) (a v : Word) : (memWrite s a v).preimageKey = s.preimageKey := rfl
@[simp] theorem memWrite_preimageOffset (s : State) (a v : Word) : (memWrite s a v).preimageOffset = s.preimageOffset := rfl
@[simp] theorem memWrite_lastHint (s : State) (a v : Word) : (memWrite s a v).lastHint = s.lastHint := rfl
@[simp] theorem memWrite_mem (s : State) (a v : Word) : (memWrite s a v).mem = Memory.writeWord s.mem a v := rfl
@[simp] theorem memWrite_lastMemAccess (s : State) (a v : Word) : (memWrite s a v).lastMemAccess = s.lastMemAccess := rfl
@[simp] theorem memWrite_proofCache (s : State) (a v : Word) : (memWrite s a v).proofCache = s.proofCache := rfl
@[simp] theorem memWrite_lastPreimageKey (s : State) (a v : Word) : (memWrite s a v).lastPreimageKey = s.lastPreimageKey := rfl
@[simp] theorem memWrite_lastPreimage (s : State) (a v : Word) : (memWrite s a v).lastPreimage = s.lastPreimage := rfl
@[simp] theorem memWrite_lastPreimageOffset (s : State) (a v : Word) : (memWrite s a v).lastPreimageOffset = s.lastPreimageOffset := rfl
@[simp] theorem memWrite_ports (s : State) (a v : Word) : (memWrite s a v).ports = s.ports := rfl
@[simp] theorem memWrite_cfg (s : State) (a v : Word) : (memWrite s a v).cfg = s.cfg := rfl

/-! ### `beginStep`: the bookkeeping of part 0 -/

@[simp] theorem beginStep_regs (s : State) : (beginStep s).regs = s.regs := rfl
@[simp] theorem beginStep_pc (s : State) : (beginStep s).pc = s.pc := rfl
@[simp] theorem beginStep_nextPc (s : State) : (beginStep s).nextPc = s.nextPc := rfl
@[simp] theorem beginStep_hi (s : State) : (beginStep s).hi = s.hi := rfl
@[simp] theorem beginStep_lo (s : State) : (beginStep s).lo = s.lo := rfl
@[simp] theorem beginStep_heap (s : State) : (beginStep s).heap = s.heap := rfl
@[simp] theorem beginStep_stepCount (s : State) : (beginStep s).stepCount = countStep s := rfl
@[simp] theorem beginStep_exited (s : State) : (beginStep s).exited = s.exited := rfl
@[simp] theorem beginStep_exitCode (s : State) : (beginStep s).exitCode = s.exitCode := rfl
@[simp] theorem beginStep_preimageKey (s : State) : (beginStep s).preimageKey = s.preimageKey := rfl
@[simp] theorem beginStep_preimageOffset (s : State) : (beginStep s).preimageOffset = s.preimageOffset := rfl
@[simp] theorem beginStep_lastHint (s : State) : (beginStep s).lastHint = s.lastHint := rfl
@[simp] theorem beginStep_mem (s : State) : (beginStep s).mem = s.mem := rfl
@[simp] theorem beginStep_lastMemAccess (s : State) : (beginStep s).lastMemAccess = none := rfl
@[simp] theorem beginStep_proofCache (s : State) : (beginStep s).proofCache = s.proofCache := rfl
@[simp] theorem beginStep_lastPreimageKey (s : State) : (beginStep s).lastPreimageKey = s.lastPreimageKey := rfl
@[simp] theorem beginStep_lastPreimage (s : State) : (beginStep s).lastPreimage = s.lastPreimage := rfl
@[simp] theorem beginStep_lastPreimageOffset (s : State) : (beginStep s).lastPreimageOffset = s.lastPreimageOffset := rfl
@[simp] theorem beginStep_ports (s : State) : (beginStep s).ports = s.ports := rfl
@[simp] theorem beginStep_cfg (s : State) : (beginStep s).cfg = s.cfg := rfl

/-! ### Reading registers and memory through the updates -/

@[simp] theorem readReg_zero (s : State) : readReg s 0#5 = 0#32 := rfl

@[simp] theorem writeReg_zero (s : State) (v : Word) : writeReg s 0#5 v = s := rfl

theorem readReg_of_ne (s : State) {q : Reg} (h : q ≠ 0#5) : readReg s q = s.regs[q.toNat]'q.isLt := if_neg h

theorem writeReg_of_ne (s : State) {r : Reg} (v : Word) (h : r ≠ 0#5) :
    writeReg s r v = { s with regs := s.regs.set r.toNat v r.isLt } := if_neg h

/-- The register file: what a register reads after a write. -/
theorem readReg_writeReg (s : State) (r q : Reg) (v : Word) :
    readReg (writeReg s r v) q = if q = 0#5 then 0#32 else if q = r then v else readReg s q := by
  by_cases hq : q = 0#5
  · subst hq
    rfl
  · rw [if_neg hq, readReg_of_ne _ hq, readReg_of_ne _ hq]
    by_cases hr : r = 0#5
    · subst hr
      rw [if_neg hq]
      rfl
    · have e : r.toNat = q.toNat ↔ q = r := by rw [eq_comm (a := q), BitVec.toNat_inj]
      simp only [writeReg_of_ne s v hr, Vector.getElem_set, e]

theorem readReg_writeReg_same (s : State) (r : Reg) (v : Word) :
    readReg (writeReg s r v) r = if r = 0#5 then 0#32 else v := by
  simp [readReg_writeReg]

theorem readReg_writeReg_of_ne (s : State) {r q : Reg} (v : Word) (h : q ≠ r) :
    readReg (writeReg s r v) q = readReg s q := by
  rw [readReg_writeReg, if_neg h]
  split
  · next e => rw [e, readReg_zero]
  · rfl

/-- Entry 0 of the register file is never written. -/
@[simp] theorem writeReg_regs_zero (s : State) (r : Reg) (v : Word) : (writeReg s r v).regs[0] = s.regs[0] := by
  by_cases h : r = 0#5
  · subst h
    rfl
  · have e : r.toNat ≠ 0 := fun e => h (BitVec.eq_of_toNat_eq e)
    rw [writeReg_of_ne s v h, Vector.getElem_set_ne _ _ e]

/-- A register read depends on the register file alone. -/
theorem readReg_congr {s t : State} (h : t.regs = s.regs) (q : Reg) : readReg t q = readReg s q := by
  simp [readReg, h]

@[simp] theorem readReg_advance (s : State) (q : Reg) : readReg (advance s) q = readReg s q := rfl
@[simp] theorem readReg_memWrite (s : State) (a v : Word) (q : Reg) : readReg (memWrite s a v) q = readReg s q := rfl
@[simp] theorem readReg_beginStep (s : State) (q : Reg) : readReg (beginStep s) q = readReg s q := rfl

/-- A memory read depends on memory alone. -/
theorem memByte_congr {s t : State} (h : t.mem = s.mem) (a : Word) : memByte t a = memByte s a := by
  simp [memByte, memRead, h]

theorem memRead_congr {s t : State} (h : t.mem = s.mem) (a : Word) : memRead t a = memRead s a := by
  simp [memRead, h]

@[simp] theorem memRead_advance (s : State) (a : Word) : memRead (advance s) a = memRead s a := rfl
@[simp] theorem memRead_beginStep (s : State) (a : Word) : memRead (beginStep s) a = memRead s a := rfl
@[simp] theorem memRead_writeReg (s : State) (r : Reg) (v a : Word) : memRead (writeReg s r v) a = memRead s a :=
  memRead_congr (writeReg_mem s r v) a

/-- The register file and the program-counter pair are all that a register write and an advance touch. -/
theorem writeReg_eq (s : State) (r : Reg) (v : Word) : writeReg s r v = { s with regs := (writeReg s r v).regs } := by
  unfold writeReg
  split <;> rfl

end Sys2Proof.Machine
end

