-- ==== Sys2Proof/Laws/Memory.lean ====
section
/-! SUPPORT. Memory: the canonical form is kept by every operation, a canonical memory is determined by what its bytes read as,
a read gives what the last write to the place gave, and the bytes of a word are its lanes. -/

namespace Sys2Proof.Machine

/-! ### One byte -/

theorem Memory.wfFrom_cons {l : Nat} {c : Host.Cell} {rest : Memory} : Memory.wfFrom l (c :: rest) = true ↔
    l ≤ c.1 ∧ c.1 < 2 ^ 32 ∧ c.2 ≠ unlistedByte ∧ Memory.wfFrom (c.1 + 1) rest = true := by
  simp only [Memory.wfFrom, Bool.and_eq_true, decide_eq_true_eq, and_assoc]

theorem Memory.wfFrom_mono {l l' : Nat} {m : Memory} (h : Memory.wfFrom l' m = true) (hl : l ≤ l') :
    Memory.wfFrom l m = true := by
  cases m with
  | nil => rfl
  | cons c rest =>
    rw [Memory.wfFrom_cons] at h ⊢
    exact ⟨by omega, h.2⟩

theorem Memory.readByte_of_lt {l : Nat} {m : Memory} (h : Memory.wfFrom l m = true) {a : Nat} (ha : a < l) :
    Memory.readByte m a = unlistedByte := by
  induction m generalizing l with
  | nil => rfl
  | cons c rest ih =>
    rw [Memory.wfFrom_cons] at h
    rw [Memory.readByte, if_neg (by omega)]
    exact ih h.2.2.2 (by omega)

theorem Memory.readByte_entry_append (a : Nat) (b : Byte) (m : Memory) (x : Nat)
    (h : Memory.readByte m a = unlistedByte) :
    Memory.readByte (Memory.entry a b ++ m) x = if x = a then b else Memory.readByte m x := by
  unfold Memory.entry
  by_cases hb : b = unlistedByte
  · rw [if_pos hb, List.nil_append]
    split
    · next e => rw [e, h, hb]
    · rfl
  · rw [if_neg hb]
    rfl

/-- What one byte reads after one byte is written. -/
theorem Memory.readByte_writeByte {l : Nat} {m : Memory} (h : Memory.wfFrom l m = true) (a x : Nat) (b : Byte) :
    Memory.readByte (Memory.writeByte m a b) x = if x = a then b else Memory.readByte m x := by
  induction m generalizing l with
  | nil =>
    have := Memory.readByte_entry_append a b [] x rfl
    rwa [List.append_nil] at this
  | cons c rest ih =>
    have hc := h
    rw [Memory.wfFrom_cons] at h
    rw [Memory.writeByte]
    split
    · next hlt =>
      refine Memory.readByte_entry_append a b _ x ?_
      exact Memory.readByte_of_lt (l := c.1) (Memory.wfFrom_cons.2 ⟨Nat.le_refl _, h.2⟩) hlt
    · split
      · next _ heq =>
        rw [Memory.readByte_entry_append a b rest x (Memory.readByte_of_lt h.2.2.2 (by omega)), Memory.readByte, ← heq]
        split <;> rfl
      · next h1 h2 =>
        rw [Memory.readByte, ih h.2.2.2, Memory.readByte]
        by_cases e : x = c.1
        · have : x ≠ a := by omega
          simp [e, Ne.symm h2]
        · simp [e]

/-- Writing one byte keeps the canonical form. -/
theorem Memory.wfFrom_writeByte {l : Nat} {m : Memory} (h : Memory.wfFrom l m = true) {a : Nat} (hl : l ≤ a)
    (ha : a < 2 ^ 32) (b : Byte) : Memory.wfFrom l (Memory.writeByte m a b) = true := by
  have entry : ∀ (k : Nat) (rest : Memory), k ≤ a → Memory.wfFrom (a + 1) rest = true →
      Memory.wfFrom k (Memory.entry a b ++ rest) = true := by
    intro k rest hk hrest
    unfold Memory.entry
    by_cases hb : b = unlistedByte
    · rw [if_pos hb]
      exact Memory.wfFrom_mono hrest (by omega)
    · rw [if_neg hb]
      exact Memory.wfFrom_cons.2 ⟨hk, ha, hb, hrest⟩
  induction m generalizing l with
  | nil => simpa [Memory.writeByte] using entry l [] hl rfl
  | cons c rest ih =>
    rw [Memory.wfFrom_cons] at h
    rw [Memory.writeByte]
    split
    · next hlt =>
      refine entry l _ hl ?_
      exact Memory.wfFrom_cons.2 ⟨hlt, h.2⟩
    · split
      · next _ heq => exact entry l rest hl (heq ▸ h.2.2.2)
      · next h1 h2 =>
        have : c.1 + 1 ≤ a := by omega
        exact Memory.wfFrom_cons.2 ⟨h.1, h.2.1, h.2.2.1, ih h.2.2.2 this⟩

/-- Canonical memories that read the same everywhere are the same data. -/
theorem Memory.eq_of_readByte {l : Nat} {m m' : Memory} (h : Memory.wfFrom l m = true) (h' : Memory.wfFrom l m' = true)
    (heq : ∀ a, Memory.readByte m a = Memory.readByte m' a) : m = m' := by
  induction m generalizing l m' with
  | nil =>
    cases m' with
    | nil => rfl
    | cons c rest =>
      have hc := heq c.1
      rw [Memory.wfFrom_cons] at h'
      rw [Memory.readByte, Memory.readByte, if_pos rfl] at hc
      exact absurd hc.symm h'.2.2.1
  | cons c rest ih =>
    have hw := h
    rw [Memory.wfFrom_cons] at h
    cases m' with
    | nil =>
      have hc := heq c.1
      rw [Memory.readByte, Memory.readByte, if_pos rfl] at hc
      exact absurd hc h.2.2.1
    | cons c' rest' =>
      have hw' := h'
      rw [Memory.wfFrom_cons] at h'
      have first : ∀ {d d' : Host.Cell} {r r' : Memory}, d.1 < d'.1 → d.2 ≠ unlistedByte →
          Memory.wfFrom (d'.1 + 1) r' = true →
          Memory.readByte (d :: r) d.1 ≠ Memory.readByte (d' :: r') d.1 := by
        intro d d' r r' hlt hd hr' e
        rw [Memory.readByte, if_pos rfl, Memory.readByte, if_neg (by omega),
          Memory.readByte_of_lt hr' (by omega)] at e
        exact hd e
      have hk : c.1 = c'.1 := by
        rcases Nat.lt_trichotomy c.1 c'.1 with hlt | he | hgt
        · exact absurd (heq c.1) (first hlt h.2.2.1 h'.2.2.2)
        · exact he
        · exact absurd (heq c'.1).symm (first hgt h'.2.2.1 h.2.2.2)
      have hv : c.2 = c'.2 := by
        have hc := heq c.1
        rwa [Memory.readByte, if_pos rfl, Memory.readByte, if_pos hk] at hc
      have hrest : rest = rest' := by
        refine ih h.2.2.2 (hk ▸ h'.2.2.2) fun a => ?_
        by_cases ha : a < c.1 + 1
        · rw [Memory.readByte_of_lt h.2.2.2 ha, Memory.readByte_of_lt h'.2.2.2 (hk ▸ ha)]
        · have hc := heq a
          rwa [Memory.readByte, if_neg (by omega), Memory.readByte, if_neg (by omega)] at hc
      rw [Prod.ext hk hv, hrest]

/-! ### One word -/

theorem Memory.wf_writeWord {m : Memory} (h : Memory.wf m = true) (addr v : Word) :
    Memory.wf (Memory.writeWord m addr v) = true := by
  have hb : ∀ a : Word, a.toNat < 2 ^ 32 := fun a => a.isLt
  unfold Memory.wf at *
  exact Memory.wfFrom_writeByte (Memory.wfFrom_writeByte (Memory.wfFrom_writeByte (Memory.wfFrom_writeByte h
    (Nat.zero_le _) (hb _) _) (Nat.zero_le _) (hb _) _) (Nat.zero_le _) (hb _) _) (Nat.zero_le _) (hb _) _

/-- What one byte reads after one word is written. -/
theorem Memory.readByte_writeWord {m : Memory} (h : Memory.wf m = true) (addr v : Word) (x : Nat) :
    Memory.readByte (Memory.writeWord m addr v) x =
      if x = (addr + 3).toNat then v.extractLsb' 0 8
      else if x = (addr + 2).toNat then v.extractLsb' 8 8
      else if x = (addr + 1).toNat then v.extractLsb' 16 8
      else if x = addr.toNat then v.extractLsb' 24 8
      else Memory.readByte m x := by
  have hb : ∀ a : Word, a.toNat < 2 ^ 32 := fun a => a.isLt
  unfold Memory.wf at h
  have h0 := Memory.wfFrom_writeByte h (Nat.zero_le _) (hb addr) (v.extractLsb' 24 8)
  have h1 := Memory.wfFrom_writeByte h0 (Nat.zero_le _) (hb (addr + 1)) (v.extractLsb' 16 8)
  have h2 := Memory.wfFrom_writeByte h1 (Nat.zero_le _) (hb (addr + 2)) (v.extractLsb' 8 8)
  simp only [Memory.writeWord, Memory.readByte_writeByte h2, Memory.readByte_writeByte h1,
    Memory.readByte_writeByte h0, Memory.readByte_writeByte h]

/-! ### Addresses and lanes -/

theorem byteOffset_eq (a : Word) : byteOffset a = a.toNat % 4 := by
  have := Nat.and_two_pow_sub_one_eq_mod a.toNat 2
  simpa [byteOffset] using this

theorem byteOffset_lt (a : Word) : byteOffset a < 4 := by
  rw [byteOffset_eq]
  omega

theorem halfOffset_eq (a : Word) : (a &&& 2).toNat = a.toNat % 4 / 2 * 2 := by
  have h : a &&& 2 = (a &&& 3) &&& 2 := by
    rw [BitVec.and_assoc]
    rfl
  have h4 : a.toNat % 4 < 4 := by omega
  have h3 : (a &&& 3).toNat = a.toNat % 4 := byteOffset_eq a
  rw [h, BitVec.toNat_and, h3]
  generalize a.toNat % 4 = k at h4
  interval_cases k <;> rfl

theorem alignDown_add_and (a : Word) : alignDown a + (a &&& 3) = a := by
  have key : ∀ i < 32, (a &&& 0xFFFFFFFC).getLsbD i = (decide (2 ≤ i) && a.getLsbD i) ∧
      (a &&& 3).getLsbD i = (decide (i < 2) && a.getLsbD i) := by
    intro i hi
    simp only [BitVec.getLsbD_and]
    interval_cases i <;> simp
  unfold alignDown
  rw [BitVec.add_eq_or_of_and_eq_zero]
  · refine BitVec.eq_of_getLsbD_eq fun i hi => ?_
    rw [BitVec.getLsbD_or, (key i hi).1, (key i hi).2]
    by_cases h : i < 2
    · simp [h, Nat.not_le.2 h]
    · simp [h, Nat.not_lt.1 h]
  · refine BitVec.eq_of_getLsbD_eq fun i hi => ?_
    rw [BitVec.getLsbD_and, (key i hi).1, (key i hi).2]
    by_cases h : i < 2
    · simp [Nat.not_le.2 h]
    · simp [h]

theorem alignDown_toNat (a : Word) : (alignDown a).toNat = a.toNat - a.toNat % 4 := by
  have h : alignDown a = a - (a &&& 3) := by
    rw [eq_comm, BitVec.sub_eq_iff_eq_add, alignDown_add_and]
  have h3 : (a &&& 3).toNat = a.toNat % 4 := byteOffset_eq a
  rw [h, BitVec.toNat_sub, h3]
  have := a.isLt
  omega

theorem alignDown_eq_iff (a b : Word) : alignDown a = alignDown b ↔ a.toNat / 4 = b.toNat / 4 := by
  rw [← BitVec.toNat_inj, alignDown_toNat, alignDown_toNat]
  omega

@[simp] theorem alignDown_alignDown (a : Word) : alignDown (alignDown a) = alignDown a := by
  rw [alignDown_eq_iff, alignDown_toNat]
  omega

/-- An aligned address is its own word's. -/
theorem alignDown_of_and_eq_zero {a : Word} (h : a &&& 3 = 0) : alignDown a = a := by
  have h0 := alignDown_add_and a
  rw [h] at h0
  simpa using h0

theorem and_three_eq_zero_iff (a : Word) : a &&& 3 = 0 ↔ a.toNat % 4 = 0 := by
  rw [← BitVec.toNat_inj]
  exact Eq.congr_left (byteOffset_eq a)

theorem toNat_aligned_add {a : Word} (h : a.toNat % 4 = 0) {k : Nat} (hk : k < 4) :
    (a + BitVec.ofNat 32 k).toNat = a.toNat + k := by
  have := a.isLt
  rw [BitVec.toNat_add, BitVec.toNat_ofNat]
  omega

theorem alignDown_mod (a : Word) : (alignDown a).toNat % 4 = 0 := by
  rw [alignDown_toNat]
  omega

/-! ### The bytes of a word -/

theorem getLsbD_be32 (b0 b1 b2 b3 : Byte) (j : Nat) : (be32 b0 b1 b2 b3).getLsbD j =
    if j < 8 then b3.getLsbD j else if j - 8 < 8 then b2.getLsbD (j - 8)
    else if j - 8 - 8 < 8 then b1.getLsbD (j - 8 - 8) else b0.getLsbD (j - 8 - 8 - 8) := by
  unfold be32
  rw [← BitVec.getLsbD_append, ← BitVec.getLsbD_append, ← BitVec.getLsbD_append]

theorem be32_lane0 (b0 b1 b2 b3 : Byte) : ((be32 b0 b1 b2 b3) >>> 24).setWidth 8 = b0 := by
  refine BitVec.eq_of_getLsbD_eq fun i hi => ?_
  simp [getLsbD_be32, hi, show ¬ (24 + i < 8) by omega, show ¬ (24 + i - 8 < 8) by omega,
    show ¬ (24 + i - 8 - 8 < 8) by omega, show 24 + i - 8 - 8 - 8 = i by omega]

theorem be32_lane1 (b0 b1 b2 b3 : Byte) : ((be32 b0 b1 b2 b3) >>> 16).setWidth 8 = b1 := by
  refine BitVec.eq_of_getLsbD_eq fun i hi => ?_
  simp [getLsbD_be32, hi, show ¬ (16 + i < 8) by omega, show ¬ (16 + i - 8 < 8) by omega,
    show 16 + i - 8 - 8 = i by omega]

theorem be32_lane2 (b0 b1 b2 b3 : Byte) : ((be32 b0 b1 b2 b3) >>> 8).setWidth 8 = b2 := by
  refine BitVec.eq_of_getLsbD_eq fun i hi => ?_
  simp [getLsbD_be32, hi, show ¬ (8 + i < 8) by omega]

theorem be32_lane3 (b0 b1 b2 b3 : Byte) : ((be32 b0 b1 b2 b3) >>> 0).setWidth 8 = b3 := by
  refine BitVec.eq_of_getLsbD_eq fun i hi => ?_
  simp [getLsbD_be32, hi]

/-- A word is put together from its four lanes. -/
theorem be32_lanes (v : Word) :
    be32 (v.extractLsb' 24 8) (v.extractLsb' 16 8) (v.extractLsb' 8 8) (v.extractLsb' 0 8) = v := by
  refine BitVec.eq_of_getLsbD_eq fun i hi => ?_
  simp only [getLsbD_be32, BitVec.getLsbD_extractLsb']
  by_cases h1 : i < 8
  · simp [h1]
  · by_cases h2 : i < 16
    · rw [if_neg h1, if_pos (by omega), show 8 + (i - 8) = i by omega, decide_eq_true (by omega), Bool.true_and]
    · by_cases h3 : i < 24
      · rw [if_neg h1, if_neg (by omega), if_pos (by omega), show 16 + (i - 8 - 8) = i by omega,
          decide_eq_true (by omega), Bool.true_and]
      · rw [if_neg h1, if_neg (by omega), if_neg (by omega), show 24 + (i - 8 - 8 - 8) = i by omega,
          decide_eq_true (by omega), Bool.true_and]

theorem wordOfBytes_wordBytes (v : Word) : wordOfBytes (wordBytes v) = v := be32_lanes v

/-- The byte a lane of a word holds. -/
def laneByte (v a : Word) : Byte := (v >>> byteLane a).setWidth 8

/-- A byte of memory is the byte the list holds at its address. -/
theorem memByte_eq (s : State) (a : Word) : memByte s a = Memory.readByte s.mem a.toNat := by
  have hlt := byteOffset_lt a
  have hoff := byteOffset_eq a
  have hal := alignDown_toNat a
  have hmod := alignDown_mod a
  unfold memByte memRead Memory.readWord byteLane
  generalize hk : byteOffset a = k at *
  have add1 := toNat_aligned_add hmod (k := 1) (by omega)
  have add2 := toNat_aligned_add hmod (k := 2) (by omega)
  have add3 := toNat_aligned_add hmod (k := 3) (by omega)
  interval_cases k
  · rw [be32_lane0]
    congr 1
    omega
  · rw [be32_lane1]
    congr 1
    exact add1.trans (by omega)
  · rw [be32_lane2]
    congr 1
    exact add2.trans (by omega)
  · rw [be32_lane3]
    congr 1
    exact add3.trans (by omega)

/-- What one byte reads after a word is written: a lane of the word, inside it; the byte as before, outside it. -/
theorem memByte_memWrite {s : State} (h : Memory.wf s.mem = true) (ea v a : Word) :
    memByte (memWrite s (alignDown ea) v) a =
      if alignDown a = alignDown ea then laneByte v a else memByte s a := by
  have hoff := byteOffset_eq a
  have hlt := byteOffset_lt a
  have hal := alignDown_toNat ea
  have hmod := alignDown_mod ea
  have add1 := toNat_aligned_add hmod (k := 1) (by omega)
  have add2 := toNat_aligned_add hmod (k := 2) (by omega)
  have add3 := toNat_aligned_add hmod (k := 3) (by omega)
  rw [memByte_eq, memByte_eq, memWrite_mem, Memory.readByte_writeWord h]
  simp only [alignDown_eq_iff]
  change (alignDown ea + 1).toNat = _ at add1
  change (alignDown ea + 2).toNat = _ at add2
  change (alignDown ea + 3).toNat = _ at add3
  rw [add1, add2, add3]
  unfold laneByte byteLane
  generalize hk : byteOffset a = k at *
  have low : ∀ n, v.extractLsb' n 8 = (v >>> n).setWidth 8 := by
    intro n
    refine BitVec.eq_of_getLsbD_eq fun i hi => ?_
    simp [hi]
  rw [low, low, low, low]
  have ha := a.isLt
  have he := ea.isLt
  by_cases hw : a.toNat / 4 = ea.toNat / 4
  · rw [if_pos hw]
    interval_cases k
    · rw [if_neg (by omega), if_neg (by omega), if_neg (by omega), if_pos (by omega)]
    · rw [if_neg (by omega), if_neg (by omega), if_pos (by omega)]
    · rw [if_neg (by omega), if_pos (by omega)]
    · rw [if_pos (by omega)]
  · rw [if_neg hw, if_neg (by omega), if_neg (by omega), if_neg (by omega), if_neg (by omega)]

/-- A word reads as its four bytes. -/
theorem memRead_eq_bytes (s : State) (a : Word) :
    memRead s a = be32 (memByte s a) (memByte s (a + 1)) (memByte s (a + 2)) (memByte s (a + 3)) := by
  simp only [memRead, Memory.readWord, memByte_eq]

/-- A byte of memory is a lane of its word. -/
theorem memByte_eq_laneByte (s : State) (a : Word) : memByte s a = laneByte (memRead s (alignDown a)) a := rfl

end Sys2Proof.Machine
end

