-- ==== Sys2Proof/Laws/Values.lean ====
section
/-! SUPPORT. What the value formulas of loads and stores do to the bytes of a word, stated by byte lanes instead of masks and
shifts. -/

namespace Sys2Proof.Machine

/-! ### Loads -/

theorem lbuValue_eq (ea old mem : Word) : lbuValue ea old mem = (laneByte mem ea).setWidth 32 := by
  refine BitVec.eq_of_getLsbD_eq fun i hi => ?_
  unfold lbuValue laneByte
  generalize mem >>> byteLane ea = x
  interval_cases i <;> simp

theorem lbValue_eq (ea old mem : Word) : lbValue ea old mem = (laneByte mem ea).signExtend 32 := by
  unfold lbValue sext laneByte
  congr 1
  generalize mem >>> byteLane ea = x
  refine BitVec.eq_of_getLsbD_eq fun i hi => ?_
  interval_cases i <;> simp

/-- The halfword a lane of a word holds. -/
def laneHalf (v a : Word) : BitVec 16 := (v >>> halfLane a).setWidth 16

theorem lhuValue_eq (ea old mem : Word) : lhuValue ea old mem = (laneHalf mem ea).setWidth 32 := by
  refine BitVec.eq_of_getLsbD_eq fun i hi => ?_
  unfold lhuValue laneHalf
  generalize mem >>> halfLane ea = x
  interval_cases i <;> simp

theorem lhValue_eq (ea old mem : Word) : lhValue ea old mem = (laneHalf mem ea).signExtend 32 := by
  unfold lhValue sext laneHalf
  congr 1
  generalize mem >>> halfLane ea = x
  refine BitVec.eq_of_getLsbD_eq fun i hi => ?_
  interval_cases i <;> simp

/-- The byte offset of the first and of the second byte of the halfword an address lies in. -/
theorem byteOffset_half (a : Word) :
    byteOffset (a &&& 0xFFFFFFFE) = (a &&& 2).toNat ∧ byteOffset (a ||| 1) = (a &&& 2).toNat + 1 := by
  have e0 : (a &&& 0xFFFFFFFE) &&& 3 = a &&& 2 := by
    rw [BitVec.and_assoc]
    rfl
  have e1 : (a ||| 1) &&& 3 = (a &&& 2) ||| 1 := by
    refine BitVec.eq_of_getLsbD_eq fun i hi => ?_
    interval_cases i <;> simp
  unfold byteOffset
  rw [e0, e1]
  refine ⟨rfl, ?_⟩
  have h := halfOffset_eq a
  rw [BitVec.toNat_or, h]
  generalize hk : a.toNat % 4 / 2 = k
  have : k < 2 := by omega
  interval_cases k <;> rfl

theorem getLsbD_append_bytes (x y : Byte) (i : Nat) :
    (x ++ y : BitVec 16).getLsbD i = if i < 8 then y.getLsbD i else x.getLsbD (i - 8) := by
  rw [← BitVec.getLsbD_append]

/-- A halfword is its two bytes. -/
theorem laneHalf_eq (v a : Word) : laneHalf v a = laneByte v (a &&& 0xFFFFFFFE) ++ laneByte v (a ||| 1) := by
  unfold laneHalf laneByte halfLane byteLane
  rw [(byteOffset_half a).1, (byteOffset_half a).2]
  have h := halfOffset_eq a
  generalize (a &&& 2).toNat = k at *
  have hk : k = 0 ∨ k = 2 := by omega
  refine BitVec.eq_of_getLsbD_eq fun i hi => ?_
  rw [getLsbD_append_bytes]
  rcases hk with hk | hk <;> subst hk <;> interval_cases i <;> simp

theorem wordBytes_lwlValue (ea old mem : Word) : wordBytes (lwlValue ea old mem) =
    (wordBytes mem).drop (byteOffset ea) ++ (wordBytes old).drop (4 - byteOffset ea) := by
  have hj := byteOffset_lt ea
  unfold lwlValue wordBytes
  generalize byteOffset ea = j at *
  interval_cases j <;> simp only [List.drop, List.cons_append, List.nil_append, List.cons.injEq, and_true] <;>
    refine ⟨?_, ?_, ?_, ?_⟩ <;> refine BitVec.eq_of_getLsbD_eq fun i hi => ?_ <;> interval_cases i <;> simp

theorem wordBytes_lwrValue (ea old mem : Word) : wordBytes (lwrValue ea old mem) =
    (wordBytes old).take (3 - byteOffset ea) ++ (wordBytes mem).take (byteOffset ea + 1) := by
  have hj := byteOffset_lt ea
  unfold lwrValue wordBytes byteLane
  generalize byteOffset ea = j at *
  interval_cases j <;>
    simp only [Nat.sub_self, List.take, List.take_zero, List.cons_append, List.nil_append, List.cons.injEq,
      and_true] <;>
    refine ⟨?_, ?_, ?_, ?_⟩ <;> refine BitVec.eq_of_getLsbD_eq fun i hi => ?_ <;> interval_cases i <;> simp

/-! ### Stores -/

theorem laneByte_sbValue (ea old mem a : Word) :
    laneByte (sbValue ea old mem) a = if byteOffset a = byteOffset ea then old.setWidth 8 else laneByte mem a := by
  have hj := byteOffset_lt ea
  have hk := byteOffset_lt a
  unfold laneByte sbValue byteLane
  generalize byteOffset ea = j at *
  generalize byteOffset a = k at *
  refine BitVec.eq_of_getLsbD_eq fun i hi => ?_
  interval_cases j <;> interval_cases k <;> interval_cases i <;> simp

theorem laneByte_shValue (ea old mem a : Word) :
    laneByte (shValue ea old mem) a =
      if byteOffset a = byteOffset (ea &&& 0xFFFFFFFE) then (old >>> 8).setWidth 8
      else if byteOffset a = byteOffset (ea ||| 1) then old.setWidth 8
      else laneByte mem a := by
  have hk := byteOffset_lt a
  unfold laneByte shValue byteLane halfLane
  rw [(byteOffset_half ea).1, (byteOffset_half ea).2]
  have h := halfOffset_eq ea
  generalize (ea &&& 2).toNat = j at *
  generalize byteOffset a = k at *
  have hj : j = 0 ∨ j = 2 := by omega
  refine BitVec.eq_of_getLsbD_eq fun i hi => ?_
  rcases hj with hj | hj <;> subst hj <;> interval_cases k <;> interval_cases i <;> simp

theorem laneByte_swlValue (ea old mem a : Word) :
    laneByte (swlValue ea old mem) a =
      if byteOffset ea ≤ byteOffset a then (old >>> (24 - (byteOffset a - byteOffset ea) * 8)).setWidth 8
      else laneByte mem a := by
  have hj := byteOffset_lt ea
  have hk := byteOffset_lt a
  unfold laneByte swlValue byteLane
  generalize byteOffset ea = j at *
  generalize byteOffset a = k at *
  refine BitVec.eq_of_getLsbD_eq fun i hi => ?_
  interval_cases j <;> interval_cases k <;> interval_cases i <;> simp

theorem laneByte_swrValue (ea old mem a : Word) :
    laneByte (swrValue ea old mem) a =
      if byteOffset a ≤ byteOffset ea then (old >>> ((byteOffset ea - byteOffset a) * 8)).setWidth 8
      else laneByte mem a := by
  have hj := byteOffset_lt ea
  have hk := byteOffset_lt a
  unfold laneByte swrValue byteLane
  generalize byteOffset ea = j at *
  generalize byteOffset a = k at *
  refine BitVec.eq_of_getLsbD_eq fun i hi => ?_
  interval_cases j <;> interval_cases k <;> interval_cases i <;> simp

end Sys2Proof.Machine
end

