-- ==== Sys2Proof/Laws/Ops.lean ====
section
/-! SUPPORT. One lemma a shared operation, which says once everything it can do: the writeback, the branch, the jump, the access
tracker, the frame of loads and of stores, the fetch and the step. Later proofs cite these instead of unfolding. -/

namespace Sys2Proof.Machine

/-! ### Sequencing -/

@[simp] theorem andThen_next (s : State) (k : State → Result) : andThen (.next s) k = k s := rfl
@[simp] theorem andThen_fault (f : Fault) (k : State → Result) : andThen (.fault f) k = .fault f := rfl
@[simp] theorem andThen_refused (e : Refusal) (k : State → Result) : andThen (.refused e) k = .refused e := rfl

theorem andThen_eq_next {r : Result} {k : State → Result} {t : State} :
    andThen r k = .next t ↔ ∃ s, r = .next s ∧ k s = .next t := by
  cases r <;> simp [andThen]

theorem andThen_eq_fault {r : Result} {k : State → Result} {f : Fault} :
    andThen r k = .fault f ↔ r = .fault f ∨ ∃ s, r = .next s ∧ k s = .fault f := by
  cases r <;> simp [andThen]

theorem andThen_eq_refused {r : Result} {k : State → Result} {e : Refusal} :
    andThen r k = .refused e ↔ r = .refused e ∨ ∃ s, r = .next s ∧ k s = .refused e := by
  cases r <;> simp [andThen]

/-! ### Writeback -/

/-- A register number never reaches 32, so a writeback from a field always completes. -/
theorem writeback_reg (r : Reg) (v : Word) (c : Bool) (s : State) :
    writeback r.toNat v c s = .next (advance (if c then writeReg s r v else s)) := by
  have h : ¬ 32 ≤ r.toNat := Nat.not_le.2 r.isLt
  rw [writeback, if_neg h, BitVec.ofNat_toNat, BitVec.setWidth_eq]

theorem writeback_zero (v : Word) (c : Bool) (s : State) : writeback 0 v c s = .next (advance s) := by
  have h := writeback_reg 0#5 v c s
  rw [writeReg_zero, ite_self] at h
  exact h

theorem advance_writeReg_writesReg (s : State) (r : Reg) (v : Word) : WritesReg s (advance (writeReg s r v)) r v := by
  refine ⟨⟨?_, fun q hq => ?_⟩, ⟨?_, ?_⟩, fun a => memByte_congr ?_ a, ?_⟩
  · rw [readReg_advance, readReg_writeReg_same]
  · rw [readReg_advance, readReg_writeReg_of_ne s v hq]
  · simp
  · simp
  · exact writeReg_mem s r v
  · apply State.ext <;> simp

/-- The result of an unconditional writeback. -/
theorem writeback_writesReg (r : Reg) (v : Word) (s : State) :
    ∃ t, writeback r.toNat v true s = .next t ∧ WritesReg s t r v :=
  ⟨_, writeback_reg r v true s, advance_writeReg_writesReg s r v⟩

theorem advance_frame (s : State) : Advanced s (advance s) ∧ SameRegs s (advance s) ∧ SameMemory s (advance s) ∧
    OnlyPcChanged s (advance s) :=
  ⟨⟨rfl, rfl⟩, fun _ => rfl, fun _ => rfl, rfl⟩

/-- The result of a write of `hi` and `lo`. -/
theorem setHiLo_spec (hi lo : Word) (s : State) : ∃ t, setHiLo hi lo s = .next t ∧ WritesHiLo s t hi lo :=
  ⟨_, rfl, rfl, rfl, fun _ => rfl, ⟨rfl, rfl⟩, fun _ => rfl, rfl⟩

/-! ### Control transfer -/

/-- The result of a branch: no register and no memory is written, the old `next_pc` retires next. -/
theorem branch_spec (taken : Bool) (imm : BitVec 16) (s : State) :
    ∃ t, branch taken imm s = .next t ∧ Branches s t (taken = true) imm :=
  ⟨_, rfl, rfl, fun h => if_pos h, fun h => if_neg h, fun _ => rfl, fun _ => rfl, rfl⟩

/-- The result of a jump. -/
theorem jump_spec (link : Reg) (dest : Word) (s : State) :
    ∃ t, jump link dest s = .next t ∧ Jumps s t link dest := by
  refine ⟨_, rfl, ?_, ?_, ⟨?_, fun q hq => ?_⟩, fun a => memByte_congr ?_ a, ?_⟩
  · simp
  · simp
  · rw [readReg_writeReg_same]
  · rw [readReg_writeReg_of_ne _ _ hq]
    rfl
  · rw [writeReg_mem]
  · apply State.ext <;> simp

/-! ### The access tracker -/

/-- When the tracker accepts an access it completes, and nothing but the tracker changes. -/
theorem track_spec {s : State} {addr : Word} (h : Trackable s addr) :
    ∃ t, track addr s = .next t ∧ Tracked s t addr ∧
      t = { s with lastMemAccess := t.lastMemAccess, proofCache := t.proofCache } := by
  have hn : ¬ (s.lastMemAccess ≠ none ∧ s.lastMemAccess ≠ some addr) := by
    rcases h with h | h <;> simp [h]
  rw [track, if_neg hn]
  refine ⟨_, rfl, ⟨rfl, fun hp => ?_, fun hp => by simp [hp]⟩, rfl⟩
  simp only [hp, Bool.true_and]
  by_cases hh : proofHeld s addr = true
  · simp only [hh, Bool.not_true, Bool.false_eq_true, if_false]
    simp only [proofHeld, Bool.and_eq_true, beq_iff_eq] at hh
    exact hh.2
  · simp only [hh, Bool.not_false, if_true]
    rfl

/-- The tracker refuses exactly a second, different address. -/
theorem track_eq_fault {s : State} {addr : Word} {f : Fault} (h : track addr s = .fault f) :
    f = .dualAddress ∧ s.lastMemAccess ≠ none ∧ s.lastMemAccess ≠ some addr := by
  unfold track raise at h
  split at h
  · next hc => exact ⟨by simpa using h.symm, hc⟩
  · simp at h

theorem track_eq_next {s t : State} {addr : Word} (h : track addr s = .next t) :
    Trackable s addr ∧ Tracked s t addr ∧
      t = { s with lastMemAccess := t.lastMemAccess, proofCache := t.proofCache } := by
  have ht : Trackable s addr := by
    unfold track raise at h
    split at h
    · simp at h
    · next hc =>
      by_cases h0 : s.lastMemAccess = none
      · exact .inl h0
      · exact .inr (by by_contra h1; exact hc ⟨h0, h1⟩)
  obtain ⟨t', ht', h1, h2⟩ := track_spec ht
  have e : t' = t := by
    rw [ht'] at h
    simpa using h
  exact ⟨ht, e ▸ h1, e ▸ h2⟩

theorem track_ports {s t : State} {addr : Word} (h : track addr s = .next t) : t.ports = s.ports := by
  rw [(track_eq_next h).2.2]

theorem track_ne_refused (s : State) (addr : Word) (e : Refusal) : track addr s ≠ .refused e := by
  unfold track raise
  split <;> simp

/-! ### Loads and stores -/

/-- The result of a load. -/
theorem load_spec (value : Word → Word → Word → Word) (rt : Reg) (imm : BitVec 16) (rs : Reg) (s : State)
    (h : Trackable s (alignDown (effectiveAddress (readReg s rs) imm))) :
    ∃ t, load value rt imm rs s = .next t ∧
      Loads s t rt (effectiveAddress (readReg s rs) imm) (value (effectiveAddress (readReg s rs) imm) (readReg s rt)
        (memRead s (alignDown (effectiveAddress (readReg s rs) imm)))) := by
  obtain ⟨s1, h1, htr, heq⟩ := track_spec h
  have hregs : s1.regs = s.regs := by rw [heq]
  have hmem : s1.mem = s.mem := by rw [heq]
  have hpc : s1.nextPc = s.nextPc := by rw [heq]
  unfold load
  simp only [h1, andThen_next, writeback_reg, if_true]
  refine ⟨_, rfl, ⟨?_, fun q hq => ?_⟩, ⟨?_, ?_⟩, fun a => memByte_congr ?_ a, ?_, ?_⟩
  · rw [readReg_advance, readReg_writeReg_same, memRead_congr hmem]
  · rw [readReg_advance, readReg_writeReg_of_ne _ _ hq, readReg_congr hregs]
  · simp [hpc]
  · simp [hpc]
  · simp [hmem]
  · simpa [Tracked] using htr
  · rw [heq]
    apply State.ext <;> simp

/-- The result of a store. -/
theorem store_spec (value : Word → Word → Word → Word) (rt : Reg) (imm : BitVec 16) (rs : Reg) (s : State)
    (h : Trackable s (alignDown (effectiveAddress (readReg s rs) imm))) :
    ∃ t, store value rt imm rs s = .next t ∧
      t.mem = Memory.writeWord s.mem (alignDown (effectiveAddress (readReg s rs) imm))
        (value (effectiveAddress (readReg s rs) imm) (readReg s rt)
          (memRead s (alignDown (effectiveAddress (readReg s rs) imm)))) ∧
      Stores s t (effectiveAddress (readReg s rs) imm) := by
  obtain ⟨s1, h1, htr, heq⟩ := track_spec h
  have hregs : s1.regs = s.regs := by rw [heq]
  have hmem : s1.mem = s.mem := by rw [heq]
  have hpc : s1.nextPc = s.nextPc := by rw [heq]
  unfold store
  simp only [h1, andThen_next, writeback_zero]
  refine ⟨_, rfl, ?_, fun q => ?_, ⟨?_, ?_⟩, ?_, ?_⟩
  · simp [hmem, memRead_congr hmem]
  · exact readReg_congr hregs q
  · simp [hpc]
  · simp [hpc]
  · simpa [Tracked] using htr
  · rw [heq]
    apply State.ext <;> simp

/-- A byte of memory after a store, where the store's own word is given by `value`. -/
theorem memByte_of_mem_eq {s t : State} (hw : Memory.wf s.mem = true) {ea v : Word}
    (h : t.mem = Memory.writeWord s.mem (alignDown ea) v) (a : Word) :
    memByte t a = if alignDown a = alignDown ea then laneByte v a else memByte s a := by
  rw [← memByte_memWrite hw ea v a]
  exact memByte_congr h a

/-! ### Fetch and step -/

theorem step_exited {s : State} (h : s.exited = true) : step s = .next s := by
  rw [step, if_pos h]

/-- A step of a running machine whose `pc` is aligned: the instruction at `pc`, or the abort the decoder's rejection raises. -/
theorem step_running {s : State} (h : s.exited = false) (ha : s.pc &&& 3 = 0) :
    step s = match decode (memRead s s.pc) with
      | .ok i => exec i (beginStep s)
      | .error e => .fault (decodeFault (memRead s s.pc) e) := by
  rw [step, h, if_neg (by simp), fetch, beginStep_pc, if_neg (not_not_intro ha)]
  rfl

theorem step_unaligned {s : State} (h : s.exited = false) (ha : s.pc &&& 3 ≠ 0) : step s = .fault .unalignedFetch := by
  rw [step, h, if_neg (by simp), fetch, beginStep_pc, if_pos ha]
  rfl

theorem step_decoded {s : State} (h : s.exited = false) (ha : s.pc &&& 3 = 0) {i : Instr}
    (hd : decode (memRead s s.pc) = .ok i) : step s = exec i (beginStep s) := by
  rw [step_running h ha, hd]

/-- Everything a step that completes can be. -/
theorem step_eq_next {s t : State} (h : step s = .next t) :
    (s.exited = true ∧ t = s) ∨
    (s.exited = false ∧ s.pc &&& 3 = 0 ∧ ∃ i, decode (memRead s s.pc) = .ok i ∧ exec i (beginStep s) = .next t) := by
  cases he : s.exited with
  | true =>
    rw [step_exited he] at h
    exact .inl ⟨rfl, by simpa using h.symm⟩
  | false =>
    refine .inr ⟨rfl, ?_⟩
    by_cases ha : s.pc &&& 3 = 0
    · rw [step_running he ha] at h
      cases hd : decode (memRead s s.pc) with
      | ok i =>
        rw [hd] at h
        exact ⟨ha, i, rfl, h⟩
      | error e =>
        rw [hd] at h
        simp at h
    · rw [step_unaligned he ha] at h
      simp at h

/-- Everything a step that aborts can be. -/
theorem step_eq_fault {s : State} {f : Fault} (h : step s = .fault f) :
    s.exited = false ∧
    ((s.pc &&& 3 ≠ 0 ∧ f = .unalignedFetch) ∨
     (s.pc &&& 3 = 0 ∧ ∃ e, decode (memRead s s.pc) = .error e ∧ f = decodeFault (memRead s s.pc) e) ∨
     (s.pc &&& 3 = 0 ∧ ∃ i, decode (memRead s s.pc) = .ok i ∧ exec i (beginStep s) = .fault f)) := by
  cases he : s.exited with
  | true =>
    rw [step_exited he] at h
    simp at h
  | false =>
    refine ⟨rfl, ?_⟩
    by_cases ha : s.pc &&& 3 = 0
    · rw [step_running he ha] at h
      cases hd : decode (memRead s s.pc) with
      | ok i =>
        rw [hd] at h
        exact .inr (.inr ⟨ha, i, rfl, h⟩)
      | error e =>
        rw [hd] at h
        exact .inr (.inl ⟨ha, e, rfl, by simpa using h.symm⟩)
    · rw [step_unaligned he ha] at h
      exact .inl ⟨ha, by simpa using h.symm⟩

end Sys2Proof.Machine
end

