-- ==== Sys2Proof/Laws/PerInstr.lean ====
section
/-! SUPPORT. The per-instruction family `EncodesItsRow`: the canonical word of an instruction is matched by the instruction's own
row of the opcode table (30_encoding.md R95, R99), one lemma a constructor. -/

namespace Sys2Proof.Laws.EncodesItsRow

/-- The row of the opcode table an instruction belongs to applies to the instruction's canonical word. -/
def Statement (i : Instr) : Prop := encode i &&& i.row.mask = i.row.pattern

theorem j (index : BitVec 26) : Statement (.j index) :=
  encodeJ_matches rfl

theorem jal (index : BitVec 26) : Statement (.jal index) :=
  encodeJ_matches rfl

theorem jr (rs : Reg) : Statement (.jr rs) :=
  encodeR_matches rfl

theorem jalr (rd : Reg) (rs : Reg) : Statement (.jalr rd rs) :=
  encodeR_matches rfl

theorem beq (rs : Reg) (rt : Reg) (imm : BitVec 16) : Statement (.beq rs rt imm) :=
  encodeI_matches rfl

theorem bne (rs : Reg) (rt : Reg) (imm : BitVec 16) : Statement (.bne rs rt imm) :=
  encodeI_matches rfl

theorem blez (rs : Reg) (imm : BitVec 16) : Statement (.blez rs imm) :=
  encodeI_matches rfl

theorem bgtz (rs : Reg) (imm : BitVec 16) : Statement (.bgtz rs imm) :=
  encodeI_matches rfl

theorem bltz (rs : Reg) (imm : BitVec 16) : Statement (.bltz rs imm) :=
  encodeI_matches_regimm rfl

theorem bgez (rs : Reg) (imm : BitVec 16) : Statement (.bgez rs imm) :=
  encodeI_matches_regimm rfl

theorem sll (rd : Reg) (rt : Reg) (shamt : BitVec 5) : Statement (.sll rd rt shamt) :=
  encodeR_matches rfl

theorem srl (rd : Reg) (rt : Reg) (shamt : BitVec 5) : Statement (.srl rd rt shamt) :=
  encodeR_matches rfl

theorem sra (rd : Reg) (rt : Reg) (shamt : BitVec 5) : Statement (.sra rd rt shamt) :=
  encodeR_matches rfl

theorem sllv (rd : Reg) (rt : Reg) (rs : Reg) : Statement (.sllv rd rt rs) :=
  encodeR_matches rfl

theorem srlv (rd : Reg) (rt : Reg) (rs : Reg) : Statement (.srlv rd rt rs) :=
  encodeR_matches rfl

theorem srav (rd : Reg) (rt : Reg) (rs : Reg) : Statement (.srav rd rt rs) :=
  encodeR_matches rfl

theorem add (rd : Reg) (rs : Reg) (rt : Reg) : Statement (.add rd rs rt) :=
  encodeR_matches rfl

theorem addu (rd : Reg) (rs : Reg) (rt : Reg) : Statement (.addu rd rs rt) :=
  encodeR_matches rfl

theorem sub (rd : Reg) (rs : Reg) (rt : Reg) : Statement (.sub rd rs rt) :=
  encodeR_matches rfl

theorem subu (rd : Reg) (rs : Reg) (rt : Reg) : Statement (.subu rd rs rt) :=
  encodeR_matches rfl

theorem and (rd : Reg) (rs : Reg) (rt : Reg) : Statement (.and rd rs rt) :=
  encodeR_matches rfl

theorem or (rd : Reg) (rs : Reg) (rt : Reg) : Statement (.or rd rs rt) :=
  encodeR_matches rfl

theorem xor (rd : Reg) (rs : Reg) (rt : Reg) : Statement (.xor rd rs rt) :=
  encodeR_matches rfl

theorem nor (rd : Reg) (rs : Reg) (rt : Reg) : Statement (.nor rd rs rt) :=
  encodeR_matches rfl

theorem slt (rd : Reg) (rs : Reg) (rt : Reg) : Statement (.slt rd rs rt) :=
  encodeR_matches rfl

theorem sltu (rd : Reg) (rs : Reg) (rt : Reg) : Statement (.sltu rd rs rt) :=
  encodeR_matches rfl

theorem addi (rt : Reg) (rs : Reg) (imm : BitVec 16) : Statement (.addi rt rs imm) :=
  encodeI_matches rfl

theorem addiu (rt : Reg) (rs : Reg) (imm : BitVec 16) : Statement (.addiu rt rs imm) :=
  encodeI_matches rfl

theorem slti (rt : Reg) (rs : Reg) (imm : BitVec 16) : Statement (.slti rt rs imm) :=
  encodeI_matches rfl

theorem sltiu (rt : Reg) (rs : Reg) (imm : BitVec 16) : Statement (.sltiu rt rs imm) :=
  encodeI_matches rfl

theorem andi (rt : Reg) (rs : Reg) (imm : BitVec 16) : Statement (.andi rt rs imm) :=
  encodeI_matches rfl

theorem ori (rt : Reg) (rs : Reg) (imm : BitVec 16) : Statement (.ori rt rs imm) :=
  encodeI_matches rfl

theorem xori (rt : Reg) (rs : Reg) (imm : BitVec 16) : Statement (.xori rt rs imm) :=
  encodeI_matches rfl

theorem lui (rt : Reg) (imm : BitVec 16) : Statement (.lui rt imm) :=
  encodeI_matches rfl

theorem mul (rd : Reg) (rs : Reg) (rt : Reg) : Statement (.mul rd rs rt) :=
  encodeR_matches rfl

theorem clz (rd : Reg) (rs : Reg) : Statement (.clz rd rs) :=
  encodeR_matches rfl

theorem clo (rd : Reg) (rs : Reg) : Statement (.clo rd rs) :=
  encodeR_matches rfl

theorem movz (rd : Reg) (rs : Reg) (rt : Reg) : Statement (.movz rd rs rt) :=
  encodeR_matches rfl

theorem movn (rd : Reg) (rs : Reg) (rt : Reg) : Statement (.movn rd rs rt) :=
  encodeR_matches rfl

theorem special0x0d (rd : Reg) (rs : Reg) : Statement (.special0x0d rd rs) :=
  encodeR_matches rfl

theorem special0x0e (rd : Reg) (rs : Reg) : Statement (.special0x0e rd rs) :=
  encodeR_matches rfl

theorem special0x0f (rd : Reg) (rs : Reg) : Statement (.special0x0f rd rs) :=
  encodeR_matches rfl

theorem special0x1c (rd : Reg) (rs : Reg) : Statement (.special0x1c rd rs) :=
  encodeR_matches rfl

theorem special0x1d (rd : Reg) (rs : Reg) : Statement (.special0x1d rd rs) :=
  encodeR_matches rfl

theorem special0x1e (rd : Reg) (rs : Reg) : Statement (.special0x1e rd rs) :=
  encodeR_matches rfl

theorem special0x1f (rd : Reg) (rs : Reg) : Statement (.special0x1f rd rs) :=
  encodeR_matches rfl

theorem lb (rt : Reg) (imm : BitVec 16) (rs : Reg) : Statement (.lb rt imm rs) :=
  encodeI_matches rfl

theorem lh (rt : Reg) (imm : BitVec 16) (rs : Reg) : Statement (.lh rt imm rs) :=
  encodeI_matches rfl

theorem lwl (rt : Reg) (imm : BitVec 16) (rs : Reg) : Statement (.lwl rt imm rs) :=
  encodeI_matches rfl

theorem lw (rt : Reg) (imm : BitVec 16) (rs : Reg) : Statement (.lw rt imm rs) :=
  encodeI_matches rfl

theorem lbu (rt : Reg) (imm : BitVec 16) (rs : Reg) : Statement (.lbu rt imm rs) :=
  encodeI_matches rfl

theorem lhu (rt : Reg) (imm : BitVec 16) (rs : Reg) : Statement (.lhu rt imm rs) :=
  encodeI_matches rfl

theorem lwr (rt : Reg) (imm : BitVec 16) (rs : Reg) : Statement (.lwr rt imm rs) :=
  encodeI_matches rfl

theorem sb (rt : Reg) (imm : BitVec 16) (rs : Reg) : Statement (.sb rt imm rs) :=
  encodeI_matches rfl

theorem sh (rt : Reg) (imm : BitVec 16) (rs : Reg) : Statement (.sh rt imm rs) :=
  encodeI_matches rfl

theorem swl (rt : Reg) (imm : BitVec 16) (rs : Reg) : Statement (.swl rt imm rs) :=
  encodeI_matches rfl

theorem sw (rt : Reg) (imm : BitVec 16) (rs : Reg) : Statement (.sw rt imm rs) :=
  encodeI_matches rfl

theorem swr (rt : Reg) (imm : BitVec 16) (rs : Reg) : Statement (.swr rt imm rs) :=
  encodeI_matches rfl

theorem ll (rt : Reg) (imm : BitVec 16) (rs : Reg) : Statement (.ll rt imm rs) :=
  encodeI_matches rfl

theorem sc (rt : Reg) (imm : BitVec 16) (rs : Reg) : Statement (.sc rt imm rs) :=
  encodeI_matches rfl

theorem mfhi (rd : Reg) : Statement (.mfhi rd) :=
  encodeR_matches rfl

theorem mthi (rs : Reg) : Statement (.mthi rs) :=
  encodeR_matches rfl

theorem mflo (rd : Reg) : Statement (.mflo rd) :=
  encodeR_matches rfl

theorem mtlo (rs : Reg) : Statement (.mtlo rs) :=
  encodeR_matches rfl

theorem mult (rs : Reg) (rt : Reg) : Statement (.mult rs rt) :=
  encodeR_matches rfl

theorem multu (rs : Reg) (rt : Reg) : Statement (.multu rs rt) :=
  encodeR_matches rfl

theorem div (rs : Reg) (rt : Reg) : Statement (.div rs rt) :=
  encodeR_matches rfl

theorem divu (rs : Reg) (rt : Reg) : Statement (.divu rs rt) :=
  encodeR_matches rfl

theorem syscall : Statement (.syscall) :=
  encodeR_matches rfl

end Sys2Proof.Laws.EncodesItsRow
end

