-- ==== Sys2Proof/Laws/Preimage.lean ====
section
/-! SUPPORT. The bytes of a range, the framing of hint records, the shift of the key, the window of the preimage buffer
and the ports that can fail: one lemma an operation. -/

namespace Sys2Proof.Machine

/-! ### Bytes of a range -/

@[simp] theorem rangeRead_length (s : State) (a : Word) (n : Nat) : (rangeRead s a n).length = n := by
  induction n generalizing a with
  | zero => rfl
  | succ n ih => simp [rangeRead, ih]

/-- The byte at an index of a range is the byte at that many addresses further on, modulo 2^32. -/
theorem rangeRead_getElem (s : State) (a : Word) (n i : Nat) (h : i < (rangeRead s a n).length) :
    (rangeRead s a n)[i] = memByte s (a + BitVec.ofNat 32 i) := by
  induction n generalizing a i with
  | zero => simp [rangeRead] at h
  | succ n ih =>
    cases i with
    | zero => simp [rangeRead]
    | succ i =>
      simp only [rangeRead, List.getElem_cons_succ]
      rw [ih]
      congr 1
      rw [BitVec.add_assoc, BitVec.add_comm 1, BitVec.ofNat_add]
      rfl

/-- A range reads the same in states with the same memory. -/
theorem rangeRead_congr {s t : State} (h : t.mem = s.mem) (a : Word) (n : Nat) : rangeRead t a n = rangeRead s a n := by
  induction n generalizing a with
  | zero => rfl
  | succ n ih => rw [rangeRead, rangeRead, ih, memByte_congr h]

@[simp] theorem wordBytes_length (v : Word) : (wordBytes v).length = 4 := rfl

theorem wordBytes_getElem (v : Word) (k : Nat) (h : k < (wordBytes v).length) :
    (wordBytes v)[k] = (v >>> (24 - k * 8)).setWidth 8 := by
  have low : ∀ n, v.extractLsb' n 8 = (v >>> n).setWidth 8 := by
    intro n
    refine BitVec.eq_of_getLsbD_eq fun i hi => ?_
    simp [hi]
  simp only [wordBytes_length] at h
  interval_cases k <;> simp [wordBytes, low]

theorem laneByte_eq_getElem (v a : Word) :
    laneByte v a = (wordBytes v)[byteOffset a]'(by simpa using byteOffset_lt a) := by
  rw [wordBytes_getElem]
  rfl

/-- An address a few bytes further on in the same word. -/
theorem address_in_word {a : Word} {i : Nat} (h : byteOffset a + i < 4) :
    alignDown (a + BitVec.ofNat 32 i) = alignDown a ∧ byteOffset (a + BitVec.ofNat 32 i) = byteOffset a + i := by
  have ha := a.isLt
  rw [byteOffset_eq] at h
  have hn : (a + BitVec.ofNat 32 i).toNat = a.toNat + i := by
    rw [BitVec.toNat_add, BitVec.toNat_ofNat]
    omega
  rw [alignDown_eq_iff, byteOffset_eq, byteOffset_eq, hn]
  omega

/-- A range that stays in one word is a run of the word's bytes. -/
theorem rangeRead_in_word (s : State) (a : Word) (n : Nat) (h : byteOffset a + n ≤ 4) :
    rangeRead s a n = ((wordBytes (memRead s (alignDown a))).drop (byteOffset a)).take n := by
  refine List.ext_getElem (by simp; omega) fun i h1 h2 => ?_
  have hi : i < n := by simpa using h1
  obtain ⟨e1, e2⟩ := address_in_word (a := a) (i := i) (by omega)
  rw [rangeRead_getElem, memByte_eq_laneByte, laneByte_eq_getElem]
  simp only [List.getElem_take, List.getElem_drop, e1, e2]

/-- The bytes of a word with some of them replaced, lane by lane. -/
theorem laneByte_placeBytes (v a : Word) (align : Nat) (dat : List Byte) (h : align + dat.length ≤ 4) :
    laneByte (wordOfBytes (placeBytes (wordBytes v) align dat)) a =
      if align ≤ byteOffset a ∧ byteOffset a < align + dat.length then dat.getD (byteOffset a - align) 0
      else laneByte v a := by
  have hk := byteOffset_lt a
  have hv : laneByte v a = (wordBytes v).getD (byteOffset a) 0 := by
    rw [laneByte_eq_getElem, List.getD_eq_getElem]
  have key : ∀ (b : List Byte), b.length = 4 → laneByte (wordOfBytes b) a = b.getD (byteOffset a) 0 := by
    intro b _
    unfold laneByte wordOfBytes byteLane
    generalize byteOffset a = k at *
    interval_cases k
    · exact be32_lane0 _ _ _ _
    · exact be32_lane1 _ _ _ _
    · exact be32_lane2 _ _ _ _
    · exact be32_lane3 _ _ _ _
  rw [key _ (by simp [placeBytes]; omega), hv]
  clear key hv
  generalize byteOffset a = k at *
  simp only [placeBytes, List.getD_eq_getElem?_getD]
  by_cases h1 : k < align
  · rw [if_neg (by omega), List.append_assoc, List.getElem?_append_left (by simp; omega),
      List.getElem?_take_of_lt h1]
  · by_cases h2 : k < align + dat.length
    · rw [if_pos ⟨by omega, h2⟩, List.append_assoc, List.getElem?_append_right (by simp; omega),
        List.getElem?_append_left (by simp; omega)]
      have e : k - (List.take align (wordBytes v)).length = k - align := by simp; omega
      rw [e]
    · rw [if_neg (by omega), List.getElem?_append_right (by simp; omega), List.getElem?_drop]
      have e : align + dat.length + (k - (List.take align (wordBytes v) ++ dat).length) = k := by simp; omega
      rw [e]

/-! ### Hint records -/

@[simp] theorem prefixed_length (p : List Byte) : (prefixed p).length = p.length + 4 := by
  simp [prefixed]
  omega

theorem wordBytes_be32 (b0 b1 b2 b3 : Byte) : wordBytes (be32 b0 b1 b2 b3) = [b0, b1, b2, b3] := by
  have low : ∀ (v : Word) n, v.extractLsb' n 8 = (v >>> n).setWidth 8 := by
    intro v n
    refine BitVec.eq_of_getLsbD_eq fun i hi => ?_
    simp [hi]
  simp only [wordBytes, low, be32_lane0, be32_lane1, be32_lane2, be32_lane3]

/-- The prefix of a record, read back. -/
theorem hintLength_prefixed (p rest : List Byte) (h : p.length < 2 ^ 32) :
    hintLength (prefixed p ++ rest) = some p.length := by
  have e := be32_lanes (BitVec.ofNat 32 p.length)
  simp only [prefixed, wordBytes, List.cons_append, hintLength, e, BitVec.toNat_ofNat, Nat.mod_eq_of_lt h]

theorem extractHints_prefixed (fuel : Nat) (p rest : List Byte) (h : p.length < 2 ^ 32) :
    extractHints (fuel + 1) (prefixed p ++ rest) =
      (p :: (extractHints fuel rest).1, (extractHints fuel rest).2) := by
  have hl : 4 + p.length ≤ (prefixed p ++ rest).length := by simp; omega
  have e1 : (prefixed p ++ rest).drop (4 + p.length) = rest := by
    rw [List.drop_append_of_le_length (by simp; omega), List.drop_of_length_le (by simp; omega), List.nil_append]
  have e2 : ((prefixed p ++ rest).drop 4).take p.length = p := by
    have : (prefixed p ++ rest).drop 4 = p ++ rest := rfl
    rw [this, List.take_left]
  rw [extractHints, hintLength_prefixed p rest h]
  simp only [if_pos hl, e1, e2]

theorem extractHints_incomplete (fuel : Nat) (rest : List Byte) (h : completeRecord rest = false) :
    extractHints fuel rest = ([], rest) := by
  cases fuel with
  | zero => rfl
  | succ fuel =>
    rw [extractHints]
    unfold completeRecord at h
    split
    · next hl e =>
      rw [e] at h
      have : ¬ 4 + hl ≤ rest.length := by simpa using h
      rw [if_neg this]
    · rfl

/-- A buffer that is a run of records and an incomplete rest is split into exactly these. -/
theorem extractHints_records (ps : List (List Byte)) (rest : List Byte) (hp : ∀ p ∈ ps, p.length < 2 ^ 32)
    (hr : completeRecord rest = false) (fuel : Nat) (hf : ps.length ≤ fuel) :
    extractHints fuel ((ps.map prefixed).flatten ++ rest) = (ps, rest) := by
  induction ps generalizing fuel with
  | nil => simpa using extractHints_incomplete fuel rest hr
  | cons p ps ih =>
    obtain ⟨n, rfl⟩ : ∃ n, fuel = n + 1 := ⟨fuel - 1, by simp at hf; omega⟩
    simp only [List.map_cons, List.flatten_cons, List.append_assoc]
    rw [extractHints_prefixed n p _ (hp p (by simp)), ih (fun q hq => hp q (by simp [hq])) n (by simpa using hf)]

/-- The head of a buffer that starts with a complete record. -/
theorem eq_prefixed_append {buf : List Byte} {hl : Nat} (h : hintLength buf = some hl) (hle : 4 + hl ≤ buf.length) :
    buf = prefixed ((buf.drop 4).take hl) ++ buf.drop (4 + hl) ∧ ((buf.drop 4).take hl).length = hl ∧ hl < 2 ^ 32 := by
  match buf, h with
  | b0 :: b1 :: b2 :: b3 :: tail, h =>
    simp only [hintLength, Option.some.injEq] at h
    have hlt : hl < 2 ^ 32 := h ▸ (be32 b0 b1 b2 b3).isLt
    have hlen : ((b0 :: b1 :: b2 :: b3 :: tail).drop 4).take hl = tail.take hl := rfl
    simp only [List.length_cons] at hle
    have htl : (tail.take hl).length = hl := by simp; omega
    refine ⟨?_, by rw [hlen, htl], hlt⟩
    have hd : (b0 :: b1 :: b2 :: b3 :: tail).drop (4 + hl) = tail.drop hl := by
      rw [← List.drop_drop]
      rfl
    have e : BitVec.ofNat 32 hl = be32 b0 b1 b2 b3 := by rw [← h, BitVec.ofNat_toNat, BitVec.setWidth_eq]
    rw [hlen, hd, prefixed, htl, e, wordBytes_be32]
    simp

/-- What the extraction loop answers: the buffer was these records followed by that rest, which holds no complete record. -/
theorem extractHints_spec (fuel : Nat) (buf : List Byte) (hf : buf.length ≤ fuel) :
    buf = ((extractHints fuel buf).1.map prefixed).flatten ++ (extractHints fuel buf).2 ∧
      completeRecord (extractHints fuel buf).2 = false ∧ ∀ p ∈ (extractHints fuel buf).1, p.length < 2 ^ 32 := by
  induction fuel generalizing buf with
  | zero =>
    obtain rfl : buf = [] := List.eq_nil_of_length_eq_zero (by omega)
    exact ⟨rfl, rfl, by simp [extractHints]⟩
  | succ fuel ih =>
    by_cases hc : completeRecord buf = true
    · unfold completeRecord at hc
      cases hl : hintLength buf with
      | none => simp [hl] at hc
      | some n =>
        have hle : 4 + n ≤ buf.length := by simpa [hl] using hc
        obtain ⟨e, hlen, hlt⟩ := eq_prefixed_append hl hle
        obtain ⟨i1, i2, i3⟩ := ih (buf.drop (4 + n)) (by simp; omega)
        have ex : extractHints (fuel + 1) buf = ((buf.drop 4).take n :: (extractHints fuel (buf.drop (4 + n))).1,
            (extractHints fuel (buf.drop (4 + n))).2) := by
          rw [extractHints, hl]
          simp only [if_pos hle]
        rw [ex]
        refine ⟨?_, i2, ?_⟩
        · simp only [List.map_cons, List.flatten_cons, List.append_assoc, ← i1]
          exact e
        · intro p hp
          rcases List.mem_cons.1 hp with rfl | hp
          · rw [hlen]
            exact hlt
          · exact i3 p hp
    · have hc : completeRecord buf = false := by simpa using hc
      rw [extractHints_incomplete _ _ hc]
      exact ⟨by simp, hc, by simp⟩

/-! ### The key -/

theorem shiftKey_getElem (key : Key) (bytes : List Byte) (i : Nat) (h1 : i < 32) :
    (shiftKey key bytes)[i]'h1 =
      if h : i + bytes.length < 32 then key[i + bytes.length]'h else bytes.getD (i + bytes.length - 32) 0 := by
  unfold shiftKey
  rw [Vector.getElem_ofFn]

/-- Shifting bytes into the key: the oldest leave, the new ones are last. -/
theorem shiftKey_toList (key : Key) (bytes : List Byte) (h : bytes.length ≤ 32) :
    (shiftKey key bytes).toList = key.toList.drop bytes.length ++ bytes := by
  have hk : key.toList.length = 32 := Vector.length_toList
  have hs : (shiftKey key bytes).toList.length = 32 := Vector.length_toList
  refine List.ext_getElem ?_ fun i h1 h2 => ?_
  · rw [hs, List.length_append, List.length_drop, hk]
    omega
  · rw [hs] at h1
    rw [Vector.getElem_toList, shiftKey_getElem key bytes i h1]
    by_cases hlt : i + bytes.length < 32
    · rw [dif_pos hlt, List.getElem_append_left (by rw [List.length_drop, hk]; omega), List.getElem_drop,
        Vector.getElem_toList]
      exact getElem_congr_idx (Nat.add_comm _ _)
    · have hd : (key.toList.drop bytes.length).length = 32 - bytes.length := by rw [List.length_drop, hk]
      rw [dif_neg hlt, List.getElem_append_right (by rw [hd]; omega), List.getD_eq_getElem _ _ (by omega)]
      exact getElem_congr_idx (by rw [hd]; omega)

theorem shiftKey_nil (key : Key) : shiftKey key [] = key := by
  have h := shiftKey_toList key [] (Nat.zero_le _)
  rw [List.append_nil, List.length_nil, List.drop_zero] at h
  exact Vector.toList_inj.1 h

theorem laneCount_le (addr count : Word) : byteOffset addr + laneCount addr count ≤ 4 := by
  have := byteOffset_lt addr
  unfold laneCount
  omega

/-- The bytes a key write takes are the bytes of memory at the addresses from `addr` on. -/
theorem acceptKeyBytes_eq (addr count : Word) (s : State) :
    acceptKeyBytes addr count s =
      ({ s with preimageKey := shiftKey s.preimageKey (rangeRead s addr (laneCount addr count)), preimageOffset := 0 },
        BitVec.ofNat 32 (laneCount addr count)) := by
  have h := laneCount_le addr count
  have e := rangeRead_in_word s addr (laneCount addr count) h
  have el := rangeRead_length s addr (laneCount addr count)
  simp only [acceptKeyBytes, ← e, el]

/-! ### The preimage buffer -/

/-- What the fetch does when it completes: the buffer is the oracle's blob with its prefix, and the transaction is recorded
unless the cache had the key. -/
theorem fetchPreimage_eq_next {key : Key} {s t : State} (h : fetchPreimage key s = .next t) :
    (s.lastPreimageKey = some key ∧ t = s) ∨
    (s.lastPreimageKey ≠ some key ∧ ∃ blob, KnownPreimage s key blob ∧
      t = { s with
        lastPreimageKey := some key, lastPreimage := prefixed blob, ports := s.ports.askPreimage key }) := by
  unfold fetchPreimage cached at h
  by_cases hc : s.lastPreimageKey = some key
  · simp only [hc, beq_self_eq_true, if_true, Host.Outcome.next.injEq] at h
    exact .inl ⟨hc, h.symm⟩
  · refine .inr ⟨hc, ?_⟩
    have hb : (s.lastPreimageKey == some key) = false := by simpa using hc
    rw [hb, if_neg (by simp)] at h
    cases ho : oracleReply s.ports.oracle key with
    | fail => simp [ho, raise] at h
    | block => simp [ho, raise] at h
    | blob bytes =>
      simp only [ho] at h
      split at h
      · next hlt => exact ⟨bytes, ⟨ho, hlt⟩, by simpa using h.symm⟩
      · simp [raise] at h

/-- A key the oracle knows: the fetch completes, and afterwards the buffer is the blob with its prefix. -/
theorem fetchPreimage_known {key : Key} {s : State} {blob : List Byte} (hk : KnownPreimage s key blob)
    (hc : s.lastPreimageKey = some key → s.lastPreimage = prefixed blob) :
    fetchPreimage key s = .next { s with
      lastPreimageKey := some key
      lastPreimage := prefixed blob
      ports := if s.lastPreimageKey = some key then s.ports
        else s.ports.askPreimage key } := by
  unfold fetchPreimage cached
  by_cases h : s.lastPreimageKey = some key
  · have e := hc h
    simp only [h, beq_self_eq_true, if_true]
    congr 1
    apply State.ext <;> simp [h, e]
  · have hb : (s.lastPreimageKey == some key) = false := by simpa using h
    rw [hb, if_neg (by simp), hk.1]
    simp only [if_pos hk.2, if_neg h]

theorem readPreimage_eq_next {key : Key} {offset : Word} {s t : State} (h : readPreimage key offset s = .next t) :
    ∃ s1, fetchPreimage key s = .next s1 ∧ t = { s1 with lastPreimageOffset := offset } := by
  obtain ⟨s1, h1, h2⟩ := andThen_eq_next.1 h
  exact ⟨s1, h1, by simpa using h2.symm⟩

/-- The causes a fetch can stop with: either way the oracle has been asked, which the ports of the cause show. -/
theorem fetchPreimage_eq_fault {key : Key} {s : State} {f : Fault} (h : fetchPreimage key s = .fault f) :
    f = .oracleFailure (s.ports.askPreimage key) ∨ f = .oracleBlocked (s.ports.askPreimage key) := by
  unfold fetchPreimage raise at h
  split at h
  · simp at h
  · split at h
    · simp at h
      exact .inl h.symm
    · simp at h
      exact .inr h.symm
    · split at h
      · simp at h
      · simp at h
        exact .inl h.symm

theorem fetchPreimage_ne_refused (key : Key) (s : State) (e : Refusal) : fetchPreimage key s ≠ .refused e := by
  unfold fetchPreimage raise
  split
  · simp
  · split
    · simp
    · simp
    · split <;> simp

/-! ### Ports that can fail -/

theorem Room.taken_of_accepts {α : Type} {room : Option Nat} {items : List α} (h : Room.accepts room items.length = true) :
    Room.taken room items = items := by
  cases room with
  | none => rfl
  | some r => exact List.take_of_length_le (by simpa [Room.accepts] using h)

/-- Giving a port items in two parts is giving them at once, if it takes the first part. -/
theorem Room.taken_append {α : Type} (room : Option Nat) (xs ys : List α) (h : Room.accepts room xs.length = true) :
    Room.taken room (xs ++ ys) = Room.taken room xs ++ Room.taken (Room.left room xs.length) ys := by
  cases room with
  | none => rfl
  | some r =>
    have hle : xs.length ≤ r := by simpa [Room.accepts] using h
    simp [Room.taken, Room.left, List.take_append]

@[simp] theorem acceptKeyBytes_ports (addr count : Word) (s : State) :
    (acceptKeyBytes addr count s).1.ports = s.ports := by
  rw [acceptKeyBytes_eq]
@[simp] theorem deliverPreimage_ports (addr count : Word) (s : State) :
    (deliverPreimage addr count s).1.ports = s.ports := by
  simp only [deliverPreimage, memWrite_ports]
@[simp] theorem acceptKeyBytes_stepCount (addr count : Word) (s : State) :
    (acceptKeyBytes addr count s).1.stepCount = s.stepCount := by
  rw [acceptKeyBytes_eq]
@[simp] theorem deliverPreimage_stepCount (addr count : Word) (s : State) :
    (deliverPreimage addr count s).1.stepCount = s.stepCount := by
  simp only [deliverPreimage, memWrite_stepCount]
@[simp] theorem acceptKeyBytes_cfg (addr count : Word) (s : State) :
    (acceptKeyBytes addr count s).1.cfg = s.cfg := by
  rw [acceptKeyBytes_eq]
@[simp] theorem deliverPreimage_cfg (addr count : Word) (s : State) :
    (deliverPreimage addr count s).1.cfg = s.cfg := by
  simp only [deliverPreimage, memWrite_cfg]

/-- What the ports of a step show never shrinks. -/
theorem Ports.Extends.refl (p : Ports) : p.Extends p :=
  ⟨rfl, List.prefix_refl _, List.prefix_refl _, List.prefix_refl _, List.prefix_refl _⟩

theorem Ports.Extends.trans {p q r : Ports} (h1 : p.Extends q) (h2 : q.Extends r) : p.Extends r :=
  ⟨h2.1.trans h1.1, h1.2.1.trans h2.2.1, h1.2.2.1.trans h2.2.2.1, h1.2.2.2.1.trans h2.2.2.2.1,
    h1.2.2.2.2.trans h2.2.2.2.2⟩

theorem Ports.askPreimage_extends (p : Ports) (key : Key) : p.Extends (p.askPreimage key) :=
  ⟨rfl, List.prefix_append _ _, List.prefix_refl _, List.prefix_refl _, List.prefix_refl _⟩

theorem Ports.sendHints_extends (p : Ports) (payloads : List (List Byte)) : p.Extends (p.sendHints payloads) :=
  ⟨rfl, List.prefix_refl _, List.prefix_append _ _, List.prefix_refl _, List.prefix_refl _⟩

theorem Ports.stdout_extends (p : Ports) (bytes : List Byte) : p.Extends { p with stdout := p.stdout.append bytes } :=
  ⟨rfl, List.prefix_refl _, List.prefix_refl _, List.prefix_append _ _, List.prefix_refl _⟩

theorem Ports.stderr_extends (p : Ports) (bytes : List Byte) : p.Extends { p with stderr := p.stderr.append bytes } :=
  ⟨rfl, List.prefix_refl _, List.prefix_refl _, List.prefix_refl _, List.prefix_append _ _⟩

/-- What a write to stdout can do. -/
theorem writeStdout_eq (bytes : List Byte) (s : State) :
    writeStdout bytes s =
      if Room.accepts s.ports.stdout.room bytes.length then
        .next { s with ports := { s.ports with stdout := s.ports.stdout.append bytes } }
      else .fault (.sinkFailure { s.ports with stdout := s.ports.stdout.append bytes }) := rfl

/-- What a write to stderr can do. -/
theorem writeStderr_eq (bytes : List Byte) (s : State) :
    writeStderr bytes s =
      if Room.accepts s.ports.stderr.room bytes.length then
        .next { s with ports := { s.ports with stderr := s.ports.stderr.append bytes } }
      else .fault (.sinkFailure { s.ports with stderr := s.ports.stderr.append bytes }) := rfl

end Sys2Proof.Machine
end

