-- ==== Sys2Proof/Laws/Syscall.lean ====
section
/-! SUPPORT. The `syscall` dispatcher: one lemma a call for what it is, the common return, and one inversion lemma that says once
everything a system call that completes can have done. -/

namespace Sys2Proof.Machine

/-! ### Which call -/

theorem execSyscall_mmap {s : State} (h : readReg s 2#5 = callMmap) :
    execSyscall s = sysMmap (readReg s 4#5) (readReg s 5#5) s := by
  simp only [execSyscall, h]
  rfl

theorem execSyscall_brk {s : State} (h : readReg s 2#5 = callBrk) : execSyscall s = sysBrk s := by
  simp only [execSyscall, h]
  rfl

theorem execSyscall_clone {s : State} (h : readReg s 2#5 = callClone) : execSyscall s = sysClone s := by
  simp only [execSyscall, h]
  rfl

theorem execSyscall_exitGroup {s : State} (h : readReg s 2#5 = callExitGroup) :
    execSyscall s = sysExitGroup (readReg s 4#5) s := by
  simp only [execSyscall, h]
  rfl

theorem execSyscall_read {s : State} (h : readReg s 2#5 = callRead) :
    execSyscall s = sysRead (readReg s 4#5) (readReg s 5#5) (readReg s 6#5) s := by
  simp only [execSyscall, h]
  rfl

theorem execSyscall_write {s : State} (h : readReg s 2#5 = callWrite) :
    execSyscall s = sysWrite (readReg s 4#5) (readReg s 5#5) (readReg s 6#5) s := by
  simp only [execSyscall, h]
  rfl

theorem execSyscall_fcntl {s : State} (h : readReg s 2#5 = callFcntl) :
    execSyscall s = sysFcntl (readReg s 4#5) (readReg s 5#5) s := by
  simp only [execSyscall, h]
  rfl

theorem execSyscall_other {s : State}
    (h : readReg s 2#5 ∉ [callMmap, callBrk, callClone, callExitGroup, callRead, callWrite, callFcntl]) :
    execSyscall s = syscallReturn 0 0 s := by
  simp only [List.mem_cons, List.not_mem_nil, or_false, not_or] at h
  simp only [execSyscall, h, if_false]

/-! ### Which descriptor -/

theorem sysRead_preimage (addr count : Word) (s : State) :
    sysRead fdPreimageRead addr count s = readFromPreimage addr count s := rfl

theorem sysWrite_stdout (addr count : Word) (s : State) :
    sysWrite fdStdout addr count s =
      andThen (writeStdout (rangeRead s addr count.toNat) s) (syscallReturn count 0) := rfl

theorem sysWrite_stderr (addr count : Word) (s : State) :
    sysWrite fdStderr addr count s =
      andThen (writeStderr (rangeRead s addr count.toNat) s) (syscallReturn count 0) := rfl

theorem sysWrite_hint (addr count : Word) (s : State) :
    sysWrite fdHintWrite addr count s =
      andThen (writeHint (rangeRead s addr count.toNat) s) (syscallReturn count 0) := rfl

theorem sysWrite_preimage (addr count : Word) (s : State) :
    sysWrite fdPreimageWrite addr count s = writeToPreimage addr count s := rfl

/-! ### The common return -/

/-- The two result registers are written, the program-counter pair advances, nothing else changes. -/
theorem syscallReturn_spec (v0 v1 : Word) (s : State) :
    ∃ t, syscallReturn v0 v1 s = .next t ∧ OnlyReturns s t v0 v1 := by
  refine ⟨_, rfl, ⟨?_, ?_, fun q h2 h7 => ?_, ?_, ?_⟩, fun a => memByte_congr ?_ a, ?_⟩
  · rw [readReg_advance, readReg_writeReg_of_ne _ _ (by decide), readReg_writeReg_same]
    rfl
  · rw [readReg_advance, readReg_writeReg_same]
    rfl
  · rw [readReg_advance, readReg_writeReg_of_ne _ _ h7, readReg_writeReg_of_ne _ _ h2]
  · simp
  · simp
  · simp
  · apply State.ext <;> simp

theorem syscallReturn_eq (v0 v1 : Word) (s : State) :
    syscallReturn v0 v1 s = .next (advance (writeReg (writeReg s 2#5 v0) 7#5 v1)) := rfl

/-! ### Everything a system call can have done -/

/-- What a call other than exit_group did before its common return: the state it left, and its two results. -/
inductive CallEffect (s : State) : State → Word → Word → Prop where
  /-- Nothing but its results. -/
  | results (v0 v1 : Word) : CallEffect s s v0 v1
  /-- mmap in heap mode. -/
  | heap (size : Nat) (h : s.heap.toNat + size < 2 ^ 32) :
      CallEffect s { s with heap := BitVec.ofNat 32 (s.heap.toNat + size) } s.heap 0
  /-- A write to stdout. -/
  | stdout (bytes : List Byte) (v0 : Word) (h : Room.accepts s.ports.stdout.room bytes.length = true) :
      CallEffect s { s with ports := { s.ports with stdout := s.ports.stdout.append bytes } } v0 0
  /-- A write to stderr. -/
  | stderr (bytes : List Byte) (v0 : Word) (h : Room.accepts s.ports.stderr.room bytes.length = true) :
      CallEffect s { s with ports := { s.ports with stderr := s.ports.stderr.append bytes } } v0 0
  /-- A write of hint bytes. -/
  | hint (u : State) (v0 : Word) (h : writeHint (rangeRead s (readReg s 5#5) (readReg s 6#5).toNat) s = .next u) :
      CallEffect s u v0 0
  /-- A read of the preimage. -/
  | preimageRead (s1 s2 : State) (hr : readReg s 2#5 = callRead) (hf : readReg s 4#5 = fdPreimageRead)
      (h1 : track (alignDown (readReg s 5#5)) s = .next s1)
      (h2 : readPreimage s1.preimageKey s1.preimageOffset s1 = .next s2) :
      CallEffect s (deliverPreimage (readReg s 5#5) (readReg s 6#5) s2).1 (deliverPreimage (readReg s 5#5) (readReg s 6#5) s2).2 0
  /-- A write of key bytes. -/
  | preimageWrite (s1 : State) (h1 : track (alignDown (readReg s 5#5)) s = .next s1) :
      CallEffect s (acceptKeyBytes (readReg s 5#5) (readReg s 6#5) s1).1 (acceptKeyBytes (readReg s 5#5) (readReg s 6#5) s1).2 0

/-- A call that completes was exit_group, or had one of the effects above and then returned. -/
theorem execSyscall_eq_next {s t : State} (h : execSyscall s = .next t) :
    (readReg s 2#5 = callExitGroup ∧ t = { s with exited := true, exitCode := (readReg s 4#5).setWidth 8 }) ∨
    (readReg s 2#5 ≠ callExitGroup ∧ ∃ u v0 v1, CallEffect s u v0 v1 ∧ t = advance (writeReg (writeReg u 2#5 v0) 7#5 v1)) := by
  have ret : ∀ {u : State} {v0 v1 : Word}, CallEffect s u v0 v1 → syscallReturn v0 v1 u = .next t →
      ∃ u v0 v1, CallEffect s u v0 v1 ∧ t = advance (writeReg (writeReg u 2#5 v0) 7#5 v1) := by
    intro u v0 v1 hc hr
    exact ⟨u, v0, v1, hc, by simpa [syscallReturn] using hr.symm⟩
  by_cases hm : readReg s 2#5 = callMmap
  · refine .inr ⟨by rw [hm]; decide, ?_⟩
    rw [execSyscall_mmap hm, sysMmap] at h
    split at h
    · split at h
      · simp [raise] at h
      · next hlt => exact ret (.heap _ (Nat.not_le.1 hlt)) h
    · exact ret (.results _ _) h
  by_cases hb : readReg s 2#5 = callBrk
  · refine .inr ⟨by rw [hb]; decide, ?_⟩
    rw [execSyscall_brk hb] at h
    exact ret (.results _ _) h
  by_cases hc : readReg s 2#5 = callClone
  · refine .inr ⟨by rw [hc]; decide, ?_⟩
    rw [execSyscall_clone hc] at h
    exact ret (.results _ _) h
  by_cases he : readReg s 2#5 = callExitGroup
  · rw [execSyscall_exitGroup he] at h
    exact .inl ⟨he, by simpa [sysExitGroup] using h.symm⟩
  refine .inr ⟨he, ?_⟩
  by_cases hr : readReg s 2#5 = callRead
  · rw [execSyscall_read hr, sysRead] at h
    split at h
    · exact ret (.results _ _) h
    · split at h
      · next hf =>
        obtain ⟨s1, h1, h⟩ := andThen_eq_next.1 h
        obtain ⟨s2, h2, h⟩ := andThen_eq_next.1 h
        exact ret (.preimageRead s1 s2 hr hf h1 h2) h
      · split at h
        · exact ret (.results _ _) h
        · exact ret (.results _ _) h
  by_cases hw : readReg s 2#5 = callWrite
  · rw [execSyscall_write hw, sysWrite] at h
    split at h
    · obtain ⟨s1, h1, h⟩ := andThen_eq_next.1 h
      rw [writeStdout_eq] at h1
      split at h1
      · next ha =>
        obtain rfl := Host.Outcome.next.inj h1
        exact ret (.stdout _ _ ha) h
      · simp at h1
    · split at h
      · obtain ⟨s1, h1, h⟩ := andThen_eq_next.1 h
        rw [writeStderr_eq] at h1
        split at h1
        · next ha =>
          obtain rfl := Host.Outcome.next.inj h1
          exact ret (.stderr _ _ ha) h
        · simp at h1
      · split at h
        · obtain ⟨s1, h1, h⟩ := andThen_eq_next.1 h
          exact ret (.hint s1 _ h1) h
        · split at h
          · obtain ⟨s1, h1, h⟩ := andThen_eq_next.1 h
            exact ret (.preimageWrite s1 h1) h
          · exact ret (.results _ _) h
  by_cases hf : readReg s 2#5 = callFcntl
  · rw [execSyscall_fcntl hf, sysFcntl] at h
    split at h
    · split at h
      · exact ret (.results _ _) h
      · split at h
        · exact ret (.results _ _) h
        · exact ret (.results _ _) h
    · exact ret (.results _ _) h
  · rw [execSyscall_other (by simp [hm, hb, hc, he, hr, hw, hf])] at h
    exact ret (.results _ _) h

theorem writeHint_ne_refused (bytes : List Byte) (s : State) (e : Refusal) : writeHint bytes s ≠ .refused e := by
  unfold writeHint raise
  simp only
  split <;> simp

/-- A write of hint bytes that aborts: the ports of the cause hold the payloads sent before the one that failed. -/
theorem writeHint_eq_fault {bytes : List Byte} {s : State} {f : Fault} (h : writeHint bytes s = .fault f) :
    ∃ payloads, f = .sinkFailure (s.ports.sendHints payloads) ∧
      Room.accepts s.ports.hintRoom payloads.length = false := by
  unfold writeHint raise at h
  simp only at h
  split at h
  · simp at h
  · next hr => exact ⟨_, by simpa using h.symm, by simpa using hr⟩

/-- A write of hint bytes that completes: the buffer with the new bytes is the records forwarded, then what stays. -/
theorem writeHint_eq_next {bytes : List Byte} {s t : State} (h : writeHint bytes s = .next t) :
    ∃ payloads, s.lastHint ++ bytes = (payloads.map prefixed).flatten ++ t.lastHint ∧
      completeRecord t.lastHint = false ∧ (∀ p ∈ payloads, p.length < 2 ^ 32) ∧
      Room.accepts s.ports.hintRoom payloads.length = true ∧
      t = { s with lastHint := t.lastHint, ports := s.ports.sendHints payloads } := by
  obtain ⟨e1, e2, e3⟩ := extractHints_spec (s.lastHint ++ bytes).length (s.lastHint ++ bytes) (Nat.le_refl _)
  unfold writeHint at h
  simp only at h
  split at h
  · next hroom =>
    simp only [Host.Outcome.next.injEq] at h
    subst h
    exact ⟨_, e1, e2, e3, hroom, rfl⟩
  · simp [raise] at h

/-- The causes a system call can stop with. A cause that arises at a port carries the ports as they were, with what they did in
this step added. -/
theorem execSyscall_eq_fault {s : State} {f : Fault} (h : execSyscall s = .fault f) :
    f = .heapOverflow ∨ (∃ p, s.ports.Extends p ∧ (f = .oracleFailure p ∨ f = .oracleBlocked p ∨ f = .sinkFailure p)) ∨
      (f = .dualAddress ∧ s.lastMemAccess ≠ none) := by
  have noret : ∀ {v0 v1 : Word} {u : State}, syscallReturn v0 v1 u ≠ .fault f := by simp [syscallReturn]
  by_cases hm : readReg s 2#5 = callMmap
  · rw [execSyscall_mmap hm, sysMmap] at h
    split at h
    · split at h
      · simp only [raise, Host.Outcome.fault.injEq] at h
        exact .inl h.symm
      · exact absurd h noret
    · exact absurd h noret
  by_cases hb : readReg s 2#5 = callBrk
  · rw [execSyscall_brk hb] at h
    exact absurd h noret
  by_cases hc : readReg s 2#5 = callClone
  · rw [execSyscall_clone hc] at h
    exact absurd h noret
  by_cases he : readReg s 2#5 = callExitGroup
  · rw [execSyscall_exitGroup he] at h
    simp [sysExitGroup] at h
  by_cases hr : readReg s 2#5 = callRead
  · rw [execSyscall_read hr, sysRead] at h
    split at h
    · exact absurd h noret
    · split at h
      · rcases andThen_eq_fault.1 h with h1 | ⟨s1, h1, h⟩
        · obtain ⟨e, hn, _⟩ := track_eq_fault h1
          exact .inr (.inr ⟨e, hn⟩)
        · rcases andThen_eq_fault.1 h with h2 | ⟨s2, _, h⟩
          · rcases andThen_eq_fault.1 h2 with h3 | ⟨_, _, h3⟩
            · have hx : s.ports.Extends (s1.ports.askPreimage s1.preimageKey) := by
                rw [track_ports h1]
                exact s.ports.askPreimage_extends _
              rcases fetchPreimage_eq_fault h3 with h4 | h4
              · exact .inr (.inl ⟨_, hx, .inl h4⟩)
              · exact .inr (.inl ⟨_, hx, .inr (.inl h4)⟩)
            · simp at h3
          · exact absurd h noret
      · split at h <;> exact absurd h noret
  by_cases hw : readReg s 2#5 = callWrite
  · rw [execSyscall_write hw, sysWrite] at h
    have sink : ∀ {p : Ports}, s.ports.Extends p → f = .sinkFailure p → ∃ p, s.ports.Extends p ∧
        (f = .oracleFailure p ∨ f = .oracleBlocked p ∨ f = .sinkFailure p) := fun hx hf => ⟨_, hx, .inr (.inr hf)⟩
    split at h
    · rcases andThen_eq_fault.1 h with h1 | ⟨s1, _, h⟩
      · rw [writeStdout_eq] at h1
        split at h1
        · simp at h1
        · exact .inr (.inl (sink (s.ports.stdout_extends _) (Host.Outcome.fault.inj h1).symm))
      · exact absurd h noret
    · split at h
      · rcases andThen_eq_fault.1 h with h1 | ⟨s1, _, h⟩
        · rw [writeStderr_eq] at h1
          split at h1
          · simp at h1
          · exact .inr (.inl (sink (s.ports.stderr_extends _) (Host.Outcome.fault.inj h1).symm))
        · exact absurd h noret
      · split at h
        · rcases andThen_eq_fault.1 h with h1 | ⟨s1, _, h⟩
          · obtain ⟨_, e, _⟩ := writeHint_eq_fault h1
            exact .inr (.inl (sink (s.ports.sendHints_extends _) e))
          · exact absurd h noret
        · split at h
          · rcases andThen_eq_fault.1 h with h1 | ⟨s1, _, h⟩
            · obtain ⟨e, hn, _⟩ := track_eq_fault h1
              exact .inr (.inr ⟨e, hn⟩)
            · exact absurd h noret
          · exact absurd h noret
  by_cases hf : readReg s 2#5 = callFcntl
  · rw [execSyscall_fcntl hf, sysFcntl] at h
    split at h
    · split at h
      · exact absurd h noret
      · split at h <;> exact absurd h noret
    · exact absurd h noret
  · rw [execSyscall_other (by simp [hm, hb, hc, he, hr, hw, hf])] at h
    exact absurd h noret

theorem execSyscall_ne_refused (s : State) (e : Refusal) : execSyscall s ≠ .refused e := by
  intro h
  have noret : ∀ {v0 v1 : Word} {u : State}, syscallReturn v0 v1 u ≠ .refused e := by simp [syscallReturn]
  by_cases hm : readReg s 2#5 = callMmap
  · rw [execSyscall_mmap hm, sysMmap] at h
    split at h
    · split at h
      · simp [raise] at h
      · exact noret h
    · exact noret h
  by_cases hb : readReg s 2#5 = callBrk
  · rw [execSyscall_brk hb] at h
    exact noret h
  by_cases hc : readReg s 2#5 = callClone
  · rw [execSyscall_clone hc] at h
    exact noret h
  by_cases he : readReg s 2#5 = callExitGroup
  · rw [execSyscall_exitGroup he] at h
    simp [sysExitGroup] at h
  by_cases hr : readReg s 2#5 = callRead
  · rw [execSyscall_read hr, sysRead] at h
    split at h
    · exact noret h
    · split at h
      · rcases andThen_eq_refused.1 h with h1 | ⟨s1, _, h⟩
        · exact track_ne_refused _ _ _ h1
        · rcases andThen_eq_refused.1 h with h2 | ⟨s2, _, h⟩
          · rcases andThen_eq_refused.1 h2 with h3 | ⟨_, _, h3⟩
            · exact fetchPreimage_ne_refused _ _ _ h3
            · simp at h3
          · exact noret h
      · split at h <;> exact noret h
  by_cases hw : readReg s 2#5 = callWrite
  · rw [execSyscall_write hw, sysWrite] at h
    split at h
    · rcases andThen_eq_refused.1 h with h1 | ⟨s1, _, h⟩
      · rw [writeStdout_eq] at h1
        split at h1 <;> simp at h1
      · exact noret h
    · split at h
      · rcases andThen_eq_refused.1 h with h1 | ⟨s1, _, h⟩
        · rw [writeStderr_eq] at h1
          split at h1 <;> simp at h1
        · exact noret h
      · split at h
        · rcases andThen_eq_refused.1 h with h1 | ⟨s1, _, h⟩
          · exact writeHint_ne_refused _ _ _ h1
          · exact noret h
        · split at h
          · rcases andThen_eq_refused.1 h with h1 | ⟨s1, _, h⟩
            · exact track_ne_refused _ _ _ h1
            · exact noret h
          · exact noret h
  by_cases hf : readReg s 2#5 = callFcntl
  · rw [execSyscall_fcntl hf, sysFcntl] at h
    split at h
    · split at h
      · exact noret h
      · split at h <;> exact noret h
    · exact noret h
  · rw [execSyscall_other (by simp [hm, hb, hc, he, hr, hw, hf])] at h
    exact noret h

end Sys2Proof.Machine
end

