-- ==== Sys2Proof/Laws/Step.lean ====
section
/-! SUPPORT. Everything an instruction that completes can have done, once (`InstrEffect`), everything it can abort with, and what
follows for the parts of the state that most instructions leave alone. -/

namespace Sys2Proof.Machine

/-- The shapes of a completed instruction. -/
inductive InstrEffect (i : Instr) (s : State) : State → Prop where
  /-- At most one general register. -/
  | register (r : Reg) (v : Word) (hc : isControl i = false) (hs : i ≠ .syscall) :
      InstrEffect i s (advance (writeReg s r v))
  /-- `hi` and `lo`. -/
  | hiLo (h l : Word) (hw : writesHiLo i = true) : InstrEffect i s (advance { s with hi := h, lo := l })
  /-- A load. -/
  | loaded (a : Word) (s1 : State) (r : Reg) (v : Word) (hl : isLoadOrStore i = true) (h1 : track a s = .next s1) :
      InstrEffect i s (advance (writeReg s1 r v))
  /-- A store, with the 1 of store-conditional. -/
  | stored (ea : Word) (s1 : State) (r : Reg) (v w : Word) (hl : isStore i = true)
      (h1 : track (alignDown ea) s = .next s1) :
      InstrEffect i s (advance (memWrite (writeReg s1 r v) (alignDown ea) w))
  /-- A branch or a jump. -/
  | control (d : Word) (r : Reg) (v : Word) (hc : isControl i = true) :
      InstrEffect i s (writeReg { s with pc := s.nextPc, nextPc := d } r v)
  /-- A system call. -/
  | call (t : State) (hs : i = .syscall) (h : execSyscall s = .next t) : InstrEffect i s t

theorem InstrEffect.ofWriteback {i : Instr} {s t : State} {r : Reg} {v : Word} {c : Bool} (hc : isControl i = false)
    (hs : i ≠ .syscall) (h : writeback r.toNat v c s = .next t) : InstrEffect i s t := by
  rw [writeback_reg, Host.Outcome.next.injEq] at h
  subst h
  cases c with
  | true => exact .register r v hc hs
  | false =>
    have e := InstrEffect.register (i := i) (s := s) 0#5 v hc hs
    rwa [writeReg_zero] at e

theorem InstrEffect.ofBranch {i : Instr} {s t : State} {c : Bool} {imm : BitVec 16} (hc : isControl i = true)
    (h : branch c imm s = .next t) : InstrEffect i s t := by
  rw [branch, Host.Outcome.next.injEq] at h
  subst h
  have e := InstrEffect.control (i := i) (s := s) (if c then branchTarget s.pc imm else s.nextPc + 4) 0#5 0 hc
  rwa [writeReg_zero] at e

theorem InstrEffect.ofJump {i : Instr} {s t : State} {r : Reg} {d : Word} (hc : isControl i = true)
    (h : jump r d s = .next t) : InstrEffect i s t := by
  rw [jump, Host.Outcome.next.injEq] at h
  subst h
  exact .control d r _ hc

theorem InstrEffect.ofLoad {i : Instr} {s t : State} {value : Word → Word → Word → Word} {rt rs : Reg}
    {imm : BitVec 16} (hl : isLoadOrStore i = true) (h : load value rt imm rs s = .next t) : InstrEffect i s t := by
  obtain ⟨s1, h1, h⟩ := andThen_eq_next.1 h
  rw [writeback_reg, if_pos rfl, Host.Outcome.next.injEq] at h
  subst h
  exact .loaded _ s1 rt _ hl h1

theorem InstrEffect.ofStore {i : Instr} {s t : State} {value : Word → Word → Word → Word} {rt rs : Reg}
    {imm : BitVec 16} (hl : isStore i = true) (h : store value rt imm rs s = .next t) : InstrEffect i s t := by
  obtain ⟨s1, h1, h⟩ := andThen_eq_next.1 h
  rw [writeback_zero, Host.Outcome.next.injEq] at h
  subst h
  have e := InstrEffect.stored (i := i) (s := s) _ s1 0#5 0
    (value (effectiveAddress (readReg s rs) imm) (readReg s rt)
      (memRead s1 (alignDown (effectiveAddress (readReg s rs) imm)))) hl h1
  rwa [writeReg_zero] at e

theorem InstrEffect.ofSetHiLo {i : Instr} {s t : State} {h l : Word} (hw : writesHiLo i = true)
    (he : setHiLo h l s = .next t) : InstrEffect i s t := by
  rw [setHiLo, Host.Outcome.next.injEq] at he
  subst he
  exact .hiLo h l hw

theorem InstrEffect.ofDivideByZero {i : Instr} {s t : State} {n q : Word} (hw : writesHiLo i = true)
    (he : divideByZero n q s = .next t) : InstrEffect i s t := by
  unfold divideByZero at he
  split at he
  · simp [raise] at he
  · rw [Host.Outcome.next.injEq] at he
    subst he
    exact .hiLo s.hi s.lo hw
  · exact .ofSetHiLo hw he

theorem InstrEffect.ofDivideOverflow {i : Instr} {s t : State} (hw : writesHiLo i = true)
    (he : divideOverflow s = .next t) : InstrEffect i s t := by
  unfold divideOverflow at he
  split at he
  · simp [raise] at he
  · exact .ofSetHiLo hw he

/-- Everything a completed instruction can have done. -/
theorem exec_eq_next {i : Instr} {s t : State} (h : exec i s = .next t) : InstrEffect i s t := by
  cases i with
  | j _ | jal _ | jr _ | jalr _ _ => exact .ofJump rfl h
  | beq _ _ _ | bne _ _ _ | blez _ _ | bgtz _ _ | bltz _ _ | bgez _ _ => exact .ofBranch rfl h
  | lb _ _ _ | lh _ _ _ | lwl _ _ _ | lw _ _ _ | lbu _ _ _ | lhu _ _ _ | lwr _ _ _ | ll _ _ _ => exact .ofLoad rfl h
  | sb _ _ _ | sh _ _ _ | swl _ _ _ | sw _ _ _ | swr _ _ _ => exact .ofStore rfl h
  | sc rt imm rs =>
    obtain ⟨s1, h1, h⟩ := andThen_eq_next.1 (show execSc rt imm rs s = .next t from h)
    rw [writeback_zero, Host.Outcome.next.injEq] at h
    subst h
    exact .stored _ s1 rt 1 _ rfl h1
  | mfhi rd | mflo rd =>
    simp only [exec, execMfhi, execMflo, Host.Outcome.next.injEq] at h
    subst h
    exact .register rd _ rfl (by simp)
  | mthi rs =>
    simp only [exec, execMthi, Host.Outcome.next.injEq] at h
    subst h
    exact .hiLo _ s.lo rfl
  | mtlo rs =>
    simp only [exec, execMtlo, Host.Outcome.next.injEq] at h
    subst h
    exact .hiLo s.hi _ rfl
  | mult _ _ | multu _ _ => exact .ofSetHiLo rfl h
  | div rs rt =>
    simp only [exec, execDiv] at h
    split at h
    · exact .ofDivideByZero rfl h
    · split at h
      · exact .ofDivideOverflow rfl h
      · exact .ofSetHiLo rfl h
  | divu rs rt =>
    simp only [exec, execDivu] at h
    split at h
    · exact .ofDivideByZero rfl h
    · exact .ofSetHiLo rfl h
  | syscall => exact .call t rfl h
  | _ => exact .ofWriteback rfl (by simp) h

/-- Everything an instruction can abort with: `div` and `divu` by their policies, a system call by the oracle, a sink or the
heap, and the access tracker if the step has tracked an access already. -/
theorem exec_eq_fault {i : Instr} {s : State} {f : Fault} (h : exec i s = .fault f) :
    (f = .divideByZero ∧ ∃ rs rt, (i = .div rs rt ∨ i = .divu rs rt) ∧ readReg s rt = 0#32) ∨
    (f = .divideOverflow ∧ ∃ rs rt, i = .div rs rt ∧ readReg s rs = 0x80000000#32 ∧ readReg s rt = 0xFFFFFFFF#32) ∨
    (i = .syscall ∧ (f = .heapOverflow ∨
      ∃ p, s.ports.Extends p ∧ (f = .oracleFailure p ∨ f = .oracleBlocked p ∨ f = .sinkFailure p))) ∨
    (f = .dualAddress ∧ s.lastMemAccess ≠ none) := by
  have trk : ∀ {a : Word} {k : State → Result}, andThen (track a s) k = .fault f → (∀ u, k u ≠ .fault f) →
      f = .dualAddress ∧ s.lastMemAccess ≠ none := by
    intro a k hh hk
    rcases andThen_eq_fault.1 hh with h1 | ⟨s1, _, h1⟩
    · obtain ⟨e, hn, _⟩ := track_eq_fault h1
      exact ⟨e, hn⟩
    · exact absurd h1 (hk s1)
  cases i with
  | lb _ _ _ | lh _ _ _ | lwl _ _ _ | lw _ _ _ | lbu _ _ _ | lhu _ _ _ | lwr _ _ _ | ll _ _ _ =>
    exact .inr (.inr (.inr (trk h fun u => by simp [writeback_reg])))
  | sb _ _ _ | sh _ _ _ | swl _ _ _ | sw _ _ _ | swr _ _ _ | sc _ _ _ =>
    exact .inr (.inr (.inr (trk h fun u => by simp [writeback_zero])))
  | div rs rt =>
    simp only [exec, execDiv] at h
    split at h
    · next h0 =>
      unfold divideByZero at h
      split at h
      · exact .inl ⟨by simpa [raise] using h.symm, rs, rt, .inl rfl, h0⟩
      · simp at h
      · simp [setHiLo] at h
    · split at h
      · next hn =>
        unfold divideOverflow at h
        split at h
        · exact .inr (.inl ⟨by simpa [raise] using h.symm, rs, rt, rfl, hn.1, hn.2⟩)
        · simp [setHiLo] at h
      · simp [setHiLo] at h
  | divu rs rt =>
    simp only [exec, execDivu] at h
    split at h
    · next h0 =>
      unfold divideByZero at h
      split at h
      · exact .inl ⟨by simpa [raise] using h.symm, rs, rt, .inr rfl, h0⟩
      · simp at h
      · simp [setHiLo] at h
    · simp [setHiLo] at h
  | syscall =>
    rcases execSyscall_eq_fault h with h | h | h
    · exact .inr (.inr (.inl ⟨rfl, .inl h⟩))
    · exact .inr (.inr (.inl ⟨rfl, .inr h⟩))
    · exact .inr (.inr (.inr h))
  | j _ | jal _ | jr _ | jalr _ _ => simp [exec, execJ, execJal, execJr, execJalr, jump] at h
  | beq _ _ _ | bne _ _ _ | blez _ _ | bgtz _ _ | bltz _ _ | bgez _ _ =>
    simp [exec, execBeq, execBne, execBlez, execBgtz, execBltz, execBgez, branch] at h
  | mfhi _ | mthi _ | mflo _ | mtlo _ => simp [exec, execMfhi, execMthi, execMflo, execMtlo] at h
  | mult _ _ | multu _ _ => simp [exec, execMult, execMultu, setHiLo] at h
  | _ => exact absurd ((writeback_reg _ _ _ _).symm.trans h) (by simp)

/-- No instruction is refused. -/
theorem exec_ne_refused (i : Instr) (s : State) (e : Refusal) : exec i s ≠ .refused e := by
  intro h
  have trk : ∀ {a : Word} {k : State → Result}, andThen (track a s) k = .refused e → (∀ u, k u ≠ .refused e) → False := by
    intro a k hh hk
    rcases andThen_eq_refused.1 hh with h1 | ⟨s1, _, h1⟩
    · exact track_ne_refused _ _ _ h1
    · exact hk s1 h1
  cases i with
  | lb _ _ _ | lh _ _ _ | lwl _ _ _ | lw _ _ _ | lbu _ _ _ | lhu _ _ _ | lwr _ _ _ | ll _ _ _ =>
    exact trk h fun u => by simp [writeback_reg]
  | sb _ _ _ | sh _ _ _ | swl _ _ _ | sw _ _ _ | swr _ _ _ | sc _ _ _ => exact trk h fun u => by simp [writeback_zero]
  | div rs rt =>
    simp only [exec, execDiv, divideByZero, divideOverflow, raise, setHiLo] at h
    split at h
    · split at h <;> simp at h
    · split at h
      · split at h <;> simp at h
      · simp at h
  | divu rs rt =>
    simp only [exec, execDivu, divideByZero, raise, setHiLo] at h
    split at h
    · split at h <;> simp at h
    · simp at h
  | syscall => exact execSyscall_ne_refused s e h
  | j _ | jal _ | jr _ | jalr _ _ => simp [exec, execJ, execJal, execJr, execJalr, jump] at h
  | beq _ _ _ | bne _ _ _ | blez _ _ | bgtz _ _ | bltz _ _ | bgez _ _ =>
    simp [exec, execBeq, execBne, execBlez, execBgtz, execBltz, execBgez, branch] at h
  | mfhi _ | mthi _ | mflo _ | mtlo _ => simp [exec, execMfhi, execMthi, execMflo, execMtlo] at h
  | mult _ _ | multu _ _ => simp [exec, execMult, execMultu, setHiLo] at h
  | _ => exact absurd ((writeback_reg _ _ _ _).symm.trans h) (by simp)

/-! ### The ports -/

theorem CallEffect.ports_extends {s u : State} {v0 v1 : Word} (h : CallEffect s u v0 v1) : s.ports.Extends u.ports := by
  cases h with
  | results _ _ | heap _ _ => exact .refl _
  | stdout bytes _ _ => exact s.ports.stdout_extends bytes
  | stderr bytes _ _ => exact s.ports.stderr_extends bytes
  | hint u _ h =>
    obtain ⟨payloads, _, _, _, _, e⟩ := writeHint_eq_next h
    rw [e]
    exact s.ports.sendHints_extends payloads
  | preimageRead s1 s2 _ _ h1 h2 =>
    obtain ⟨s3, h3, e⟩ := readPreimage_eq_next h2
    rw [deliverPreimage_ports, e, ← track_ports h1]
    rcases fetchPreimage_eq_next h3 with ⟨_, rfl⟩ | ⟨_, _, _, e⟩
    · exact .refl _
    · rw [e]
      exact s1.ports.askPreimage_extends _
  | preimageWrite s1 h1 =>
    rw [acceptKeyBytes_ports, track_ports h1]
    exact .refl _

/-- A completed instruction takes nothing back from a port, and only a system call uses one. -/
theorem exec_next_ports {i : Instr} {s t : State} (h : exec i s = .next t) :
    s.ports.Extends t.ports ∧ (i ≠ .syscall → t.ports = s.ports) := by
  cases exec_eq_next h with
  | register _ _ _ _ | hiLo _ _ _ | control _ _ _ _ => simp [Ports.Extends.refl]
  | loaded _ _ _ _ _ h1 | stored _ _ _ _ _ _ h1 => simp [track_ports h1, Ports.Extends.refl]
  | call _ hs h =>
    refine ⟨?_, fun hn => absurd hs hn⟩
    rcases execSyscall_eq_next h with ⟨_, rfl⟩ | ⟨_, u, v0, v1, hc, rfl⟩
    · exact .refl _
    · simpa using hc.ports_extends

/-- An instruction that stops takes nothing back from a port either. -/
theorem exec_fault_ports {i : Instr} {s : State} {f : Fault} (h : exec i s = .fault f) :
    s.ports.Extends (f.portsAfter s.ports) ∧ (i ≠ .syscall → f.portsAfter s.ports = s.ports) := by
  have e := exec_eq_fault h
  clear h
  rcases e with ⟨e, _⟩ | ⟨e, _⟩ | ⟨hs, e | ⟨p, hp, e | e | e⟩⟩ | ⟨e, _⟩
  · exact e ▸ ⟨.refl _, fun _ => rfl⟩
  · exact e ▸ ⟨.refl _, fun _ => rfl⟩
  · exact e ▸ ⟨.refl _, fun _ => rfl⟩
  · exact e ▸ ⟨hp, fun hn => absurd hs hn⟩
  · exact e ▸ ⟨hp, fun hn => absurd hs hn⟩
  · exact e ▸ ⟨hp, fun hn => absurd hs hn⟩
  · exact e ▸ ⟨.refl _, fun _ => rfl⟩

/-! ### The step counter and the launch parameters -/

theorem CallEffect.bookkeeping {s u : State} {v0 v1 : Word} (h : CallEffect s u v0 v1) :
    u.stepCount = s.stepCount ∧ u.cfg = s.cfg := by
  cases h with
  | results _ _ | heap _ _ | stdout _ _ _ | stderr _ _ _ => exact ⟨rfl, rfl⟩
  | hint u _ h =>
    obtain ⟨_, _, _, _, _, e⟩ := writeHint_eq_next h
    rw [e]
    exact ⟨rfl, rfl⟩
  | preimageRead s1 s2 _ _ h1 h2 =>
    obtain ⟨s3, h3, e⟩ := readPreimage_eq_next h2
    rw [deliverPreimage_stepCount, deliverPreimage_cfg, e]
    rcases fetchPreimage_eq_next h3 with ⟨_, e⟩ | ⟨_, _, _, e⟩ <;> rw [e, (track_eq_next h1).2.2] <;> exact ⟨rfl, rfl⟩
  | preimageWrite s1 h1 =>
    rw [acceptKeyBytes_stepCount, acceptKeyBytes_cfg, (track_eq_next h1).2.2]
    exact ⟨rfl, rfl⟩

/-- No instruction touches the step counter or the launch parameters; the step counts itself before (`beginStep`). -/
theorem exec_next_bookkeeping {i : Instr} {s t : State} (h : exec i s = .next t) :
    t.stepCount = s.stepCount ∧ t.cfg = s.cfg := by
  cases exec_eq_next h with
  | register _ _ _ _ | hiLo _ _ _ | control _ _ _ _ => simp
  | loaded _ _ _ _ _ h1 | stored _ _ _ _ _ _ h1 => rw [(track_eq_next h1).2.2]; simp
  | call _ _ h =>
    rcases execSyscall_eq_next h with ⟨_, rfl⟩ | ⟨_, u, v0, v1, hc, rfl⟩
    · exact ⟨rfl, rfl⟩
    · simpa using hc.bookkeeping

end Sys2Proof.Machine
end

