-- ==== Sys2Proof/Tests/Slice0.lean ====
section
/-! SUPPORT. The model's own tests. Expected results are the spec's: the examples of the rules R130 to R290 and the vectors of
95_test_vectors.md, Part 2, whose start state `start` builds. The last part shows, for every statement that has hypotheses, a
concrete state and operands that meet them. -/

namespace Sys2Proof.Tests

open Sys2Proof.Machine

/-! ### Helpers -/

/-- The start of a vector: the word at 0x1000 about to retire, some registers, some words of memory. -/
def start (word : Word) (regs : List (Reg × Word)) (mem : List (Word × Word)) : State :=
  regs.foldl (fun s r => writeReg s r.1 r.2)
    { State.reset with
      pc := 0x1000, nextPc := 0x1004, heap := 0x20000000
      mem := mem.foldl (fun m e => Memory.writeWord m e.1 e.2) (Memory.writeWord [] 0x1000 word) }

/-- A `syscall` with its number and arguments; `x[7]` holds 0x77 to show whether it is written. -/
def call (num a0 a1 a2 : Word) (mem : List (Word × Word)) : State :=
  start 0x0000000C [(2, num), (4, a0), (5, a1), (6, a2), (7, 0x77)] mem

/-- Something about the state one step later; `none` if the step does not complete. -/
def after {α : Type} (s : State) (f : State → α) : Option α :=
  match step s with
  | .next t => some (f t)
  | _ => none

/-- What a step aborts with. -/
def abortOf (s : State) : Option Fault :=
  match step s with
  | .fault f => some f
  | _ => none

/-- The result registers of a system call. -/
def results (t : State) : Word × Word := (readReg t 2, readReg t 7)

/-- The key of 32 zero bytes. -/
def zeroKey : Key := Vector.replicate 32 0

/-- An oracle that knows one blob, for that key. -/
def withBlob (s : State) (bytes : List Byte) : State :=
  { s with ports := Ports.fresh [(zeroKey, .blob bytes)] none none none }


/-! ### Well-formedness: a word no row of the table applies to is refused (30_encoding.md R96, R303) -/

theorem test_illegal_opcode : legalWord 0x40000000 = false ∧ decode 0x40000000 = .error .invalidInstruction := by decide

theorem test_illegal_special_funct :
    legalWord 0x00000001 = false ∧ decode 0x00000001 = .error .invalidInstruction := by decide

theorem test_illegal_special2_funct :
    legalWord 0x70220000 = false ∧ decode 0x70220000 = .error .invalidInstruction := by decide

theorem test_illegal_regimm : legalWord 0x04620000 = false ∧ decode 0x04620000 = .error .invalidBranch := by decide

theorem test_truncated_word : decodeBytes [0x00, 0x00, 0x00] = .error .truncated := by decide

theorem test_legal_nop : legalWord 0x00000000 = true := by decide

/-! ### Decoding: a word for every constructor, written out from the encodings of 30_encoding.md R90 to R94 -/

theorem test_decode_jumps :
    ([(0x08000800, .j 0x800), (0x0C000408, .jal 0x408), (0x00A00008, .jr 5), (0x0020F809, .jalr 31 1)] :
      List (Word × Instr)).all (fun p => decide (decode p.1 = .ok p.2)) = true := by decide

theorem test_decode_branches :
    ([(0x10220003, .beq 1 2 3), (0x1422FFFE, .bne 1 2 0xFFFE), (0x18207FFF, .blez 1 0x7FFF),
        (0x1C200004, .bgtz 1 4), (0x04208000, .bltz 1 0x8000), (0x04210004, .bgez 1 4)] :
      List (Word × Instr)).all (fun p => decide (decode p.1 = .ok p.2)) = true := by decide

theorem test_decode_shifts :
    ([(0x00021FC0, .sll 3 2 31), (0x00021902, .srl 3 2 4), (0x00021903, .sra 3 2 4), (0x00221804, .sllv 3 2 1),
        (0x00221806, .srlv 3 2 1), (0x00221807, .srav 3 2 1)] :
      List (Word × Instr)).all (fun p => decide (decode p.1 = .ok p.2)) = true := by decide

theorem test_decode_register :
    ([(0x00221820, .add 3 1 2), (0x00221821, .addu 3 1 2), (0x00221822, .sub 3 1 2), (0x00221823, .subu 3 1 2),
        (0x00221824, .and 3 1 2), (0x00221825, .or 3 1 2), (0x00221826, .xor 3 1 2), (0x00221827, .nor 3 1 2),
        (0x0022182A, .slt 3 1 2), (0x0022182B, .sltu 3 1 2)] :
      List (Word × Instr)).all (fun p => decide (decode p.1 = .ok p.2)) = true := by decide

theorem test_decode_immediate :
    ([(0x2022FFFF, .addi 2 1 0xFFFF), (0x24228000, .addiu 2 1 0x8000), (0x2822FFFF, .slti 2 1 0xFFFF),
        (0x2C220001, .sltiu 2 1 1), (0x3022FFFF, .andi 2 1 0xFFFF), (0x34228000, .ori 2 1 0x8000),
        (0x3822FFFF, .xori 2 1 0xFFFF), (0x3C028000, .lui 2 0x8000)] :
      List (Word × Instr)).all (fun p => decide (decode p.1 = .ok p.2)) = true := by decide

theorem test_decode_special2 :
    ([(0x70221802, .mul 3 1 2), (0x70231820, .clz 3 1), (0x70231821, .clo 3 1)] :
      List (Word × Instr)).all (fun p => decide (decode p.1 = .ok p.2)) = true := by decide

theorem test_decode_moves :
    ([(0x0022180A, .movz 3 1 2), (0x0022180B, .movn 3 1 2), (0x0020100D, .special0x0d 2 1),
        (0x0020100E, .special0x0e 2 1), (0x0020100F, .special0x0f 2 1), (0x0022181C, .special0x1c 3 1),
        (0x0020181D, .special0x1d 3 1), (0x0020181E, .special0x1e 3 1), (0x0020181F, .special0x1f 3 1)] :
      List (Word × Instr)).all (fun p => decide (decode p.1 = .ok p.2)) = true := by decide

theorem test_decode_loads :
    ([(0x80220001, .lb 2 1 1), (0x84220002, .lh 2 2 1), (0x88220003, .lwl 2 3 1), (0x8C22FFFC, .lw 2 0xFFFC 1),
        (0x90220000, .lbu 2 0 1), (0x94220000, .lhu 2 0 1), (0x98220002, .lwr 2 2 1), (0xC0220003, .ll 2 3 1)] :
      List (Word × Instr)).all (fun p => decide (decode p.1 = .ok p.2)) = true := by decide

theorem test_decode_stores :
    ([(0xA0220003, .sb 2 3 1), (0xA4220002, .sh 2 2 1), (0xA8220001, .swl 2 1 1), (0xAC227FFF, .sw 2 0x7FFF 1),
        (0xB8220002, .swr 2 2 1), (0xE0220002, .sc 2 2 1)] :
      List (Word × Instr)).all (fun p => decide (decode p.1 = .ok p.2)) = true := by decide

theorem test_decode_hilo :
    ([(0x00001810, .mfhi 3), (0x00200011, .mthi 1), (0x00001812, .mflo 3), (0x00200013, .mtlo 1),
        (0x00220018, .mult 1 2), (0x00220019, .multu 1 2), (0x0022001A, .div 1 2), (0x0022001B, .divu 1 2)] :
      List (Word × Instr)).all (fun p => decide (decode p.1 = .ok p.2)) = true := by decide

theorem test_decode_syscall : decode 0x0000000C = .ok .syscall := by decide

theorem test_table_word_little_end : decodeTableWord 32 0x00021FC0 = some (.sll 3 2 31) := by decide

theorem test_fetch_word : (State.reset.withFetchWord 32 0x24010001).mem = [(0, 0x24), (1, 0x01), (3, 0x01)] := by decide

/-! ### Branches and jumps (Part 2, first two tables) -/

theorem test_beq_taken :
    after (start 0x10220003 [(1, 5), (2, 5)] []) (fun t => (t.pc, t.nextPc)) = some (0x1004, 0x1010) := by decide

theorem test_beq_not_taken :
    after (start 0x10220003 [(1, 5), (2, 6)] []) (fun t => (t.pc, t.nextPc)) = some (0x1004, 0x1008) := by decide

theorem test_bne_backward :
    after (start 0x1422FFFE [(1, 5), (2, 6)] []) (fun t => (t.pc, t.nextPc)) = some (0x1004, 0xFFC) := by decide

theorem test_bne_not_taken :
    after (start 0x1422FFFE [(1, 5), (2, 5)] []) (fun t => (t.pc, t.nextPc)) = some (0x1004, 0x1008) := by decide

theorem test_blez_zero : after (start 0x18207FFF [] []) (fun t => (t.pc, t.nextPc)) = some (0x1004, 0x21000) := by decide

theorem test_blez_one :
    after (start 0x18200004 [(1, 1)] []) (fun t => (t.pc, t.nextPc)) = some (0x1004, 0x1008) := by decide

theorem test_bgtz_one :
    after (start 0x1C200004 [(1, 1)] []) (fun t => (t.pc, t.nextPc)) = some (0x1004, 0x1014) := by decide

theorem test_bgtz_negative :
    after (start 0x1C200004 [(1, 0xFFFFFFFF)] []) (fun t => (t.pc, t.nextPc)) = some (0x1004, 0x1008) := by decide

theorem test_bltz_wraps :
    after (start 0x04208000 [(1, 0xFFFFFFFF)] []) (fun t => (t.pc, t.nextPc)) = some (0x1004, 0xFFFE1004) := by decide

theorem test_bltz_zero : after (start 0x04200004 [] []) (fun t => (t.pc, t.nextPc)) = some (0x1004, 0x1008) := by decide

theorem test_bgez_zero : after (start 0x04210004 [] []) (fun t => (t.pc, t.nextPc)) = some (0x1004, 0x1014) := by decide

theorem test_bgez_negative :
    after (start 0x04210004 [(1, 0x80000000)] []) (fun t => (t.pc, t.nextPc)) = some (0x1004, 0x1008) := by decide

theorem test_j_sign_extends :
    after (start 0x0A000000 [] []) (fun t => (t.pc, t.nextPc)) = some (0x1004, 0xF8000000) := by decide

theorem test_jr_misaligned :
    after (start 0x00A00008 [(5, 0x2002)] []) (fun t => (t.pc, t.nextPc)) = some (0x1004, 0x2002) := by decide

theorem test_jal_links :
    after (start 0x0C000408 [(31, 0x55)] []) (fun t => (t.nextPc, readReg t 31)) = some (0x1020, 0x1008) := by decide

theorem test_jalr_same_register :
    after (start 0x00200809 [(1, 0x3000)] []) (fun t => (t.nextPc, readReg t 1)) = some (0x3000, 0x1008) := by decide

theorem test_jalr_no_link :
    after (start 0x00200009 [(1, 0x3000)] []) (fun t => (t.nextPc, readReg t 31)) = some (0x3000, 0) := by decide

/-! ### Shifts, arithmetic, logic (Part 2) -/

theorem test_sll_31 : after (start 0x00021FC0 [(2, 3)] []) (fun t => readReg t 3) = some 0x80000000 := by decide

theorem test_sll_nop : after (start 0x00000000 [] []) (fun t => readReg t 0) = some 0 := by decide

theorem test_srl : after (start 0x00021902 [(2, 0xF000000F)] []) (fun t => readReg t 3) = some 0x0F000000 := by decide

theorem test_srl_rs_field_ignored :
    after (start 0x00221902 [(1, 0xFFFFFFFF), (2, 0xF000000F)] []) (fun t => readReg t 3) = some 0x0F000000 := by decide

theorem test_sra : after (start 0x00021903 [(2, 0xF000000F)] []) (fun t => readReg t 3) = some 0xFF000000 := by decide

theorem test_sra_zero :
    after (start 0x00021803 [(2, 0x80000001)] []) (fun t => readReg t 3) = some 0x80000001 := by decide

theorem test_sllv_masked : after (start 0x00221804 [(1, 0x24), (2, 1)] []) (fun t => readReg t 3) = some 0x10 := by decide

theorem test_srlv_masked :
    after (start 0x00221806 [(1, 0xFFFFFFFF), (2, 0x80000000)] []) (fun t => readReg t 3) = some 1 := by decide

theorem test_srav_masked :
    after (start 0x00221807 [(1, 0x21), (2, 0x80000000)] []) (fun t => readReg t 3) = some 0xC0000000 := by decide

theorem test_srav_32 :
    after (start 0x00221807 [(1, 0x20), (2, 0x80000000)] []) (fun t => readReg t 3) = some 0x80000000 := by decide

theorem test_add_overflow :
    after (start 0x00221820 [(1, 0x7FFFFFFF), (2, 1)] []) (fun t => readReg t 3) = some 0x80000000 := by decide

theorem test_addu_wraps :
    after (start 0x00221821 [(1, 0xFFFFFFFF), (2, 1)] []) (fun t => readReg t 3) = some 0 := by decide

theorem test_addu_to_zero : after (start 0x00220021 [(1, 1), (2, 2)] []) (fun t => readReg t 0) = some 0 := by decide

theorem test_sub_overflow :
    after (start 0x00221822 [(1, 0x80000000), (2, 1)] []) (fun t => readReg t 3) = some 0x7FFFFFFF := by decide

theorem test_subu_wraps : after (start 0x00221823 [(2, 1)] []) (fun t => readReg t 3) = some 0xFFFFFFFF := by decide

theorem test_and :
    after (start 0x00221824 [(1, 0xFF00FF00), (2, 0x0FF00FF0)] []) (fun t => readReg t 3) = some 0x0F000F00 := by decide

theorem test_or :
    after (start 0x00221825 [(1, 0xFF00FF00), (2, 0x0FF00FF0)] []) (fun t => readReg t 3) = some 0xFFF0FFF0 := by decide

theorem test_xor :
    after (start 0x00221826 [(1, 0xFF00FF00), (2, 0x0FF00FF0)] []) (fun t => readReg t 3) = some 0xF0F0F0F0 := by decide

theorem test_nor :
    after (start 0x00221827 [(1, 0xFF00FF00), (2, 0x0FF00FF0)] []) (fun t => readReg t 3) = some 0x000F000F := by decide

theorem test_slt_signed :
    after (start 0x0022182A [(1, 0x80000000), (2, 0x7FFFFFFF)] []) (fun t => readReg t 3) = some 1 := by decide

theorem test_slt_equal : after (start 0x0022182A [(1, 5), (2, 5)] []) (fun t => readReg t 3) = some 0 := by decide

theorem test_sltu_unsigned :
    after (start 0x0022182B [(1, 0xFFFFFFFF), (2, 1)] []) (fun t => readReg t 3) = some 0 := by decide

theorem test_sltu_less :
    after (start 0x0022182B [(1, 1), (2, 0xFFFFFFFF)] []) (fun t => readReg t 3) = some 1 := by decide

theorem test_addi : after (start 0x20220001 [(1, 0x7FFFFFFF)] []) (fun t => readReg t 2) = some 0x80000000 := by decide

theorem test_addiu_sign_extends : after (start 0x24228000 [(1, 0x8000)] []) (fun t => readReg t 2) = some 0 := by decide

theorem test_slti : after (start 0x2822FFFF [(1, 0xFFFFFFFE)] []) (fun t => readReg t 2) = some 1 := by decide

theorem test_sltiu_sign_extends :
    after (start 0x2C22FFFF [(1, 0xFFFFFFFE)] []) (fun t => readReg t 2) = some 1 := by decide

theorem test_sltiu_equal : after (start 0x2C22FFFF [(1, 0xFFFFFFFF)] []) (fun t => readReg t 2) = some 0 := by decide

theorem test_andi_zero_extends :
    after (start 0x3022FFFF [(1, 0x12345678)] []) (fun t => readReg t 2) = some 0x5678 := by decide

theorem test_ori_zero_extends :
    after (start 0x34228000 [(1, 0x12340000)] []) (fun t => readReg t 2) = some 0x12348000 := by decide

theorem test_xori_zero_extends :
    after (start 0x3822FFFF [(1, 0xFFFFFFFF)] []) (fun t => readReg t 2) = some 0xFFFF0000 := by decide

theorem test_lui : after (start 0x3C02FFFF [(2, 0x1234)] []) (fun t => readReg t 2) = some 0xFFFF0000 := by decide

theorem test_mul :
    after (start 0x70221802 [(1, 0x12345678), (2, 0x9ABCDEF0)] []) (fun t => readReg t 3) = some 0x242D2080 := by decide

theorem test_clz_zero : after (start 0x70231820 [] []) (fun t => readReg t 3) = some 32 := by decide

theorem test_clz : after (start 0x70231820 [(1, 0x10000)] []) (fun t => readReg t 3) = some 15 := by decide

theorem test_clo : after (start 0x70231821 [(1, 0xFFFF0000)] []) (fun t => readReg t 3) = some 16 := by decide

theorem test_clo_all : after (start 0x70231821 [(1, 0xFFFFFFFF)] []) (fun t => readReg t 3) = some 32 := by decide

theorem test_movz : after (start 0x0022180A [(1, 9), (3, 5)] []) (fun t => readReg t 3) = some 9 := by decide

theorem test_movz_fails :
    after (start 0x0022180A [(1, 9), (2, 1), (3, 5)] []) (fun t => readReg t 3) = some 5 := by decide

theorem test_movn :
    after (start 0x0022180B [(1, 9), (2, 0x80000000), (3, 5)] []) (fun t => readReg t 3) = some 9 := by decide

theorem test_movn_fails : after (start 0x0022180B [(1, 9), (3, 5)] []) (fun t => readReg t 3) = some 5 := by decide

theorem test_special0x0f_moves : after (start 0x0020100F [(1, 0x55)] []) (fun t => readReg t 2) = some 0x55 := by decide

theorem test_special0x0e_moves : after (start 0x0020100E [(1, 0x55)] []) (fun t => readReg t 2) = some 0x55 := by decide

theorem test_special0x1c_moves :
    after (start 0x0022181C [(1, 0x55), (2, 0x66)] []) (fun t => readReg t 3) = some 0x55 := by decide

theorem test_special0x1f_moves : after (start 0x0020181F [(1, 0x55)] []) (fun t => readReg t 3) = some 0x55 := by decide

theorem test_break_does_not_trap :
    after (start 0x0000000D [] []) (fun t => (t.pc, t.nextPc)) = some (0x1004, 0x1008) := by decide

/-! ### Loads and stores (Part 2: the word at 0x2000 is 0x8899AABB, `x[1]` is 0x2000, `x[2]` is 0x11223344) -/

/-- The start of those rows. -/
def lsStart (word : Word) : State := start word [(1, 0x2000), (2, 0x11223344)] [(0x2000, 0x8899AABB)]

theorem test_lb : after (lsStart 0x80220001) (fun t => readReg t 2) = some 0xFFFFFF99 := by decide

theorem test_lb_last : after (lsStart 0x80220003) (fun t => readReg t 2) = some 0xFFFFFFBB := by decide

theorem test_lbu : after (lsStart 0x90220000) (fun t => readReg t 2) = some 0x88 := by decide

theorem test_lh_bit0_ignored : after (lsStart 0x84220003) (fun t => readReg t 2) = some 0xFFFFAABB := by decide

theorem test_lhu : after (lsStart 0x94220001) (fun t => readReg t 2) = some 0x8899 := by decide

theorem test_lw_aligned_down : after (lsStart 0x8C220003) (fun t => readReg t 2) = some 0x8899AABB := by decide

theorem test_lwl_1 : after (lsStart 0x88220001) (fun t => readReg t 2) = some 0x99AABB44 := by decide

theorem test_lwl_3 : after (lsStart 0x88220003) (fun t => readReg t 2) = some 0xBB223344 := by decide

theorem test_lwr_0 : after (lsStart 0x98220000) (fun t => readReg t 2) = some 0x11223388 := by decide

theorem test_lwr_2 : after (lsStart 0x98220002) (fun t => readReg t 2) = some 0x118899AA := by decide

theorem test_ll : after (lsStart 0xC0220003) (fun t => readReg t 2) = some 0x8899AABB := by decide

theorem test_sb : after (lsStart 0xA0220001) (fun t => memRead t 0x2000) = some 0x8844AABB := by decide

theorem test_sh_bit0_ignored : after (lsStart 0xA4220003) (fun t => memRead t 0x2000) = some 0x88993344 := by decide

theorem test_swl_1 : after (lsStart 0xA8220001) (fun t => memRead t 0x2000) = some 0x88112233 := by decide

theorem test_swl_3 : after (lsStart 0xA8220003) (fun t => memRead t 0x2000) = some 0x8899AA11 := by decide

theorem test_sw_aligned_down : after (lsStart 0xAC220002) (fun t => memRead t 0x2000) = some 0x11223344 := by decide

theorem test_swr_0 : after (lsStart 0xB8220000) (fun t => memRead t 0x2000) = some 0x4499AABB := by decide

theorem test_swr_2 : after (lsStart 0xB8220002) (fun t => memRead t 0x2000) = some 0x223344BB := by decide

theorem test_sc :
    after (lsStart 0xE0220002) (fun t => (readReg t 2, memRead t 0x2000)) = some (1, 0x11223344) := by decide

theorem test_sc_zero : after (lsStart 0xE0200000) (fun t => (readReg t 0, memRead t 0x2000)) = some (0, 0) := by decide

theorem test_load_tracks : after (lsStart 0x80220001) (fun t => t.lastMemAccess) = some (some 0x2000) := by decide

theorem test_store_at_top_of_memory :
    after (start 0xAC02FFFF [(2, 0x11223344)] []) (fun t => memRead t 0xFFFFFFFC) = some 0x11223344 := by decide

/-! ### Hi and lo (Part 2) -/

theorem test_mfhi :
    after { start 0x00001810 [] [] with hi := 0xAAAAAAAA } (fun t => readReg t 3) = some 0xAAAAAAAA := by decide

theorem test_mflo :
    after { start 0x00001812 [] [] with lo := 0xBBBBBBBB } (fun t => readReg t 3) = some 0xBBBBBBBB := by decide

theorem test_mthi :
    after (start 0x00200011 [(1, 0x12345678)] []) (fun t => (t.hi, t.lo)) = some (0x12345678, 0) := by decide

theorem test_mtlo :
    after (start 0x00200013 [(1, 0x12345678)] []) (fun t => (t.hi, t.lo)) = some (0, 0x12345678) := by decide

theorem test_mult_minus_one :
    after (start 0x00220018 [(1, 0xFFFFFFFF), (2, 0xFFFFFFFF)] []) (fun t => (t.hi, t.lo)) = some (0, 1) := by decide

theorem test_mult_mixed :
    after (start 0x00220018 [(1, 0x7FFFFFFF), (2, 0xFFFFFFFE)] []) (fun t => (t.hi, t.lo)) = some (0xFFFFFFFF,
      2) := by decide

theorem test_multu :
    after (start 0x00220019 [(1, 0xFFFFFFFF), (2, 0xFFFFFFFF)] []) (fun t => (t.hi, t.lo)) = some (0xFFFFFFFE,
      1) := by decide

theorem test_div_truncates :
    after (start 0x0022001A [(1, 0xFFFFFFF9), (2, 2)] []) (fun t => (t.hi, t.lo)) = some (0xFFFFFFFF,
      0xFFFFFFFD) := by decide

theorem test_div_negative_divisor :
    after (start 0x0022001A [(1, 7), (2, 0xFFFFFFFE)] []) (fun t => (t.hi, t.lo)) = some (1, 0xFFFFFFFD) := by decide

theorem test_divu :
    after (start 0x0022001B [(1, 0xFFFFFFFF), (2, 2)] []) (fun t => (t.hi, t.lo)) = some (1, 0x7FFFFFFF) := by decide

theorem test_divu_large_divisor :
    after (start 0x0022001B [(1, 0x80000000), (2, 0xFFFFFFFF)] []) (fun t => (t.hi, t.lo)) = some (0x80000000,
      0) := by decide

/-! ### System calls and the engine (Part 2; the hint tests are S5, the read bounds S6) -/

theorem test_mmap :
    after (call 4090 0 5000 0 []) (fun t => (results t, t.heap)) = some ((0x20000000, 0), 0x20002000) := by decide

theorem test_exit_group :
    after (call 4246 0x12A 0 0 []) (fun t => (t.exited, t.exitCode, t.pc, readReg t 7)) = some (true, 42, 0x1000,
      0x77) := by decide

theorem test_write_stdout_across_words :
    after (call 4004 1 0x2003 6 [(0x2000, 0x11223348), (0x2004, 0x656C6C6F), (0x2008, 0x21000000)])
      (fun t => (results t, t.ports.stdout.bytes)) = some ((6, 0), [0x48, 0x65, 0x6c, 0x6c, 0x6f, 0x21]) := by decide

theorem test_hint_records :
    after { call 4004 4 0x2005 8 [(0x2004, 0x61626300), (0x2008, 0x00000264), (0x200C, 0x65000000)] with
      lastHint := [0, 0, 0, 3, 0x61] } (fun t => (t.ports.hints, t.lastHint)) =
      some ([[0x61, 0x62, 0x63], [0x64, 0x65]], []) := by decide

theorem test_key_write :
    after { call 4004 6 0x2001 4 [(0x2000, 0x41424344)] with preimageOffset := 7 }
      (fun t => (results t, t.preimageKey.toList.drop 28, t.preimageOffset)) = some ((3, 0), [0, 0x42, 0x43, 0x44],
        0) := by decide

theorem test_preimage_read :
    after (withBlob { call 4003 5 0x2002 4 [(0x2000, 0xAABBCCDD)] with preimageOffset := 4 } [0x68, 0x65, 0x6c, 0x6c,
      0x6f])
      (fun t => (results t, memRead t 0x2000, t.preimageOffset)) = some ((2, 0), 0xAABB6865, 6) := by decide

theorem test_preimage_read_last_byte :
    after (withBlob { call 4003 5 0x2000 4 [(0x2000, 0xAABBCCDD)] with preimageOffset := 8 } [0x68, 0x65, 0x6c, 0x6c,
      0x6f])
      (fun t => (results t, memRead t 0x2000, t.preimageOffset)) = some ((1, 0), 0x6FBBCCDD, 9) := by decide

theorem test_fcntl_write_only : after (call 4055 6 3 0 []) results = some (1, 0) := by decide

theorem test_unknown_call_is_compared_whole :
    after (call 0x10FFA 0 0x1000 0 []) (fun t => (results t, t.heap)) = some ((0, 0), 0x20000000) := by decide

/-! ### Pipeline corners (Part 2, K1 to K4) -/

theorem test_pc_wraps :
    after { State.reset with pc := 0xFFFFFFFC, nextPc := 0, mem := Memory.writeWord [] 0xFFFFFFFC 0x24010001 }
      (fun t => (readReg t 1, t.pc, t.nextPc)) = some (1, 0, 4) := by decide

theorem test_exited_ignores_misaligned_pc :
    after { State.reset with exited := true, pc := 2 } (fun t => (t.pc, t.stepCount)) = some (2, 0) := by decide

/-! ### Witnesses: the hypotheses of the statements can be met -/

/-- RegimmMapAndInvalidBranch. -/
theorem witness_regimm :
    (opcodeField 0x04600000 = 1 ∧ rtField 0x04600000 = 0) ∧ (opcodeField 0x04610000 = 1 ∧ rtField 0x04610000 = 1) ∧
    (opcodeField 0x04620000 = 1 ∧ rtField 0x04620000 ≠ 0 ∧ rtField 0x04620000 ≠ 1) ∧
    abortOf (start 0x047F0000 [] []) = some .invalidBranch := by decide

/-- InvalidInstructionAbort, at the ends of every range of the fatal list. -/
theorem witness_invalid_instruction :
    ([0x40000000, 0x6C000000, 0x74000000, 0x7C000000, 0x9C220000, 0xB0220000, 0xB4220000, 0xBC220000, 0xC4220000,
      0xDC000000, 0xE4220000, 0xFFFFFFFF, 0x00000001, 0x00000005, 0x00000014, 0x00000017, 0x00000028, 0x00000029,
      0x0000002C, 0x0000003F, 0x70000001, 0x70000022] : List Word).all
      (fun w => decide (abortOf (start w [] []) = some (.invalidInstruction w))) = true := by decide

/-- StepRunsDecodedInstruction. -/
theorem witness_step_runs_decoded :
    let s := start 0x00021FC0 [] []
    s.exited = false ∧ s.pc &&& 3 = 0 ∧ decodeBytes (rangeRead s s.pc 4) = .ok (.sll 3 2 31, []) := by decide

/-- ExitedIsTerminal, both parts. -/
theorem witness_exited :
    ({ State.reset with exited := true } : State).exited = true ∧
    after (call 4246 0 0 0 []) (fun t => t.exited) = some true := by decide

/-- AbortCauses, every cause that is not of the decoder. -/
theorem witness_abort_causes :
    abortOf { State.reset with pc := 2 } = some .unalignedFetch ∧
    abortOf (start 0x0022001A [(1, 5)] []) = some .divideByZero ∧
    abortOf (start 0x0022001B [(1, 5)] []) = some .divideByZero ∧
    abortOf (start 0x0022001A [(1, 0x80000000), (2, 0xFFFFFFFF)] []) = some .divideOverflow ∧
    abortOf (call 4090 0 0xDFFFF001 0 []) = some .heapOverflow ∧
    abortOf (call 4003 5 0 0 []) = some (.oracleFailure ⟨[], [zeroKey], [], none, ⟨[], none⟩, ⟨[], none⟩⟩) ∧
    abortOf { call 4003 5 0 0 [] with ports := Ports.fresh [(zeroKey, .block)] none none none } =
      some (.oracleBlocked ⟨[(zeroKey, .block)], [zeroKey], [], none, ⟨[], none⟩, ⟨[], none⟩⟩) ∧
    abortOf { call 4004 1 0x2000 3 [(0x2000, 0x41424344)] with ports := Ports.fresh [] none (some 2) none } =
      some (.sinkFailure ⟨[], [], [], none, ⟨[0x41, 0x42], some 0⟩, ⟨[], none⟩⟩) := by decide

/-- AssertionsNeverFire. -/
theorem witness_assertions : State.reset.lastMemAccess = none ∧ (32 : Nat) ≤ 32 ∧ ¬ 32 ≤ 31 := by decide

/-- NextPcPolicy; OnlyTheirInstructionsChangeThem and HiLoAreReachedOnlyByTheirInstructions have the same hypothesis. -/
theorem witness_next_pc :
    (∃ t, exec (.sll 3 2 31) State.reset = .next t) ∧ (∃ t, exec (.j 0) State.reset = .next t) ∧
    ¬ (Instr.sll 3 2 31 = .syscall ∧ readReg State.reset 2#5 = 4246) ∧ isControl (.sll 3 2 31) = false :=
  ⟨⟨_, rfl⟩, ⟨_, rfl⟩, by decide, rfl⟩

/-- DelaySlotRetiresNext. -/
theorem witness_delay_slot :
    let s := start 0x10220003 [] [(0x1004, 0x24010001)]
    s.exited = false ∧ (0x1000 : Word) &&& 3 = 0 ∧ s.pc = 0x1000 ∧ s.nextPc = 0x1000 + 4 ∧
    decode (memRead s 0x1000) = .ok (.beq 1 2 3) ∧ isControl (.beq 1 2 3) = true ∧
    decode (memRead s (0x1000 + 4)) = .ok (.addiu 1 0 1) := by decide

/-- ControlTransferInDelaySlot, with program P6. -/
theorem witness_control_in_delay_slot :
    let t : State := { start 0 [] [(0x1004, 0x0C000C00)] with pc := 0x1004, nextPc := 0x2000 }
    t.exited = false ∧ (0x1000 : Word) &&& 3 = 0 ∧ t.pc = 0x1000 + 4 ∧ t.nextPc = 0x2000 ∧
    decode (memRead t (0x1000 + 4)) = .ok (.jal 0xC00) ∧ isControl (.jal 0xC00) = true := by decide

/-- ControlTransferInDelaySlot, the other control transfers. -/
theorem witness_control_in_delay_slot_others :
    ([(0x08000800, .j 0x800), (0x00A00008, .jr 5), (0x0020F809, .jalr 31 1), (0x10220003, .beq 1 2 3),
      (0x1422FFFE, .bne 1 2 0xFFFE), (0x18200004, .blez 1 4), (0x1C200004, .bgtz 1 4), (0x04200004, .bltz 1 4),
      (0x04210004, .bgez 1 4)] : List (Word × Instr)).all (fun p =>
        decide (decode (memRead { start 0 [] [(0x1004, p.1)] with pc := 0x1004, nextPc := 0x2000 } 0x1004) = .ok p.2) &&
        isControl p.2) = true := by decide

/-- MisalignedTargetAbortsAtItsFetch, with vector K3: the jump, its delay slot and the abort. -/
theorem witness_misaligned_target :
    let s := start 0x00A00008 [(5, 0x2002)] []
    s.exited = false ∧ s.pc &&& 3 = 0 ∧ decode (memRead s s.pc) = .ok (.jr 5) ∧ (readReg s 5).toNat % 4 ≠ 0 ∧
    after s (fun t => (t.pc &&& 3, decode (memRead t t.pc), after t (fun u => (u.exited, abortOf u)))) =
      some (0, .ok (.sll 0 0 0), some (false, some .unalignedFetch)) := by decide

/-- StepBookkeeping. -/
theorem witness_bookkeeping :
    after (start 0x00021FC0 [] []) (fun t => t.stepCount) = some 1 ∧
    decode 0x00021FC0 = .ok (.sll 3 2 31) ∧ isLoadOrStore (.sll 3 2 31) = false ∧
    Instr.sll 3 2 31 ≠ .syscall := by decide

/-- InvariantHoldsAtReset. -/
theorem witness_loader : Memory.wf Loader.default.mem = true := by decide

/-- A state of the invariant whose preimage cache holds a key and whose offset is inside the buffer. -/
def cachedState : State :=
  { withBlob (call 4003 5 0x2000 4 []) [0x68] with
    lastPreimageKey := some zeroKey, lastPreimage := [0, 0, 0, 1, 0x68], preimageOffset := 4 }

/-- InvariantIsKeptByEveryStep and PreimageCacheIsUnobservable: the invariant holds of a state that steps. -/
theorem witness_invariant : cachedState.Inv ∧ after cachedState results = some (1, 0) := by
  have known : KnownPreimage cachedState zeroKey [0x68] := ⟨by decide, by decide⟩
  refine ⟨⟨by decide, by decide, by decide, by decide, fun key h => ⟨[0x68], ?_, by decide⟩, .inr ⟨[0x68], known, by decide⟩⟩,
    by decide⟩
  obtain rfl : zeroKey = key := Option.some.inj h
  exact known

/-- MachineStateInvariants: a running state, and a step that changes the key. -/
theorem witness_state_invariants :
    State.reset.regs[0] = 0 ∧ State.reset.stepCount + 1 < 2 ^ State.reset.cfg.stepWidth ∧
    after (call 4004 6 0x2001 4 [(0x2000, 0x41424344)]) (fun t => decide (t.preimageKey ≠ zeroKey)) =
      some true := by decide

/-- ProofToggleHasNoArchitecturalEffect: a step that completes and one that aborts. -/
theorem witness_toggle :
    after { State.reset with cfg := { defaultConfig with proofEnable := true } } (fun t => t.stepCount) = some 1 ∧
    abortOf { State.reset with pc := 2 } = some .unalignedFetch := by decide

/-- MemoryReadsTheLastWrite, at both ends of the address space. -/
theorem witness_memory_writes :
    Memory.wf Loader.default.mem = true ∧ (∀ w ∈ [((0 : Word), (1 : Word)), (0xFFFFFFFC, 2)], w.1 &&& 3 = 0) ∧
    (0xFFFFFFFC : Word) &&& 3 = 0 :=
  ⟨by decide, by simp, by decide⟩

/-- ByteOrderIsBigEndianInEachWord. -/
theorem witness_lanes :
    ((0 : Word) &&& 3).toNat = 0 ∧ ((1 : Word) &&& 3).toNat = 1 ∧ ((2 : Word) &&& 3).toNat = 2 ∧
    ((0xFFFFFFFF : Word) &&& 3).toNat = 3 ∧ ((1 : Word) &&& 3).toNat < 2 ∧ 2 ≤ ((2 : Word) &&& 3).toNat := by decide

/-- RangeReaderYieldsConsecutiveBytes. -/
theorem witness_range : 3 < 4 ∧ byteOffset 1 + 3 ≤ 4 := by decide

/-- MemoryKeepsItsCanonicalForm: a canonical memory, and what is none. -/
theorem witness_canonical :
    Memory.wf [(0, 1), (0xFFFFFFFF, 2)] = true ∧ Memory.wf [(0, 0)] = false ∧ Memory.wf [(1, 1), (1, 2)] = false ∧
    Memory.wf [(2 ^ 32, 1)] = false := by decide

/-- The encodings in the results of immediates, `ll`, `sc`, branches and jumps. -/
theorem witness_encodings :
    ([(0x3022FFFF, 0x0c), (0x34228000, 0x0d), (0x3822FFFF, 0x0e), (0x3C028000, 0x0f), (0xC0220003, 0x30), (0xE0220002,
      0x38),
      (0x10220003, 4), (0x1422FFFE, 5), (0x18200004, 6), (0x1C200004, 7), (0x08000800, 2), (0x0C000408, 3)] :
      List (Word × BitVec 6)).all (fun p => opcodeField p.1 == p.2) = true := by decide

/-- The encodings in the results of `mul`, `clz`, `clo`, the conditional moves, `jr`, `jalr`. -/
theorem witness_encodings_by_funct :
    ([(0x70221802, 0x1c, 0x02), (0x70231820, 0x1c, 0x20), (0x70231821, 0x1c, 0x21), (0x0022180A, 0, 0x0a),
      (0x0022180B, 0, 0x0b), (0x00A00008, 0, 8), (0x0020F809, 0, 9)] : List (Word × BitVec 6 × BitVec 6)).all
      (fun p => opcodeField p.1 == p.2.1 && functField p.1 == p.2.2) = true := by decide

/-- The results of loads and stores, at the top of the address space. -/
theorem witness_loads_and_stores :
    Trackable State.reset (alignDown 0xFFFFFFFF) ∧ Memory.wf State.reset.mem = true :=
  ⟨.inl rfl, rfl⟩

/-- BranchResults: taken and not taken. -/
theorem witness_branch_conditions :
    (0x80000000 : Word).toInt ≤ 0 ∧ ¬ (1 : Word).toInt ≤ 0 ∧ (0x80000000 : Word).msb = true ∧
    (0 : Word).msb = false := by decide

/-- DivideResults, beside the overflow. -/
theorem witness_divide :
    let s := start 0x0022001A [(1, 0x80000000), (2, 1)] []
    readReg s 2 ≠ 0 ∧ ¬ (readReg s 1 = 0x80000000 ∧ readReg s 2 = 0xFFFFFFFF) ∧ 0 ≤ (readReg s 2).toInt ∧
    (readReg s 1).toInt ≤ 0 := by decide

/-- DividePolicies under the defaults. -/
theorem witness_divide_policies :
    let s := start 0x0022001A [(1, 0x80000000), (2, 0xFFFFFFFF)] []
    readReg s 0 = 0 ∧ readReg s 1 = 0x80000000 ∧ readReg s 2 = 0xFFFFFFFF ∧ s.cfg.divZero = .fatal ∧
    s.cfg.divOverflow = .fatal := by decide

/-- DividePolicies under the alternatives. -/
theorem witness_divide_other_policies :
    let s := fun z o => { start 0 [] [] with cfg := { defaultConfig with divZero := z, divOverflow := o } }
    (s .unchanged .wrap).cfg.divZero = .unchanged ∧ (s .host .wrap).cfg.divZero = .host ∧
    (s .host .wrap).cfg.divOverflow = .wrap := by decide

/-- PlainCallResults, a state for each clause. -/
theorem witness_plain_calls :
    after (call 4045 0x12345678 0 0 []) results = some (0x40000000, 0) ∧
    after (call 4120 0x11 0x22 0 []) results = some (1, 0) ∧ after (call 4090 0x30000123 0xFFFFF001 0 []) results =
      some (0x30000123, 0) ∧
    after (call 4003 0 0x2000 10 []) results = some (0, 0) ∧ after (call 4003 3 0x2000 10 []) results = some (10, 0) ∧
    after (call 4055 5 3 0 []) results = some (0, 0) ∧ after (call 4055 6 3 0 []) results = some (1, 0) ∧
    after (call 1234 1 2 3 []) results = some (0, 0) := by decide

/-- FailingCallsReturnBadFd, beside every descriptor that does not fail. -/
theorem witness_failing_calls :
    ([(4003, 1, 0), (4003, 4, 0), (4003, 6, 0), (4003, 0xFFFFFFFF, 0), (4004, 0, 0), (4004, 3, 0), (4004, 5, 0), (4004,
      7, 0),
      (4055, 7, 3), (4055, 0, 1)] : List (Word × Word × Word)).all
      (fun p => decide (after (call p.1 p.2.1 p.2.2 0 []) results = some (0xFFFFFFFF, 9))) = true := by decide

/-- MmapBumpsTheHeap: the largest length that fits and the next page multiple; such a length is the least multiple that
covers it. -/
theorem witness_mmap :
    let s := fun n : Nat => call 4090 0 (BitVec.ofNat 32 n) 0 []
    (readReg (s 0xDFFFF000) 2#5 = 4090 ∧ readReg (s 0xDFFFF000) 4#5 = 0 ∧
    2 ^ (s 0xDFFFF000).cfg.pageSizeLog2 ∣ 0xDFFFF000 ∧
      (∀ n, (readReg (s 0xDFFFF000) 5#5).toNat ≤ n ↔ 0xDFFFF000 ≤ n) ∧ (s 0xDFFFF000).heap.toNat + 0xDFFFF000 < 2 ^ 32) ∧
    (readReg (s 0xE0000000) 2#5 = 4090 ∧ readReg (s 0xE0000000) 4#5 = 0 ∧
    2 ^ (s 0xE0000000).cfg.pageSizeLog2 ∣ 0xE0000000 ∧
      (∀ n, (readReg (s 0xE0000000) 5#5).toNat ≤ n ↔ 0xE0000000 ≤ n) ∧ 2 ^ 32 ≤ (s 0xE0000000).heap.toNat + 0xE0000000) :=
  ⟨⟨by decide, by decide, by decide, fun _ => .rfl, by decide⟩, by decide, by decide, by decide, fun _ => .rfl, by decide⟩

/-- OutputWriteResults: a sink that takes exactly the bytes, and one that takes one byte less. -/
theorem witness_output :
    let s := fun fd room => { call 4004 fd 0x2000 3 [] with ports := Ports.fresh [] none room room }
    (∀ fd room, readReg (s fd room) 2#5 = 4004 ∧ readReg (s fd room) 4#5 = fd) ∧
    (∀ r, (s 1 (some 3)).ports.stdout.room = some r → (rangeRead (s 1 (some 3)) 0x2000 3).length ≤ r) ∧
    (s 1 (some 2)).ports.stdout.room = some 2 ∧ 2 < (rangeRead (s 1 (some 2)) 0x2000 3).length ∧
    (∀ r, (s 2 (some 3)).ports.stderr.room = some r → (rangeRead (s 2 (some 3)) 0x2000 3).length ≤ r) ∧
    (s 2 (some 2)).ports.stderr.room = some 2 ∧ 2 < (rangeRead (s 2 (some 2)) 0x2000 3).length :=
  ⟨fun _ _ => ⟨rfl, rfl⟩, fun r h => by cases h; decide, by decide, by decide, fun r h => by cases h; decide, by decide,
    by decide⟩

/-- HintRecordsAreForwardedInOrder and HintWriteResult. -/
theorem witness_hint_write :
    let s := call 4004 4 0x2000 0 []
    readReg s 2#5 = 4004 ∧ readReg s 4#5 = 4 ∧ s.ports.hintRoom = none ∧
    ∃ u, writeHint (rangeRead s (readReg s 5#5) (readReg s 6#5).toNat) s = .next u :=
  ⟨by decide, by decide, by decide, _, rfl⟩

/-- PreimageReadResult, with the cache in use. -/
theorem witness_preimage_read :
    let s := cachedState
    readReg s 2#5 = 4003 ∧ readReg s 4#5 = 5 ∧ Memory.wf s.mem = true ∧ Trackable s (alignDown (readReg s 5#5)) ∧
    KnownPreimage s s.preimageKey [0x68] ∧
    (s.lastPreimageKey = some s.preimageKey → s.lastPreimage = wordBytes (BitVec.ofNat 32 1) ++ [0x68]) :=
  ⟨by decide, by decide, by decide, .inl (by decide), ⟨by decide, by decide⟩, fun _ => by decide⟩

/-- PreimageReadIsBounded: the last byte, and the end. -/
theorem witness_preimage_bounds :
    0 < cachedState.lastPreimage.length ∧ cachedState.preimageOffset.toNat = cachedState.lastPreimage.length - 1 ∧
    cachedState.lastPreimage.length ≤ ({ cachedState with preimageOffset := 5 } : State).preimageOffset.toNat := by decide

/-- KeyWriteResult, both parts. -/
theorem witness_key_write :
    let s := call 4004 6 0x2003 100 []
    readReg s 2#5 = 4004 ∧ readReg s 4#5 = 6 ∧ Trackable s (alignDown (readReg s 5#5)) ∧
    ((List.replicate 8 ((0x2000 : Word), (4 : Word))).map
      fun w => rangeRead s w.1 (min (4 - w.1.toNat % 4) w.2.toNat)).flatten.length = 32 :=
  ⟨by decide, by decide, .inl (by decide), by decide⟩

/-- A read from fd 5 with an empty cache, for an oracle with this reply to the key. -/
def oracleState (r : OracleReply) : State :=
  { call 4003 5 0x2000 4 [] with ports := Ports.fresh [(zeroKey, r)] none none none }

/-- PortFailuresAbort: each of the three replies of the oracle. -/
theorem witness_port_failures :
    (∀ r, readReg (oracleState r) 2#5 = 4003 ∧ readReg (oracleState r) 4#5 = 5 ∧
      Trackable (oracleState r) (alignDown (readReg (oracleState r) 5#5)) ∧
      (oracleState r).lastPreimageKey ≠ some (oracleState r).preimageKey ∧
      oracleReply (oracleState r).ports.oracle (oracleState r).preimageKey = r) ∧
    2 ^ 32 - 4 ≤ (List.replicate (2 ^ 32 - 4) (0 : Byte)).length :=
  ⟨fun _ => ⟨rfl, rfl, .inl rfl, nofun, if_pos rfl⟩, by rw [List.length_replicate]⟩

/-- Two records of one byte each in memory, and a hint channel with room for one. -/
def hintState : State :=
  { call 4004 4 0x2000 10 [(0x2000, 1), (0x2004, 0xAA000000), (0x2008, 0x01BB0000)] with
    ports := Ports.fresh [] (some 1) none none }

/-- PortFailuresAbort: a hint the channel does not take. -/
theorem witness_hint_failure :
    let s := hintState
    readReg s 2#5 = 4004 ∧ readReg s 4#5 = 4 ∧ s.ports.hintRoom = some 1 ∧
    s.lastHint ++ rangeRead s (readReg s 5#5) (readReg s 6#5).toNat =
      (([[0xAA], [0xBB]] : List (List Byte)).map fun p => wordBytes (BitVec.ofNat 32 p.length) ++ p).flatten ++ [] ∧
    completeRecord [] = false := by decide

/-- 60_exceptions.md R300: the hint sent before the one that failed is not retracted. -/
theorem test_hint_before_the_failed_one_stands :
    abortOf hintState = some (.sinkFailure ⟨[], [], [[0xAA]], some 0, ⟨[], none⟩, ⟨[], none⟩⟩) := by decide

/-- PortTransactionsAreNotRetracted: an aborted run whose last step leaves bytes in a sink, and a stuck one. -/
theorem witness_not_retracted :
    let s := { call 4004 1 0x2000 3 [(0x2000, 0x41424344)] with ports := Ports.fresh [] none (some 2) none }
    (∃ f ports, runFor 1 s = .aborted f s ports ∧ ports.stdout.bytes = [0x41, 0x42]) ∧
    ∃ ports, runFor 1 (oracleState .block) = .stuck (oracleState .block) ports ∧ ports.preimageKeys = [zeroKey] :=
  ⟨⟨_, _, rfl, by decide⟩, _, rfl, by decide⟩

/-- 10_state.md R33: the counter wraps at its width, 64 bits by default. -/
theorem test_step_counter_width :
    after { start 0x00021FC0 [] [] with stepCount := 2 ^ 64 - 2 } (fun t => t.stepCount) = some (2 ^ 64 - 1) ∧
    after { start 0x00021FC0 [] [] with stepCount := 2 ^ 64 - 1 } (fun t => t.stepCount) = some 0 := by decide

end Sys2Proof.Tests
end

section
/-! Reads and writes of whole words, and the byte and halfword lanes of a word (20_memory.md R52, R55). -/

namespace Sys2Proof.Machine

/-! ### Lanes as bit fields -/

theorem laneByte_eq_extractLsb' (v a : Word) : laneByte v a = v.extractLsb' (24 - byteOffset a * 8) 8 :=
  BitVec.setWidth_ushiftRight_eq_extractLsb

theorem laneHalf_eq_extractLsb' (v a : Word) : laneHalf v a = v.extractLsb' (halfLane a) 16 :=
  BitVec.setWidth_ushiftRight_eq_extractLsb

/-- The first two byte offsets select the upper halfword, the last two the lower one. -/
theorem halfLane_eq (a : Word) : halfLane a = if byteOffset a < 2 then 16 else 0 := by
  rw [halfLane, halfOffset_eq, byteOffset_eq]
  split <;> omega

/-- Bit 0 of an address does not reach the halfword lane. -/
theorem halfLane_or_one (a : Word) : halfLane (a ||| 1) = halfLane (a &&& 0xFFFFFFFE) := by
  obtain ⟨heven, hodd⟩ := byteOffset_half a
  rw [halfLane_eq, halfLane_eq, heven, hodd, halfOffset_eq]
  split <;> split <;> omega

/-! ### One word read after one word is written -/

/-- Words that agree on the lane of every address of one aligned word are equal. -/
theorem word_eq_of_laneByte {x v w : Word} (hx : x &&& 3 = 0)
    (h : ∀ b, alignDown b = x → laneByte v b = laneByte w b) : v = w := by
  have hx0 : byteOffset x = 0 := congrArg BitVec.toNat hx
  have hbytes : wordBytes v = wordBytes w := by
    refine List.ext_getElem rfl fun k hk _ => ?_
    rw [wordBytes_length] at hk
    obtain ⟨hword, hoffset⟩ := address_in_word (a := x) (i := k) (by omega)
    have hlane := h _ (hword.trans (alignDown_of_and_eq_zero hx))
    simpa only [laneByte_eq_getElem, hoffset, hx0, Nat.zero_add] using hlane
  rw [← wordOfBytes_wordBytes v, hbytes, wordOfBytes_wordBytes]

/-- A word write replaces the word at its address and leaves every other word. -/
theorem memRead_memWrite {s : State} (h : Memory.wf s.mem = true) {a x : Word} (ha : a &&& 3 = 0) (hx : x &&& 3 = 0)
    (v : Word) : memRead (memWrite s a v) x = if a = x then v else memRead s x := by
  refine word_eq_of_laneByte hx fun b hb => ?_
  have lane : ∀ t, laneByte (memRead t x) b = memByte t b := fun t => by rw [memByte_eq_laneByte, hb]
  have hwrite := memByte_memWrite h a v b
  rw [alignDown_of_and_eq_zero ha, hb] at hwrite
  rw [lane, hwrite, ← lane, apply_ite (laneByte · b)]
  simp only [eq_comm (a := a)]

/-! ### A sequence of word writes -/

/-- A state after word writes, the head of the list first. -/
def memWrites (s : State) (writes : List (Word × Word)) : State := writes.foldl (fun s w => memWrite s w.1 w.2) s

theorem memWrites_concat (s : State) (writes : List (Word × Word)) (w : Word × Word) :
    memWrites s (writes ++ [w]) = memWrite (memWrites s writes) w.1 w.2 :=
  List.foldl_concat ..

theorem wf_memWrites {s : State} (h : Memory.wf s.mem = true) (writes : List (Word × Word)) :
    Memory.wf (memWrites s writes).mem = true := by
  induction writes using List.reverseRecOn with
  | nil => exact h
  | append_singleton ws w ih =>
    rw [memWrites_concat, memWrite_mem]
    exact Memory.wf_writeWord ih w.1 w.2

/-- The last write to an address decides what is read there, whatever stood in memory before. -/
theorem memRead_memWrites {s : State} (h : Memory.wf s.mem = true) {writes : List (Word × Word)}
    (hw : ∀ w ∈ writes, w.1 &&& 3 = 0) {a : Word} (ha : a &&& 3 = 0) :
    memRead (memWrites s writes) a = ((writes.reverse.find? fun w => w.1 = a).map Prod.snd).getD (memRead s a) := by
  induction writes using List.reverseRecOn with
  | nil => rfl
  | append_singleton ws w ih =>
    have hlast : w.1 &&& 3 = 0 := hw w (by simp)
    have hinit : ∀ u ∈ ws, u.1 &&& 3 = 0 := fun u hu => hw u (by simp [hu])
    rw [memWrites_concat, memRead_memWrite (wf_memWrites h ws) hlast ha, ih hinit, List.reverse_concat, List.find?_cons]
    by_cases he : w.1 = a <;> simp [he]

/-! ### The obligations of 20_memory.md -/

/-- Settles O26, by induction on the writes from the last one back: the last write either is to the address or leaves its word. -/
theorem memoryReadsTheLastWrite : Obligations.MemoryReadsTheLastWrite := by
  intro l cfg p writes addr hwf hwrites haddr
  refine (memRead_memWrites hwf hwrites haddr).trans ?_
  cases writes.reverse.find? (fun w => w.1 = addr) <;> rfl

/-- Settles O27: a lane is the bit field at `byteLane` or `halfLane`, and each offset has one lane. -/
theorem byteOrderIsBigEndianInEachWord : Obligations.ByteOrderIsBigEndianInEachWord := by
  intro s a w
  have byte : memByte s a = w.extractLsb' (24 - (a &&& 3).toNat * 8) 8 := laneByte_eq_extractLsb' w a
  have byteAt : ∀ k, (a &&& 3).toNat = k → memByte s a = w.extractLsb' (24 - k * 8) 8 := fun k h => h ▸ byte
  have half : ∀ b, lhuValue b 0 w = (w.extractLsb' (halfLane b) 16).setWidth 32 := fun b => by
    rw [lhuValue_eq, laneHalf_eq_extractLsb']
  refine ⟨byte, byteAt 0, byteAt 1, byteAt 2, byteAt 3, half a, fun h => ?_, fun h => ?_, ?_⟩
  · rw [half, halfLane_eq, byteOffset, if_pos h]
  · rw [half, halfLane_eq, byteOffset, if_neg (Nat.not_lt.2 h)]
  · rw [half, half, halfLane_or_one]

end Sys2Proof.Machine
end

section
/-! The REGIMM map of the decoder and the abort it raises (30_encoding.md R90 to R94, 60_exceptions.md R303). -/

namespace Sys2Proof

/-! ### Which words the decoder rejects as an invalid branch -/

theorem decode_regimm {w : Word} (h : opcodeField w = 1) : decode w = decodeRegimm w := by
  simp [decode, h]

theorem decodeRegimm_bltz {w : Word} (h : rtField w = 0) : decodeRegimm w = .ok (.bltz (rsField w) (imm16Field w)) := by
  simp [decodeRegimm, h]

theorem decodeRegimm_bgez {w : Word} (h : rtField w = 1) : decodeRegimm w = .ok (.bgez (rsField w) (imm16Field w)) := by
  simp [decodeRegimm, h]

theorem decodeRegimm_eq_invalidBranch {w : Word} :
    decodeRegimm w = .error .invalidBranch ↔ rtField w ≠ 0 ∧ rtField w ≠ 1 := by
  unfold decodeRegimm
  split
  case h_1 h => simp [h]
  case h_2 h => simp [h]
  case h_3 h0 h1 => exact ⟨fun _ => ⟨h0, h1⟩, fun _ => rfl⟩

theorem decodeSpecial_ne_invalidBranch (w : Word) : decodeSpecial w ≠ .error .invalidBranch := by
  unfold decodeSpecial
  split <;> simp

theorem decodeSpecial2_ne_invalidBranch (w : Word) : decodeSpecial2 w ≠ .error .invalidBranch := by
  unfold decodeSpecial2
  split <;> simp

/-- No primary opcode but REGIMM rejects a word this way. -/
theorem opcodeField_of_decode_invalidBranch {w : Word} (h : decode w = .error .invalidBranch) : opcodeField w = 1 := by
  unfold decode at h
  split at h
  case h_1 => exact absurd h (decodeSpecial_ne_invalidBranch w)
  case h_2 hop => exact hop
  case h_17 => exact absurd h (decodeSpecial2_ne_invalidBranch w)
  all_goals simp at h

theorem decode_eq_invalidBranch {w : Word} :
    decode w = .error .invalidBranch ↔ opcodeField w = 1 ∧ rtField w ≠ 0 ∧ rtField w ≠ 1 := by
  constructor
  · intro h
    have hop := opcodeField_of_decode_invalidBranch h
    rw [decode_regimm hop] at h
    exact ⟨hop, decodeRegimm_eq_invalidBranch.1 h⟩
  · rintro ⟨hop, hrt⟩
    rw [decode_regimm hop]
    exact decodeRegimm_eq_invalidBranch.2 hrt

end Sys2Proof

namespace Sys2Proof.Machine

/-! ### Which steps raise it -/

theorem exec_ne_invalidBranch (i : Instr) (s : State) : exec i s ≠ .fault .invalidBranch :=
  fun h => by simpa using exec_eq_fault h

theorem decodeFault_eq_invalidBranch {w : Word} {e : DecodeError} :
    decodeFault w e = .invalidBranch ↔ e = .invalidBranch := by
  cases e <;> simp [decodeFault]

theorem step_eq_invalidBranch {s : State} :
    step s = .fault .invalidBranch ↔
      s.exited = false ∧ s.pc &&& 3 = 0 ∧ decode (memRead s s.pc) = .error .invalidBranch := by
  constructor
  · intro h
    obtain ⟨hrun, ⟨_, hf⟩ | ⟨hpc, e, hdec, hf⟩ | ⟨_, i, _, hexec⟩⟩ := step_eq_fault h
    · cases hf
    · exact ⟨hrun, hpc, decodeFault_eq_invalidBranch.1 hf.symm ▸ hdec⟩
    · exact absurd hexec (exec_ne_invalidBranch i _)
  · rintro ⟨hrun, hpc, hdec⟩
    rw [step_running hrun hpc, hdec]
    rfl

/-! ### The obligations of 30_encoding.md -/

/-- Settles O5: only REGIMM rejects a word as an invalid branch, and no executed instruction raises that abort. -/
theorem regimmMapAndInvalidBranch : Obligations.RegimmMapAndInvalidBranch := by
  refine ⟨fun w hop => ⟨fun h => ?_, fun h => ?_, fun h0 h1 => ?_⟩, fun s => ?_⟩
  · rw [decode_regimm hop, decodeRegimm_bltz h]
  · rw [decode_regimm hop, decodeRegimm_bgez h]
  · exact decode_eq_invalidBranch.2 ⟨hop, h0, h1⟩
  · rw [step_eq_invalidBranch, decode_eq_invalidBranch]

/-- Settles O1: each word is a closed term, so the decoder is evaluated on it. -/
theorem specWordsDecode : Obligations.SpecWordsDecode := by
  unfold Obligations.SpecWordsDecode
  decide

end Sys2Proof.Machine
end

section
/-! Branches, jumps and the delay slot (41_branch_jump.md R131 to R147). -/

namespace Sys2Proof

/-! ### The function codes of the register jumps -/

theorem decode_special {w : Word} (h : opcodeField w = 0) : decode w = decodeSpecial w := by
  simp [decode, h]

theorem decodeSpecial_jr {w : Word} (h : functField w = 8) : decodeSpecial w = .ok (.jr (rsField w)) := by
  simp [decodeSpecial, h]

theorem decodeSpecial_jalr {w : Word} (h : functField w = 9) :
    decodeSpecial w = .ok (.jalr (rdField w) (rsField w)) := by
  simp [decodeSpecial, h]

end Sys2Proof

namespace Sys2Proof.Machine

/-! ### The branch conditions -/

theorem takenEq_iff {a b : Word} : takenEq a b = true ↔ a = b := beq_iff_eq

theorem takenNe_iff {a b : Word} : takenNe a b = true ↔ a ≠ b := bne_iff_ne

theorem takenLez_iff {a : Word} : takenLez a = true ↔ a.toInt ≤ 0 := decide_eq_true_iff

theorem takenGtz_iff {a : Word} : takenGtz a = true ↔ 0 < a.toInt := decide_eq_true_iff

/-- A word is negative exactly if its sign bit is set. -/
theorem takenLtz_iff {a : Word} : takenLtz a = true ↔ a.msb = true := by
  rw [takenLtz, BitVec.msb_eq_toInt]

theorem takenGez_iff {a : Word} : takenGez a = true ↔ a.msb = false := by
  rw [takenGez, BitVec.msb_eq_toInt, decide_eq_true_iff, decide_eq_false_iff_not, Int.not_lt]

/-- The result of a branch, by the condition its flag decides. -/
theorem branch_spec_of_iff {taken : Bool} {cond : Prop} (h : taken = true ↔ cond) (imm : BitVec 16) (s : State) :
    ∃ t, branch taken imm s = .next t ∧ Branches s t cond imm :=
  propext h ▸ branch_spec taken imm s

/-- Settles O43: the four conditions on one register are comparisons with 0, of which two read the sign bit alone. -/
theorem branchResults : Obligations.BranchResults := by
  refine ⟨fun w => ⟨fun h => ?_, fun h => ?_, fun h => ?_, fun h => ?_, fun h hrt => ?_, fun h hrt => ?_⟩,
    fun s rs rt imm => ?_⟩
  · simp [decode, h]
  · simp [decode, h]
  · simp [decode, h]
  · simp [decode, h]
  · rw [decode_regimm h, decodeRegimm_bltz hrt]
  · rw [decode_regimm h, decodeRegimm_bgez hrt]
  · exact ⟨branch_spec_of_iff takenEq_iff imm s, branch_spec_of_iff takenNe_iff imm s,
      branch_spec_of_iff takenLez_iff imm s, branch_spec_of_iff takenGtz_iff imm s,
      branch_spec_of_iff takenLtz_iff imm s, branch_spec_of_iff takenGez_iff imm s⟩

/-! ### The jumps -/

/-- A write to register 0 leaves every register as it was. -/
theorem RegWritten.sameRegs {s t : State} {v : Word} (h : RegWritten s t 0 v) : SameRegs s t := by
  intro q
  by_cases hq : q = 0
  · subst hq
    rfl
  · exact h.2 q hq

/-- The result of a jump that links nothing. -/
theorem jump_spec_no_link (dest : Word) (s : State) :
    ∃ t, jump 0 dest s = .next t ∧ Jumps s t 0 dest ∧ SameRegs s t := by
  obtain ⟨t, ht, hj⟩ := jump_spec 0 dest s
  have ⟨_, _, hlink, _⟩ := hj
  exact ⟨t, ht, hj, hlink.sameRegs⟩

/-- Settles O44: the destination of `jump` is an argument, read from the state before the link is written. -/
theorem jumpResults : Obligations.JumpResults := by
  refine ⟨fun w => ⟨fun h => ?_, fun h => ?_, fun h hf => ?_, fun h hf => ?_⟩, fun s link dest => ?_,
    fun s rd rs index => ?_⟩
  · simp [decode, h]
  · simp [decode, h]
  · rw [decode_special h, decodeSpecial_jr hf]
  · rw [decode_special h, decodeSpecial_jalr hf]
  · exact jump_spec link dest s
  · exact ⟨jump_spec_no_link _ s, jump_spec 31 _ s, jump_spec_no_link _ s, jump_spec rd _ s⟩

/-! ### The delay slot -/

/-- A branch or jump always completes, and does so at the old `next_pc`. -/
theorem exec_control {i : Instr} (h : isControl i = true) (s : State) :
    ∃ t, exec i s = .next t ∧ t.pc = s.nextPc ∧ OnlyRegsChanged s t := by
  have ofBranch : ∀ taken imm, ∃ t, branch taken imm s = .next t ∧ t.pc = s.nextPc ∧ OnlyRegsChanged s t :=
    fun _ _ => ⟨_, rfl, rfl, rfl⟩
  have ofJump : ∀ link dest, ∃ t, jump link dest s = .next t ∧ t.pc = s.nextPc ∧ OnlyRegsChanged s t := by
    intro link dest
    obtain ⟨t, ht, hpc, _, _, _, hframe⟩ := jump_spec link dest s
    exact ⟨t, ht, hpc, hframe⟩
  cases i with
  | j _ | jal _ | jr _ | jalr _ _ => exact ofJump _ _
  | beq _ _ _ | bne _ _ _ | blez _ _ | bgtz _ _ | bltz _ _ | bgez _ _ => exact ofBranch _ _
  | _ => exact absurd h Bool.false_ne_true

/-- The word after an aligned one is aligned, also where the address wraps. -/
theorem and_three_add_four {a : Word} (h : a &&& 3 = 0) : (a + 4) &&& 3 = 0 := by
  rw [and_three_eq_zero_iff] at h ⊢
  bv_omega

/-- Settles O13: a branch or jump completes with the old `next_pc` as `pc` and leaves memory alone, so the next step fetches the
word the delay slot held before. -/
theorem delaySlotRetiresNext : Obligations.DelaySlotRetiresNext := by
  intro s A i hrun halign hpc hnext hdec hctl
  subst hpc
  obtain ⟨t, ht, htpc, hframe⟩ := exec_control hctl (beginStep s)
  have hslot : t.pc = s.pc + 4 := htpc.trans hnext
  have htrun : t.exited = false := by rw [hframe]; exact hrun
  have hmem : t.mem = s.mem := by rw [hframe]; rfl
  refine ⟨t, (step_decoded hrun halign hdec).trans ht, htrun, hslot, fun j hj => ?_⟩
  refine step_decoded htrun (hslot ▸ and_three_add_four halign) ?_
  rw [hslot, memRead_congr hmem, hj]

end Sys2Proof.Machine
end

section
/-! Logical immediates, multiply, count and conditional moves (42_alu.md R174 to R185). -/

namespace Sys2Proof

/-! ### The function codes -/

theorem decode_special2 {w : Word} (h : opcodeField w = 0x1c) : decode w = decodeSpecial2 w := by
  simp [decode, h]

theorem decodeSpecial2_mul {w : Word} (h : functField w = 0x02) :
    decodeSpecial2 w = .ok (.mul (rdField w) (rsField w) (rtField w)) := by
  simp [decodeSpecial2, h]

theorem decodeSpecial2_clz {w : Word} (h : functField w = 0x20) :
    decodeSpecial2 w = .ok (.clz (rdField w) (rsField w)) := by
  simp [decodeSpecial2, h]

theorem decodeSpecial2_clo {w : Word} (h : functField w = 0x21) :
    decodeSpecial2 w = .ok (.clo (rdField w) (rsField w)) := by
  simp [decodeSpecial2, h]

theorem decodeSpecial_movz {w : Word} (h : functField w = 0x0a) :
    decodeSpecial w = .ok (.movz (rdField w) (rsField w) (rtField w)) := by
  simp [decodeSpecial, h]

theorem decodeSpecial_movn {w : Word} (h : functField w = 0x0b) :
    decodeSpecial w = .ok (.movn (rdField w) (rsField w) (rtField w)) := by
  simp [decodeSpecial, h]

end Sys2Proof

namespace Sys2Proof.Machine

/-! ### Logical immediates -/

/-- A mask of 16 bits clears the upper half of a word. -/
theorem and_setWidth_upper_half (a : Word) (imm : BitVec 16) : (a &&& imm.setWidth 32).extractLsb' 16 16 = 0 := by
  refine BitVec.eq_of_getLsbD_eq fun i _ => ?_
  rw [BitVec.getLsbD_extractLsb', BitVec.getLsbD_and, BitVec.getLsbD_setWidth,
    BitVec.getLsbD_of_ge imm (16 + i) (Nat.le_add_right 16 i)]
  simp

/-- The shift of `lui` discards the sign bits above the immediate (R177). -/
theorem signExtend_shiftLeft_sixteen (imm : BitVec 16) : imm.signExtend 32 <<< 16 = imm ++ 0#16 := by
  refine BitVec.eq_of_getLsbD_eq fun i hi => ?_
  rw [BitVec.getLsbD_append, BitVec.getLsbD_shiftLeft, BitVec.getLsbD_signExtend]
  by_cases h : i < 16
  · simp [h]
  · have hin : i - 16 < 16 ∧ i - 16 < 32 := by omega
    simp [h, hi, hin]

/-- Where the value written has an upper half of 0, so has the register, register 0 included. -/
theorem RegWritten.upper_half_eq_zero {s t : State} {r : Reg} {v : Word} (h : RegWritten s t r v)
    (hv : v.extractLsb' 16 16 = 0) : (readReg t r).extractLsb' 16 16 = 0 := by
  rw [h.1]
  split
  · rfl
  · exact hv

/-- Settles O33: each of the four is one writeback of a value of the rule's own form. -/
theorem logicalImmediateResults : Obligations.LogicalImmediateResults := by
  refine ⟨fun w => ⟨fun h => ?_, fun h => ?_, fun h => ?_, fun h => ?_⟩, fun s rt rs imm => ⟨?_, ?_, ?_, ?_⟩⟩
  · simp [decode, h]
  · simp [decode, h]
  · simp [decode, h]
  · simp [decode, h]
  · obtain ⟨t, ht, hw⟩ := writeback_writesReg rt (readReg s rs &&& zextImm imm) s
    have ⟨hreg, _⟩ := hw
    exact ⟨t, ht, hw, hreg.upper_half_eq_zero (and_setWidth_upper_half _ imm)⟩
  · exact writeback_writesReg rt (readReg s rs ||| zextImm imm) s
  · exact writeback_writesReg rt (readReg s rs ^^^ zextImm imm) s
  · obtain ⟨t, ht, hw⟩ := writeback_writesReg rt (sextImm imm <<< 16) s
    exact ⟨t, ht, hw, signExtend_shiftLeft_sixteen imm⟩

/-! ### Multiply and count -/

/-- The low 32 bits of a product are the same signed and unsigned (R180). -/
theorem mulValue_eq_unsigned (a b : Word) : mulValue a b = BitVec.ofNat 32 (a.toNat * b.toNat) := by
  rw [mulValue, BitVec.ofInt_mul, BitVec.ofInt_toInt, BitVec.ofInt_toInt, BitVec.ofNat_mul, BitVec.ofNat_toNat,
    BitVec.ofNat_toNat, BitVec.setWidth_eq, BitVec.setWidth_eq]

/-- The scan of R150 tests the sign bit. -/
theorem and_signBit_ne_zero_iff (v : Word) : v &&& 0x80000000 ≠ 0 ↔ v.msb = true := by
  have hmask : (0x80000000 : Word) = BitVec.twoPow 32 31 := rfl
  rw [hmask, BitVec.and_twoPow, BitVec.msb_eq_getLsbD_last]
  by_cases h : v.getLsbD 31 = true
  · rw [if_pos h]
    exact iff_of_true (by decide) h
  · rw [if_neg h]
    exact iff_of_false (not_not_intro rfl) h

theorem leadingOnes_succ_of_msb {v : Word} (fuel : Nat) (h : v.msb = true) :
    leadingOnes (fuel + 1) v = leadingOnes fuel (v <<< 1) + 1 :=
  if_pos ((and_signBit_ne_zero_iff v).2 h)

theorem leadingOnes_succ_of_not_msb {v : Word} (fuel : Nat) (h : v.msb = false) : leadingOnes (fuel + 1) v = 0 :=
  if_neg fun hne => Bool.false_ne_true (h.symm.trans ((and_signBit_ne_zero_iff v).1 hne))

theorem leadingOnes_le (fuel : Nat) (v : Word) : leadingOnes fuel v ≤ fuel := by
  induction fuel generalizing v with
  | zero => exact Nat.le_refl 0
  | succ fuel ih =>
    cases h : v.msb with
    | false => rw [leadingOnes_succ_of_not_msb fuel h]; exact Nat.zero_le _
    | true => rw [leadingOnes_succ_of_msb fuel h]; exact Nat.succ_le_succ (ih _)

/-- The bits counted are 1. -/
theorem getMsbD_of_lt_leadingOnes {fuel : Nat} {v : Word} {i : Nat} (hi : i < leadingOnes fuel v) :
    v.getMsbD i = true := by
  induction fuel generalizing v i with
  | zero => exact absurd hi (Nat.not_lt_zero i)
  | succ fuel ih =>
    cases h : v.msb with
    | false =>
      rw [leadingOnes_succ_of_not_msb fuel h] at hi
      exact absurd hi (Nat.not_lt_zero i)
    | true =>
      rw [leadingOnes_succ_of_msb fuel h] at hi
      cases i with
      | zero => exact h
      | succ j =>
        have hj := ih (Nat.lt_of_succ_lt_succ hi)
        rwa [BitVec.getMsbD_shiftLeft] at hj

/-- The bit that ends the count is 0. -/
theorem getMsbD_leadingOnes {fuel : Nat} {v : Word} (hlt : leadingOnes fuel v < fuel) :
    v.getMsbD (leadingOnes fuel v) = false := by
  induction fuel generalizing v with
  | zero => exact absurd hlt (Nat.not_lt_zero _)
  | succ fuel ih =>
    cases h : v.msb with
    | false => rwa [leadingOnes_succ_of_not_msb fuel h]
    | true =>
      rw [leadingOnes_succ_of_msb fuel h] at hlt ⊢
      rw [← BitVec.getMsbD_shiftLeft]
      exact ih (Nat.lt_of_succ_lt_succ hlt)

/-- The count of leading ones by bit positions: the top `n` bits are 1 and the next one, if there is one, is 0. -/
theorem leadingOnes_spec (v : Word) :
    leadingOnes 32 v ≤ 32 ∧
    (∀ i, 32 - leadingOnes 32 v ≤ i → i < 32 → v.getLsbD i = true) ∧
    (leadingOnes 32 v < 32 → v.getLsbD (31 - leadingOnes 32 v) = false) := by
  refine ⟨leadingOnes_le 32 v, fun i hlo hi => ?_, fun hlt => ?_⟩
  · have hcount : 31 - i < leadingOnes 32 v := by omega
    have hbit := getMsbD_of_lt_leadingOnes hcount
    rw [BitVec.getLsbD_eq_getMsbD, hbit]
    simp [hi]
  · have hbit := getMsbD_leadingOnes hlt
    rw [BitVec.getMsbD_eq_getLsbD] at hbit
    simpa [hlt] using hbit

/-- The count of leading zeros is the count of leading ones of the inverted word (R181). -/
theorem leadingOnes_not_spec (v : Word) :
    leadingOnes 32 (~~~v) ≤ 32 ∧
    (∀ i, 32 - leadingOnes 32 (~~~v) ≤ i → i < 32 → v.getLsbD i = false) ∧
    (leadingOnes 32 (~~~v) < 32 → v.getLsbD (31 - leadingOnes 32 (~~~v)) = true) := by
  obtain ⟨hle, hones, hzero⟩ := leadingOnes_spec (~~~v)
  refine ⟨hle, fun i hlo hi => ?_, fun hlt => ?_⟩
  · simpa [hi] using hones i hlo hi
  · have hin : 31 - leadingOnes 32 (~~~v) < 32 := by omega
    simpa [hin] using hzero hlt

/-- Settles O34: the counts hold by induction on the scan of R150. -/
theorem multiplyAndCountResults : Obligations.MultiplyAndCountResults := by
  refine ⟨fun w hop => ⟨fun h => ?_, fun h => ?_, fun h => ?_⟩, fun s rd rs rt => ⟨?_, ?_, ?_⟩⟩
  · rw [decode_special2 hop, decodeSpecial2_mul h]
  · rw [decode_special2 hop, decodeSpecial2_clz h]
  · rw [decode_special2 hop, decodeSpecial2_clo h]
  · obtain ⟨t, ht, hw⟩ := writeback_writesReg rd (mulValue (readReg s rs) (readReg s rt)) s
    have ⟨_, _, _, honly⟩ := hw
    refine ⟨t, ht, hw, mulValue_eq_unsigned _ _, ?_, ?_⟩
    · rw [honly]
    · rw [honly]
  · obtain ⟨t, ht, hw⟩ := writeback_writesReg rd (countLeadingZeros (readReg s rs)) s
    exact ⟨t, _, ht, hw, leadingOnes_not_spec _⟩
  · obtain ⟨t, ht, hw⟩ := writeback_writesReg rd (countLeadingOnes (readReg s rs)) s
    exact ⟨t, _, ht, hw, leadingOnes_spec _⟩

/-! ### Conditional moves -/

/-- A register that is not written holds its old value, so an advance alone writes that value back. -/
theorem advance_writesReg_old (s : State) (r : Reg) : WritesReg s (advance s) r (readReg s r) := by
  obtain ⟨hadv, hregs, hmem, honly⟩ := advance_frame s
  refine ⟨⟨?_, fun q _ => hregs q⟩, hadv, hmem, ?_⟩
  · split
    next hr => rw [hregs, hr, readReg_zero]
    next => exact hregs r
  · exact honly

/-- The result of a conditional writeback, by the condition its flag decides. -/
theorem writeback_writesReg_of_iff {c : Bool} {cond : Prop} [Decidable cond] (h : c = true ↔ cond) (r : Reg) (v : Word)
    (s : State) :
    ∃ t, writeback r.toNat v c s = .next t ∧ WritesReg s t r (if cond then v else readReg s r) := by
  refine ⟨_, writeback_reg r v c s, ?_⟩
  by_cases hc : cond
  · rw [if_pos hc, if_pos (h.2 hc)]
    exact advance_writeReg_writesReg s r v
  · rw [if_neg hc, if_neg (hc ∘ h.1)]
    exact advance_writesReg_old s r

/-- Settles O35: the condition is the flag of the writeback, and a writeback advances with either flag. -/
theorem conditionalMoveResults : Obligations.ConditionalMoveResults := by
  refine ⟨fun w hop => ⟨fun h => ?_, fun h => ?_⟩, fun s rd rs rt => ⟨?_, ?_⟩⟩
  · rw [decode_special hop, decodeSpecial_movz h]
  · rw [decode_special hop, decodeSpecial_movn h]
  · exact writeback_writesReg_of_iff beq_iff_eq rd _ s
  · exact writeback_writesReg_of_iff bne_iff_ne rd _ s

end Sys2Proof.Machine
end

section
/-! Load-linked and store-conditional (43_load_store.md R213, R214). -/

namespace Sys2Proof.Machine

/-! ### Load-linked -/

/-- Settles O38: both instructions are the common load with the value of a word load. -/
theorem loadLinkedIsLoadWord : Obligations.LoadLinkedIsLoadWord := by
  refine ⟨fun w h => ?_, fun s rt rs imm => ⟨rfl, fun htr => ?_⟩⟩
  · simp [decode, h]
  · exact load_spec lwValue rt imm rs s htr

/-! ### Store-conditional -/

/-- A register write commutes with a memory write and the advance. -/
theorem advance_memWrite_writeReg (s : State) (r : Reg) (v a w : Word) :
    advance (memWrite (writeReg s r v) a w) = writeReg (advance (memWrite s a w)) r v := by
  unfold writeReg
  split <;> rfl

theorem andThen_assoc (r : Result) (k k' : State → Result) :
    andThen (andThen r k) k' = andThen r fun s => andThen (k s) k' := by
  cases r <;> rfl

/-- `sc` is `sw` and then a write of 1 to the register it stored. -/
theorem exec_sc_eq (rt : Reg) (imm : BitVec 16) (rs : Reg) (s : State) :
    exec (.sc rt imm rs) s = andThen (exec (.sw rt imm rs) s) fun u => .next (writeReg u rt 1) := by
  refine Eq.trans ?_ (andThen_assoc _ _ _).symm
  refine congrArg (andThen _) (funext fun s1 => ?_)
  rw [writeback_zero, writeback_zero, andThen_next, advance_memWrite_writeReg]

/-- Where no register has changed yet, one write gives the one written register. -/
theorem SameRegs.regWritten_writeReg {s u : State} (h : SameRegs s u) (r : Reg) (v : Word) :
    RegWritten s (writeReg u r v) r v :=
  ⟨readReg_writeReg_same u r v, fun q hq => (readReg_writeReg_of_ne u v hq).trans (h q)⟩

theorem OnlyRegsMemoryAndTrackerChanged.writeReg {s u : State} (h : OnlyRegsMemoryAndTrackerChanged s u) (r : Reg)
    (v : Word) : OnlyRegsMemoryAndTrackerChanged s (writeReg u r v) := by
  apply State.ext <;> simp <;> rw [h]

/-- Settles O42: the store has taken the old register before the write of 1, which reaches neither memory nor the tracker. -/
theorem storeConditionalAlwaysSucceeds : Obligations.StoreConditionalAlwaysSucceeds := by
  refine ⟨fun w h => ?_, fun s rt rs imm hwf htr => ?_⟩
  · simp [decode, h]
  · obtain ⟨u, hu, hmem, hregs, hadv, htracked, honly⟩ := store_spec swValue rt imm rs s htr
    have halign := (and_three_eq_zero_iff _).2 (alignDown_mod (effectiveAddress (readReg s rs) imm))
    refine ⟨writeReg u rt 1, ?_, hregs.regWritten_writeReg rt 1, ?_, fun a ha => ?_, ?_, ?_, honly.writeReg rt 1⟩
    · rw [exec_sc_eq]
      exact congrArg (andThen · _) hu
    · rw [memRead_writeReg]
      exact (memRead_congr hmem _).trans ((memRead_memWrite hwf halign halign _).trans (if_pos rfl))
    · rw [memByte_congr (writeReg_mem u rt 1)]
      exact (memByte_of_mem_eq hwf hmem a).trans (if_neg ha)
    · simpa [Advanced] using hadv
    · simpa [Tracked, effectiveAddress, sextImm] using htracked

end Sys2Proof.Machine
end

section
/-! Hint extraction (46_preimage.md R287). -/

namespace Sys2Proof.Machine

/-- The length prefix of a buffer is its first word, once that is there. -/
theorem hintLength_eq (buf : List Byte) :
    hintLength buf = if buf.length < 4 then none else some (wordOfBytes buf).toNat := by
  match buf with
  | [] | [_] | [_, _] | [_, _, _] => rfl
  | _ :: _ :: _ :: _ :: tail =>
    have hlen : ¬ tail.length + 4 < 4 := by omega
    exact (if_neg hlen).symm

/-- A buffer starts with no complete record exactly if its prefix or the payload it announces is cut short. -/
theorem completeRecord_eq_false_iff {buf : List Byte} :
    completeRecord buf = false ↔ buf.length < 4 ∨ buf.length - 4 < (wordOfBytes buf).toNat := by
  rw [completeRecord, hintLength_eq]
  by_cases hlen : buf.length < 4
  · simp [hlen]
  · simp only [if_neg hlen, decide_eq_false_iff_not]
    omega

/-- A channel that accepts the payloads holds them all, after those it held before. -/
theorem Ports.sendHints_hints_of_accepts {p : Ports} {payloads : List (List Byte)}
    (h : Room.accepts p.hintRoom payloads.length = true) : (p.sendHints payloads).hints = p.hints ++ payloads :=
  congrArg (p.hints ++ ·) (Room.taken_of_accepts h)

/-- A hint channel that never fails takes every write of hint bytes. -/
theorem writeHint_completes {s : State} (h : s.ports.hintRoom = none) (bytes : List Byte) :
    ∃ t, writeHint bytes s = .next t := by
  cases hw : writeHint bytes s with
  | next t => exact ⟨t, rfl⟩
  | fault f =>
    obtain ⟨payloads, _, hroom⟩ := writeHint_eq_fault hw
    rw [h] at hroom
    exact absurd hroom.symm Bool.false_ne_true
  | refused e => exact absurd hw (writeHint_ne_refused bytes s e)

/-- Settles O53: the extraction loop splits the buffer into records and an incomplete rest, and a channel that lets the write
complete has taken every payload. -/
theorem hintRecordsAreForwardedInOrder : Obligations.HintRecordsAreForwardedInOrder := by
  refine fun s bytes => ⟨fun h => writeHint_completes h bytes, fun t ht => ?_⟩
  obtain ⟨payloads, hsplit, hrest, hlen, hroom, hframe⟩ := writeHint_eq_next ht
  have hports : t.ports = s.ports.sendHints payloads := congrArg State.ports hframe
  refine ⟨payloads, hsplit, hlen, completeRecord_eq_false_iff.1 hrest, ?_, ?_⟩
  · rw [hports, Ports.sendHints_hints_of_accepts hroom]
  · rw [hports]
    exact hframe

end Sys2Proof.Machine
end

section
/-! Decoding of encoded instructions and the rows of the opcode table (30_encoding.md R90 to R99). -/

namespace Sys2Proof

/-! ### Decode after encode -/

theorem decode_encode (i : Instr) : decode (encode i) = .ok i := by
  cases i with
  | bltz _ _ | bgez _ _ => simp [encode, decode_regimm, decodeRegimm]
  | mul _ _ _ | clz _ _ | clo _ _ => simp [encode, decode_special2, decodeSpecial2]
  | j _ | jal _ => simp [encode, decode]
  | beq _ _ _ | bne _ _ _ | blez _ _ | bgtz _ _ => simp [encode, decode]
  | addi _ _ _ | addiu _ _ _ | slti _ _ _ | sltiu _ _ _ | andi _ _ _ | ori _ _ _ | xori _ _ _ | lui _ _ =>
    simp [encode, decode]
  | lb _ _ _ | lh _ _ _ | lwl _ _ _ | lw _ _ _ | lbu _ _ _ | lhu _ _ _ | lwr _ _ _ | ll _ _ _ => simp [encode, decode]
  | sb _ _ _ | sh _ _ _ | swl _ _ _ | sw _ _ _ | swr _ _ _ | sc _ _ _ => simp [encode, decode]
  | _ => simp [encode, decode_special, decodeSpecial]

/-- Settles O2: the decoder selects by the fields the encoder put in, and reads back the others. -/
theorem decodeEncodeRoundTrip : Obligations.DecodeEncodeRoundTrip := decode_encode

/-- Settles O4: SPECIAL and SPECIAL2 select by the function code and the other three by the primary opcode, so the fields an
instruction does not hold are not read. -/
theorem unreadFieldsAreIgnored : Obligations.UnreadFieldsAreIgnored := by
  intro rs rt rd sh imm
  simp [decode_special, decode_special2, decodeSpecial, decodeSpecial2]
  simp [decode]

/-! ### The fields a row of the table selects by -/

theorem opcodeField_of_and_mask {w p : Word} (h : w &&& 0xFC000000 = p) : opcodeField w = opcodeField p := by
  rw [← h, and_opcode_mask, opcodeField_encodeI]

theorem fields_of_and_funct_mask {w p : Word} (h : w &&& 0xFC00003F = p) :
    opcodeField w = opcodeField p ∧ functField w = functField p := by
  rw [← h, and_funct_mask, opcodeField_encodeR, functField_encodeR]
  exact ⟨rfl, rfl⟩

theorem fields_of_and_regimm_mask {w p : Word} (h : w &&& 0xFC1F0000 = p) :
    opcodeField w = opcodeField p ∧ rtField w = rtField p := by
  rw [← h, and_regimm_mask, opcodeField_encodeI, rtField_encodeI]
  exact ⟨rfl, rfl⟩

/-! The selecting fields of a literal word, so that `simp` evaluates them. -/

theorem opcodeField_ofNat (n : Nat) : opcodeField (BitVec.ofNat 32 n) = BitVec.ofNat 6 (n >>> 26) := by
  refine BitVec.eq_of_getLsbD_eq fun k hk => ?_
  have : 26 + k < 32 := by omega
  rw [opcodeField, BitVec.getLsbD_extractLsb', BitVec.getLsbD_ofNat, BitVec.getLsbD_ofNat, Nat.testBit_shiftRight]
  simp [hk, this]

theorem rtField_ofNat (n : Nat) : rtField (BitVec.ofNat 32 n) = BitVec.ofNat 5 (n >>> 16) := by
  refine BitVec.eq_of_getLsbD_eq fun k hk => ?_
  have : 16 + k < 32 := by omega
  rw [rtField, BitVec.getLsbD_extractLsb', BitVec.getLsbD_ofNat, BitVec.getLsbD_ofNat, Nat.testBit_shiftRight]
  simp [hk, this]

theorem functField_ofNat (n : Nat) : functField (BitVec.ofNat 32 n) = BitVec.ofNat 6 n := by
  refine BitVec.eq_of_getLsbD_eq fun k hk => ?_
  have : k < 32 := by omega
  rw [functField, BitVec.getLsbD_extractLsb', BitVec.getLsbD_ofNat, BitVec.getLsbD_ofNat]
  simp [hk, this]

theorem applies_iff {r : EncodingRow} {w : Word} : r.applies w = true ↔ w &&& r.mask = r.pattern := beq_iff_eq

/-- A word an instruction's row applies to is decoded. -/
theorem decodes_of_row_applies {i : Instr} {w : Word} (h : i.row.applies w = true) : ∃ j, decode w = .ok j := by
  rw [applies_iff] at h
  cases i with
  | bltz _ _ | bgez _ _ =>
    obtain ⟨hop, hrt⟩ := fields_of_and_regimm_mask h
    simp [Instr.row, opcodeField_ofNat, rtField_ofNat] at hop hrt
    rw [decode_regimm hop]
    simp [decodeRegimm, hrt]
  | mul _ _ _ | clz _ _ | clo _ _ =>
    obtain ⟨hop, hfn⟩ := fields_of_and_funct_mask h
    simp [Instr.row, opcodeField_ofNat, functField_ofNat] at hop hfn
    rw [decode_special2 hop]
    simp [decodeSpecial2, hfn]
  | j _ | jal _ | beq _ _ _ | bne _ _ _ | blez _ _ | bgtz _ _ =>
    have hop := opcodeField_of_and_mask h
    simp [decode, hop, Instr.row, opcodeField_ofNat]
  | addi _ _ _ | addiu _ _ _ | slti _ _ _ | sltiu _ _ _ | andi _ _ _ | ori _ _ _ | xori _ _ _ | lui _ _ =>
    have hop := opcodeField_of_and_mask h
    simp [decode, hop, Instr.row, opcodeField_ofNat]
  | lb _ _ _ | lh _ _ _ | lwl _ _ _ | lw _ _ _ | lbu _ _ _ | lhu _ _ _ | lwr _ _ _ | ll _ _ _ =>
    have hop := opcodeField_of_and_mask h
    simp [decode, hop, Instr.row, opcodeField_ofNat]
  | sb _ _ _ | sh _ _ _ | swl _ _ _ | sw _ _ _ | swr _ _ _ | sc _ _ _ =>
    have hop := opcodeField_of_and_mask h
    simp [decode, hop, Instr.row, opcodeField_ofNat]
  | _ =>
    obtain ⟨hop, hfn⟩ := fields_of_and_funct_mask h
    simp [Instr.row, opcodeField_ofNat, functField_ofNat] at hop hfn
    rw [decode_special hop]
    simp [decodeSpecial, hfn]

/-! ### The decoded instruction's own row -/

theorem row_applies_of_decodeSpecial {w : Word} {i : Instr} (hop : opcodeField w = 0) (h : decodeSpecial w = .ok i) :
    i.row.applies w = true := by
  rw [applies_iff]
  unfold decodeSpecial at h
  split at h <;> cases h
  all_goals
    rename_i hfn
    exact (and_funct_mask w).trans (by rw [hop, hfn]; rfl)

theorem row_applies_of_decodeSpecial2 {w : Word} {i : Instr} (hop : opcodeField w = 0x1c)
    (h : decodeSpecial2 w = .ok i) : i.row.applies w = true := by
  rw [applies_iff]
  unfold decodeSpecial2 at h
  split at h <;> cases h
  all_goals
    rename_i hfn
    exact (and_funct_mask w).trans (by rw [hop, hfn]; rfl)

theorem row_applies_of_decodeRegimm {w : Word} {i : Instr} (hop : opcodeField w = 1) (h : decodeRegimm w = .ok i) :
    i.row.applies w = true := by
  rw [applies_iff]
  unfold decodeRegimm at h
  split at h <;> cases h
  all_goals
    rename_i hrt
    exact (and_regimm_mask w).trans (by rw [hop, hrt]; rfl)

theorem row_applies_of_decode {w : Word} {i : Instr} (h : decode w = .ok i) : i.row.applies w = true := by
  unfold decode at h
  split at h
  case h_1 hop => exact row_applies_of_decodeSpecial hop h
  case h_2 hop => exact row_applies_of_decodeRegimm hop h
  case h_17 hop => exact row_applies_of_decodeSpecial2 hop h
  case h_32 => cases h
  all_goals
    rename_i hop
    cases h
    exact applies_iff.2 ((and_opcode_mask w).trans (by rw [hop]; rfl))

/-! ### The table's rows are those of the instructions -/

/-- One instruction for each row of the table, in the table's order. -/
def rowInstrs : List Instr :=
  [.j 0, .jal 0, .jr 0, .jalr 0 0, .beq 0 0 0, .bne 0 0 0, .blez 0 0, .bgtz 0 0, .bltz 0 0, .bgez 0 0,
   .sll 0 0 0, .srl 0 0 0, .sra 0 0 0, .sllv 0 0 0, .srlv 0 0 0, .srav 0 0 0,
   .add 0 0 0, .addu 0 0 0, .sub 0 0 0, .subu 0 0 0, .and 0 0 0, .or 0 0 0, .xor 0 0 0, .nor 0 0 0, .slt 0 0 0,
   .sltu 0 0 0, .addi 0 0 0, .addiu 0 0 0, .slti 0 0 0, .sltiu 0 0 0, .andi 0 0 0, .ori 0 0 0, .xori 0 0 0, .lui 0 0,
   .mul 0 0 0, .clz 0 0, .clo 0 0, .movz 0 0 0, .movn 0 0 0,
   .special0x0d 0 0, .special0x0e 0 0, .special0x0f 0 0, .special0x1c 0 0, .special0x1d 0 0, .special0x1e 0 0,
   .special0x1f 0 0, .lb 0 0 0, .lh 0 0 0, .lwl 0 0 0, .lw 0 0 0, .lbu 0 0 0, .lhu 0 0 0, .lwr 0 0 0, .ll 0 0 0,
   .sb 0 0 0, .sh 0 0 0, .swl 0 0 0, .sw 0 0 0, .swr 0 0 0, .sc 0 0 0,
   .mfhi 0, .mthi 0, .mflo 0, .mtlo 0, .mult 0 0, .multu 0 0, .div 0 0, .divu 0 0, .syscall]

theorem encodingRows_eq : encodingRows = rowInstrs.map Instr.row := rfl

theorem row_of_mem_encodingRows {r : EncodingRow} (h : r ∈ encodingRows) : ∃ i : Instr, i.row = r := by
  rw [encodingRows_eq] at h
  obtain ⟨i, _, hi⟩ := List.mem_map.1 h
  exact ⟨i, hi⟩

/-- An instruction's row does not depend on its operands. -/
theorem row_mem_encodingRows (i : Instr) : i.row ∈ encodingRows := by
  cases i <;> (simp only [Instr.row]; decide)

/-- Two different rows differ in a bit that both select by. -/
theorem encodingRows_pairwise :
    encodingRows.Pairwise fun r r' => (r.pattern ^^^ r'.pattern) &&& (r.mask &&& r'.mask) ≠ 0 := by decide

/-- Two rows that apply to one word agree on the bits both select by. -/
theorem common_bits_of_applies {r r' : EncodingRow} {w : Word} (h : r.applies w = true) (h' : r'.applies w = true) :
    (r.pattern ^^^ r'.pattern) &&& (r.mask &&& r'.mask) = 0 := by
  rw [applies_iff] at h h'
  rw [← h, ← h']
  refine BitVec.eq_of_getLsbD_eq fun k _ => ?_
  simp only [BitVec.getLsbD_and, BitVec.getLsbD_xor]
  cases w.getLsbD k <;> cases r.mask.getLsbD k <;> simp

theorem row_unique {r r' : EncodingRow} {w : Word} (hr : r ∈ encodingRows) (hr' : r' ∈ encodingRows)
    (h : r.applies w = true) (h' : r'.applies w = true) : r = r' := by
  have symm : Std.Symm fun r r' : EncodingRow => (r.pattern ^^^ r'.pattern) &&& (r.mask &&& r'.mask) ≠ 0 :=
    ⟨fun a b hab => by rwa [BitVec.xor_comm, BitVec.and_comm b.mask]⟩
  by_contra hne
  exact encodingRows_pairwise.forall hr hr' hne (common_bits_of_applies h h')

/-- Settles O3: a row that applies fixes the fields the decoder selects by, the decoder's map leads back to the instruction's
own row, and any two rows of the table differ in a bit that both select by. -/
theorem legalWordsAreTheDecodedOnes : Obligations.LegalWordsAreTheDecodedOnes := by
  refine fun w => ⟨?_, fun i => row_applies_of_decode, fun r hr r' hr' => row_unique hr hr'⟩
  rw [legalWord, List.any_eq_true]
  constructor
  · rintro ⟨r, hr, h⟩
    obtain ⟨i, rfl⟩ := row_of_mem_encodingRows hr
    exact decodes_of_row_applies h
  · rintro ⟨i, hi⟩
    exact ⟨i.row, row_mem_encodingRows i, row_applies_of_decode hi⟩

end Sys2Proof
end

section
/-! The fatal list of the decoder and the abort it raises (30_encoding.md R96, 60_exceptions.md R302). -/

namespace Sys2Proof

/-! ### The words the decoder rejects as invalid instructions -/

/-- The function codes of the fatal list under SPECIAL (R96). -/
def FatalSpecial (fn : BitVec 6) : Prop :=
  fn.toNat ∈ [0x01, 0x05, 0x14, 0x15, 0x16, 0x17, 0x28, 0x29] ∨ 0x2c ≤ fn.toNat

/-- The primary opcodes of the fatal list (R96). -/
def FatalOpcode (op : BitVec 6) : Prop :=
  (0x10 ≤ op.toNat ∧ op.toNat ≤ 0x1b) ∨ (0x1d ≤ op.toNat ∧ op.toNat ≤ 0x1f) ∨
  op.toNat ∈ [0x27, 0x2c, 0x2d, 0x2f] ∨ (0x31 ≤ op.toNat ∧ op.toNat ≤ 0x37) ∨ 0x39 ≤ op.toNat

/-- The fatal function codes are those that the map of R92 leaves out. -/
theorem fatalSpecial_iff_not_mem (fn : BitVec 6) : FatalSpecial fn ↔
    fn ∉ [0x00#6, 0x02#6, 0x03#6, 0x04#6, 0x06#6, 0x07#6, 0x08#6, 0x09#6, 0x0a#6, 0x0b#6, 0x0c#6, 0x0d#6, 0x0e#6, 0x0f#6,
      0x10#6, 0x11#6, 0x12#6, 0x13#6, 0x18#6, 0x19#6, 0x1a#6, 0x1b#6, 0x1c#6, 0x1d#6, 0x1e#6, 0x1f#6, 0x20#6, 0x21#6,
      0x22#6, 0x23#6, 0x24#6, 0x25#6, 0x26#6, 0x27#6, 0x2a#6, 0x2b#6] := by
  unfold FatalSpecial
  revert fn
  decide

/-- The fatal primary opcodes are those that the map of R91 leaves out. -/
theorem fatalOpcode_iff_not_mem (op : BitVec 6) : FatalOpcode op ↔
    op ∉ [0x00#6, 0x01#6, 0x02#6, 0x03#6, 0x04#6, 0x05#6, 0x06#6, 0x07#6, 0x08#6, 0x09#6, 0x0a#6, 0x0b#6, 0x0c#6, 0x0d#6,
      0x0e#6, 0x0f#6, 0x1c#6, 0x20#6, 0x21#6, 0x22#6, 0x23#6, 0x24#6, 0x25#6, 0x26#6, 0x28#6, 0x29#6, 0x2a#6, 0x2b#6,
      0x2e#6, 0x30#6, 0x38#6] := by
  unfold FatalOpcode
  revert op
  decide

theorem decodeSpecial_eq_error {w : Word} {e : DecodeError} :
    decodeSpecial w = .error e ↔ e = .invalidInstruction ∧ FatalSpecial (functField w) := by
  rw [fatalSpecial_iff_not_mem]
  unfold decodeSpecial
  split
  case h_37 => simp_all [eq_comm]
  all_goals
    rename_i h
    simp [h]

theorem decodeSpecial2_eq_error {w : Word} {e : DecodeError} :
    decodeSpecial2 w = .error e ↔ e = .invalidInstruction ∧ (functField w).toNat ∉ [0x02, 0x20, 0x21] := by
  have codes : ∀ fn : BitVec 6, fn.toNat ∉ [0x02, 0x20, 0x21] ↔ fn ∉ [0x02#6, 0x20#6, 0x21#6] := by decide
  rw [codes]
  unfold decodeSpecial2
  split
  case h_4 => simp_all [eq_comm]
  all_goals
    rename_i h
    simp [h]

/-- The decoder rejects a word as an invalid instruction exactly on the fatal list. -/
theorem decode_eq_invalidInstruction {w : Word} :
    decode w = .error .invalidInstruction ↔
      FatalOpcode (opcodeField w) ∨ (opcodeField w = 0 ∧ FatalSpecial (functField w)) ∨
      (opcodeField w = 0x1c ∧ (functField w).toNat ∉ [0x02, 0x20, 0x21]) := by
  by_cases h0 : opcodeField w = 0
  · rw [decode_special h0, decodeSpecial_eq_error, fatalOpcode_iff_not_mem]
    simp [h0]
  by_cases h1 : opcodeField w = 1
  · rw [decode_regimm h1, fatalOpcode_iff_not_mem]
    unfold decodeRegimm
    split <;> simp [h1]
  by_cases h2 : opcodeField w = 0x1c
  · rw [decode_special2 h2, decodeSpecial2_eq_error, fatalOpcode_iff_not_mem]
    simp [h2]
  rw [fatalOpcode_iff_not_mem]
  unfold decode
  split
  case h_32 => simp_all
  all_goals
    rename_i h
    simp_all

end Sys2Proof

namespace Sys2Proof.Machine

/-! ### The steps that abort on them -/

/-- A decoded instruction never raises the abort of the decoder. -/
theorem exec_ne_invalidInstruction (i : Instr) (s : State) (w : Word) : exec i s ≠ .fault (.invalidInstruction w) :=
  fun h => by simpa using exec_eq_fault h

theorem decode_ne_truncated (w : Word) : decode w ≠ .error .truncated := by
  unfold decode decodeRegimm
  split
  case h_1 => simp [decodeSpecial_eq_error]
  case h_2 => split <;> simp
  case h_17 => simp [decodeSpecial2_eq_error]
  all_goals simp

theorem step_eq_invalidInstruction {s : State} {w : Word} :
    step s = .fault (.invalidInstruction w) ↔
      s.exited = false ∧ s.pc &&& 3 = 0 ∧ w = memRead s s.pc ∧ decode w = .error .invalidInstruction := by
  constructor
  · intro h
    obtain ⟨hrun, ⟨_, hf⟩ | ⟨hpc, e, hdec, hf⟩ | ⟨_, i, _, hexec⟩⟩ := step_eq_fault h
    · cases hf
    · cases e with
      | invalidInstruction =>
        cases hf
        exact ⟨hrun, hpc, rfl, hdec⟩
      | invalidBranch => cases hf
      | truncated => exact absurd hdec (decode_ne_truncated _)
    · exact absurd hexec (exec_ne_invalidInstruction i _ w)
  · rintro ⟨hrun, hpc, rfl, hdec⟩
    rw [step_running hrun hpc, hdec]
    rfl

/-- Settles O6: the fatal list is what the decoder's maps leave out, and no executed instruction raises that abort. -/
theorem invalidInstructionAbort : Obligations.InvalidInstructionAbort := by
  intro s w
  rw [step_eq_invalidInstruction, decode_eq_invalidInstruction]
  simp only [FatalOpcode, FatalSpecial, or_assoc]

end Sys2Proof.Machine
end

section
/-! The machine is the reference pipeline (40_pipeline.md R110): for each family of words, the parts of the pipeline that act are
followed to the meaning of the instruction the word decodes to. -/

namespace Sys2Proof.Machine

/-! ### The ways through the parts of R110 -/

/-- SPECIAL: the operands are the two registers, the destination is `rd`. -/
theorem pipelineInsn_special {w : Word} (hop : opcodeField w = 0) (s : State) :
    pipelineInsn w s = pipelineExecute w (readReg s (rsField w)) (readReg s (rtField w)) 0 (rtField w) (rdField w) none s := by
  simp [pipelineInsn, pipelineMemory, hop]

theorem pipelineInsn_special2 {w : Word} (hop : opcodeField w = 0x1c) (s : State) :
    pipelineInsn w s = pipelineExecute w (readReg s (rsField w)) (readReg s (rtField w)) 0 (rtField w) (rdField w) none s := by
  simp [pipelineInsn, pipelineMemory, hop]

/-- A value that no handler takes is written back to the destination. -/
theorem pipelineExecute_value {w a b m v : Word} {rt rd : Reg} {s : State} (hv : execute w a b m = some v)
    (hop : opcodeField w ≠ 0x38)
    (hh : ¬ ((opcodeField w).toNat = 0 ∧ 8 ≤ (functField w).toNat ∧ (functField w).toNat < 0x1c)) :
    pipelineExecute w a b m rt rd none s = writeback rd.toNat v true s := by
  have hop' : (opcodeField w).toNat ≠ 0x38 := fun h => hop (BitVec.eq_of_toNat_eq h)
  simp [pipelineExecute, hv, pipelineHandlers, if_neg hh, pipelineWrite, hop']

/-- A shift or a three-register operation. -/
theorem pipelineInsn_special_value {w v : Word} {s : State} (hop : opcodeField w = 0)
    (hfn : (functField w).toNat < 8 ∨ 0x1c ≤ (functField w).toNat)
    (hv : specialValue (functField w).toNat (shamtField w).toNat (readReg s (rsField w)) (readReg s (rtField w)) = some v) :
    pipelineInsn w s = writeback (rdField w).toNat v true s := by
  rw [pipelineInsn_special hop]
  refine pipelineExecute_value ?_ ?_ ?_
  · simpa [execute, hop, normalised] using hv
  · simp [hop]
  · omega

theorem specialValue_rs {f : Nat} (h8 : 8 ≤ f) (h20 : f < 0x20) (shamt : Nat) (a b : Word) :
    specialValue f shamt a b = some a := by
  unfold specialValue
  rw [if_neg (by omega), if_neg (by omega), if_neg (by omega), if_neg (by omega), if_neg (by omega), if_neg (by omega),
    if_pos ⟨h8, h20⟩]

/-- SPECIAL functs 8 to 0x1b: the handlers of part 7 act, with `x[rs]` as the value of R150. -/
theorem pipelineInsn_special_handlers {w : Word} (s : State) (hop : opcodeField w = 0) (h8 : 8 ≤ (functField w).toNat)
    (h1c : (functField w).toNat < 0x1c) :
    pipelineInsn w s = pipelineHandlers w (readReg s (rsField w)) (readReg s (rtField w)) (readReg s (rsField w))
      (rtField w) (rdField w) none s := by
  have hv : execute w (readReg s (rsField w)) (readReg s (rtField w)) 0 = some (readReg s (rsField w)) := by
    simp [execute, hop, normalised, specialValue_rs h8 (Nat.lt_trans h1c (by decide))]
  rw [pipelineInsn_special hop, pipelineExecute, hv]

/-! ### SPECIAL -/

theorem divide_overflow_iff (n d : Word) : n.toInt = -2 ^ 31 ∧ d.toInt = -1 ↔ n = 0x80000000 ∧ d = 0xFFFFFFFF := by
  rw [← BitVec.toInt_inj, ← BitVec.toInt_inj]
  rfl

theorem hiLoHandler_div {w : Word} (hfn : functField w = 0x1a) (rd : Reg) (s : State) :
    hiLoHandler w (readReg s (rsField w)) (readReg s (rtField w)) rd s = execDiv (rsField w) (rtField w) s := by
  have hzero : (readReg s (rtField w)).toInt = 0 ↔ readReg s (rtField w) = 0 := by
    rw [← BitVec.toInt_inj]
    rfl
  simp only [hiLoHandler, hfn, execDiv, hzero, divide_overflow_iff]
  rfl

theorem hiLoHandler_divu {w : Word} (hfn : functField w = 0x1b) (rd : Reg) (s : State) :
    hiLoHandler w (readReg s (rsField w)) (readReg s (rtField w)) rd s = execDivu (rsField w) (rtField w) s := by
  have hzero : (readReg s (rtField w)).toNat = 0 ↔ readReg s (rtField w) = 0 := by
    rw [← BitVec.toNat_inj]
    rfl
  simp only [hiLoHandler, hfn, execDivu, hzero]
  rfl

theorem pipelineInsn_of_decodeSpecial {w : Word} {i : Instr} (hop : opcodeField w = 0) (h : decodeSpecial w = .ok i)
    (s : State) : pipelineInsn w s = exec i s := by
  have value {v} := pipelineInsn_special_value (v := v) (s := s) hop
  have handlers := pipelineInsn_special_handlers s hop
  unfold decodeSpecial at h
  split at h
  case h_1 | h_2 | h_3 | h_4 | h_5 | h_6 =>
    rename_i hfn
    cases h
    exact value (by rw [hfn]; decide) (by rw [hfn]; rfl)
  case h_23 | h_24 | h_25 | h_26 | h_27 | h_28 | h_29 | h_30 | h_31 | h_32 | h_33 | h_34 =>
    rename_i hfn
    cases h
    exact value (by rw [hfn]; decide) (by rw [hfn]; rfl)
  case h_35 | h_36 =>
    rename_i hfn
    cases h
    exact value (by rw [hfn]; decide) (by rw [hfn]; simp [specialValue, boolWord, signedLess, unsignedLess])
  case h_9 | h_10 =>
    rename_i hfn
    cases h
    rw [handlers (by rw [hfn]; decide) (by rw [hfn]; decide)]
    simp [pipelineHandlers, hop, hfn, exec, execMovz, execMovn, beq_eq_decide, bne]
  case h_21 | h_22 =>
    rename_i hfn
    cases h
    rw [handlers (by rw [hfn]; decide) (by rw [hfn]; decide)]
    simp [pipelineHandlers, hop, hfn, exec, hiLoHandler_div, hiLoHandler_divu]
  case h_37 => cases h
  all_goals
    rename_i hfn
    cases h
    rw [handlers (by rw [hfn]; decide) (by rw [hfn]; decide)]
    simp only [pipelineHandlers, pipelineWrite, hop, hfn, hiLoHandler]
    rfl

/-! ### SPECIAL2 and the immediates -/

theorem pipelineInsn_of_decodeSpecial2 {w : Word} {i : Instr} (hop : opcodeField w = 0x1c)
    (h : decodeSpecial2 w = .ok i) (s : State) : pipelineInsn w s = exec i s := by
  rw [pipelineInsn_special2 hop]
  unfold decodeSpecial2 at h
  split at h
  case h_4 => cases h
  all_goals
    rename_i hfn
    cases h
    exact pipelineExecute_value (by simp only [execute, hop, hfn, normalised]; rfl) (by simp [hop]) (by simp [hop])

/-- The operand of an immediate instruction (R85): `andi`, `ori` and `xori` extend with zeros. -/
def immediateOperand (w : Word) : Word :=
  if (opcodeField w).toNat = 0x0c ∨ (opcodeField w).toNat = 0x0d ∨ (opcodeField w).toNat = 0x0e then zextImm (imm16Field w)
  else sextImm (imm16Field w)

theorem pipelineInsn_immediate {w : Word} (h8 : 8 ≤ (opcodeField w).toNat) (h10 : (opcodeField w).toNat < 0x10)
    (s : State) :
    pipelineInsn w s =
      pipelineExecute w (readReg s (rsField w)) (immediateOperand w) 0 (rtField w) (rtField w) none s := by
  unfold pipelineInsn pipelineMemory immediateOperand
  generalize (opcodeField w).toNat = n at *
  interval_cases n <;> rfl

theorem pipelineInsn_immediate_value {w v : Word} {s : State} (h8 : 8 ≤ (opcodeField w).toNat)
    (h10 : (opcodeField w).toNat < 0x10) (hv : execute w (readReg s (rsField w)) (immediateOperand w) 0 = some v) :
    pipelineInsn w s = writeback (rtField w).toNat v true s := by
  rw [pipelineInsn_immediate h8 h10]
  refine pipelineExecute_value hv (fun h => ?_) (by omega)
  rw [h] at h10
  exact absurd h10 (by decide)

/-! ### Jumps and branches -/

theorem pipelineInsn_jump {w : Word} (s : State) (hop : opcodeField w = 2 ∨ opcodeField w = 3) :
    pipelineInsn w s = jump (if opcodeField w = 3 then 31#5 else 0#5) (jumpTarget (indexField w)) s := by
  rcases hop with hop | hop <;> simp [pipelineInsn, hop, jumpTarget]

theorem pipelineInsn_branch {w : Word} (s : State) (hop : opcodeField w ∈ [1#6, 4#6, 5#6, 6#6, 7#6]) :
    pipelineInsn w s = branchHandler w (readReg s (rsField w)) s := by
  simp only [List.mem_cons, List.not_mem_nil, or_false] at hop
  rcases hop with hop | hop | hop | hop | hop <;> simp [pipelineInsn, hop]

theorem branchHandler_regimm {w : Word} (hop : opcodeField w = 1) (a : Word) (s : State) :
    branchHandler w a s =
      match (rtField w).toNat with
      | 0 => branch (takenLtz a) (imm16Field w) s
      | 1 => branch (takenGez a) (imm16Field w) s
      | _ => raise .invalidBranch := by
  unfold branchHandler
  rw [hop]
  rfl

/-! ### Loads and stores -/

/-- `rt_val` of a load or store (R110, part 4): only stores, `lwl` and `lwr` read the register (log entry 28). -/
def memoryOperand (w : Word) (s : State) : Word :=
  if 0x28 ≤ (opcodeField w).toNat ∨ (opcodeField w).toNat = 0x22 ∨ (opcodeField w).toNat = 0x26 then readReg s (rtField w)
  else 0

/-- Part 5 of R110: the access is tracked and the word read; a store gets the address to write and register 0 to write back. -/
theorem pipelineInsn_memory {w : Word} (hop : 0x20 ≤ (opcodeField w).toNat) (s : State) :
    pipelineInsn w s =
      andThen (track (alignDown (effectiveAddress (readReg s (rsField w)) (imm16Field w))) s) fun s5 =>
        if 0x28 ≤ (opcodeField w).toNat ∧ (opcodeField w).toNat ≠ 0x30 then
          pipelineExecute w (effectiveAddress (readReg s (rsField w)) (imm16Field w)) (memoryOperand w s)
            (memRead s5 (alignDown (effectiveAddress (readReg s (rsField w)) (imm16Field w)))) (rtField w) 0
            (some (alignDown (effectiveAddress (readReg s (rsField w)) (imm16Field w)))) s5
        else
          pipelineExecute w (effectiveAddress (readReg s (rsField w)) (imm16Field w)) (memoryOperand w s)
            (memRead s5 (alignDown (effectiveAddress (readReg s (rsField w)) (imm16Field w)))) (rtField w) (rtField w)
            none s5 := by
  have hjump : ¬ ((opcodeField w).toNat = 2 ∨ (opcodeField w).toNat = 3) := by omega
  have hspecial : ¬ ((opcodeField w).toNat = 0 ∨ (opcodeField w).toNat = 0x1c) := by omega
  have halu : ¬ (opcodeField w).toNat < 0x20 := by omega
  have hbranch : ¬ ((opcodeField w).toNat = 4 ∨ (opcodeField w).toNat = 5 ∨ (opcodeField w).toNat = 6 ∨
      (opcodeField w).toNat = 7 ∨ (opcodeField w).toNat = 1) := by omega
  simp only [pipelineInsn, hjump, hspecial, halu, hbranch, if_false, pipelineMemory, if_pos hop]
  rfl

theorem execute_memory {w : Word} (hop : 0x20 ≤ (opcodeField w).toNat) (ea old mem : Word) :
    execute w ea old mem = loadStoreValue (opcodeField w).toNat ea old mem := if_neg (Nat.not_lt.2 hop)

theorem pipelineInsn_load {w : Word} {s : State} {value : Word → Word → Word → Word}
    (hop : 0x20 ≤ (opcodeField w).toNat)
    (hload : (opcodeField w).toNat < 0x28 ∨ (opcodeField w).toNat = 0x30)
    (hv : ∀ ea mem, loadStoreValue (opcodeField w).toNat ea (memoryOperand w s) mem =
      some (value ea (readReg s (rtField w)) mem)) :
    pipelineInsn w s = load value (rtField w) (imm16Field w) (rsField w) s := by
  have hstore : ¬ (0x28 ≤ (opcodeField w).toNat ∧ (opcodeField w).toNat ≠ 0x30) := by omega
  simp only [pipelineInsn_memory hop, if_neg hstore, load]
  congr 1
  funext s5
  exact pipelineExecute_value (by rw [execute_memory hop, hv]) (fun h => by simp [h] at hload) (by omega)

theorem pipelineInsn_store {w : Word} {s : State} {value : Word → Word → Word → Word}
    (hop : 0x28 ≤ (opcodeField w).toNat) (hll : (opcodeField w).toNat ≠ 0x30) (hsc : (opcodeField w).toNat ≠ 0x38)
    (hv : ∀ ea old mem, loadStoreValue (opcodeField w).toNat ea old mem = some (value ea old mem)) :
    pipelineInsn w s = store value (rtField w) (imm16Field w) (rsField w) s := by
  have hmem : 0x20 ≤ (opcodeField w).toNat := by omega
  have hspecial : (opcodeField w).toNat ≠ 0 := by omega
  simp only [pipelineInsn_memory hmem, if_pos (And.intro hop hll), store, pipelineExecute, execute_memory hmem, hv,
    memoryOperand, if_pos (Or.inl hop), pipelineHandlers, hspecial, false_and, if_false, pipelineWrite, if_neg hsc]
  rfl

theorem pipelineInsn_sc {w : Word} (hop : opcodeField w = 0x38) (s : State) :
    pipelineInsn w s = execSc (rtField w) (imm16Field w) (rsField w) s := by
  have hmem : 0x20 ≤ (opcodeField w).toNat := by rw [hop]; decide
  simp only [pipelineInsn_memory hmem, pipelineExecute, execute_memory hmem, memoryOperand, hop, pipelineHandlers,
    pipelineWrite]
  rfl

/-! ### The words that decode -/

theorem pipelineInsn_of_decode {w : Word} {i : Instr} (h : decode w = .ok i) (s : State) :
    pipelineInsn w s = exec i s := by
  unfold decode at h
  split at h
  case h_1 hop => exact pipelineInsn_of_decodeSpecial hop h s
  case h_17 hop => exact pipelineInsn_of_decodeSpecial2 hop h s
  case h_32 => cases h
  case h_2 hop =>
    rw [pipelineInsn_branch s (by simp [hop]), branchHandler_regimm hop]
    unfold decodeRegimm at h
    split at h
    case h_3 => cases h
    all_goals
      rename_i hrt
      cases h
      rw [hrt]
      rfl
  case h_3 | h_4 =>
    rename_i hop
    cases h
    rw [pipelineInsn_jump s (by simp [hop]), hop]
    rfl
  case h_6 =>
    rename_i hop
    cases h
    rw [pipelineInsn_branch s (by simp [hop])]
    simp [branchHandler, hop, exec, execBne, takenNe, bne, beq_eq_decide]
  case h_5 | h_7 | h_8 =>
    rename_i hop
    cases h
    rw [pipelineInsn_branch s (by simp [hop])]
    simp only [branchHandler, hop]
    rfl
  case h_11 | h_12 =>
    rename_i hop
    cases h
    refine pipelineInsn_immediate_value (by rw [hop]; decide) (by rw [hop]; decide) ?_
    simp [execute, immediateOperand, hop, normalised, specialValue, boolWord, signedLess, unsignedLess]
  case h_9 | h_10 | h_13 | h_14 | h_15 | h_16 =>
    rename_i hop
    cases h
    refine pipelineInsn_immediate_value (by rw [hop]; decide) (by rw [hop]; decide) ?_
    simp only [execute, immediateOperand, hop, normalised]
    rfl
  case h_18 | h_19 | h_20 | h_21 | h_22 | h_23 | h_24 | h_30 =>
    rename_i hop
    cases h
    refine pipelineInsn_load (by rw [hop]; decide) (by rw [hop]; decide) fun ea mem => ?_
    simp only [memoryOperand, hop]
    rfl
  case h_31 =>
    rename_i hop
    cases h
    exact pipelineInsn_sc hop s
  all_goals
    rename_i hop
    cases h
    refine pipelineInsn_store (by rw [hop]; decide) (by rw [hop]; decide) (by rw [hop]; decide) fun ea old mem => ?_
    rw [hop]
    rfl

/-! ### The words that do not -/

theorem pipelineExecute_none {w a b m : Word} (hv : execute w a b m = none) (rt rd : Reg) (addr : Option Word)
    (s : State) : pipelineExecute w a b m rt rd addr s = .fault (.invalidInstruction w) := by
  rw [pipelineExecute, hv]
  rfl

theorem execute_fatalOpcode {w : Word} (h : FatalOpcode (opcodeField w)) (a b m : Word) : execute w a b m = none := by
  have hlt := (opcodeField w).isLt
  unfold FatalOpcode at h
  unfold execute
  generalize (opcodeField w).toNat = n at *
  simp only [List.mem_cons, List.not_mem_nil, or_false] at h
  rcases h with ⟨_, _⟩ | ⟨_, _⟩ | (rfl | rfl | rfl | rfl) | ⟨_, _⟩ | _
  case inr.inr.inl.inl | inr.inr.inl.inr.inl | inr.inr.inl.inr.inr.inl | inr.inr.inl.inr.inr.inr => rfl
  all_goals interval_cases n <;> rfl

theorem pipelineInsn_fatalOpcode {w : Word} {s : State} (h : FatalOpcode (opcodeField w)) (hs : s.lastMemAccess = none) :
    pipelineInsn w s = .fault (.invalidInstruction w) := by
  have hnone := execute_fatalOpcode h
  by_cases hop : 0x20 ≤ (opcodeField w).toNat
  · obtain ⟨s5, h5, _⟩ := track_spec (s := s) (addr := alignDown (effectiveAddress (readReg s (rsField w)) (imm16Field w)))
      (.inl hs)
    rw [pipelineInsn_memory hop, h5, andThen_next]
    split <;> exact pipelineExecute_none (hnone ..) ..
  · have h10 : 0x10 ≤ (opcodeField w).toNat := by
      unfold FatalOpcode at h
      simp only [List.mem_cons, List.not_mem_nil, or_false] at h
      omega
    have hjump : ¬ ((opcodeField w).toNat = 2 ∨ (opcodeField w).toNat = 3) := by omega
    have hbranch : ¬ ((opcodeField w).toNat = 4 ∨ (opcodeField w).toNat = 5 ∨ (opcodeField w).toNat = 6 ∨
        (opcodeField w).toNat = 7 ∨ (opcodeField w).toNat = 1) := by omega
    simp only [pipelineInsn, hjump, hbranch, if_false, pipelineMemory, if_neg hop]
    exact pipelineExecute_none (hnone ..) ..

theorem pipelineInsn_fatalSpecial {w : Word} (hop : opcodeField w = 0) (h : FatalSpecial (functField w)) (s : State) :
    pipelineInsn w s = .fault (.invalidInstruction w) := by
  have hlt := (functField w).isLt
  have none_of (hv : ∀ shamt a b, specialValue (functField w).toNat shamt a b = none) :
      pipelineInsn w s = .fault (.invalidInstruction w) := by
    rw [pipelineInsn_special hop]
    exact pipelineExecute_none (by simp [execute, hop, normalised, hv]) ..
  have handler_of (h14 : 0x14 ≤ (functField w).toNat) (h18 : (functField w).toNat < 0x18) :
      pipelineInsn w s = .fault (.invalidInstruction w) := by
    rw [pipelineInsn_special_handlers s hop (by omega) (by omega)]
    unfold pipelineHandlers hiLoHandler
    rw [hop]
    generalize (functField w).toNat = n at *
    interval_cases n <;> rfl
  unfold FatalSpecial at h
  generalize (functField w).toNat = n at *
  simp only [List.mem_cons, List.not_mem_nil, or_false] at h
  rcases h with (rfl | rfl | rfl | rfl | rfl | rfl | rfl | rfl) | h
  case inl.inl | inl.inr.inl => exact none_of fun _ _ _ => rfl
  case inl.inr.inr.inr.inr.inr.inr.inl | inl.inr.inr.inr.inr.inr.inr.inr => exact none_of fun _ _ _ => rfl
  case inr => exact none_of fun _ _ _ => by interval_cases n <;> rfl
  all_goals exact handler_of (by decide) (by decide)

theorem pipelineInsn_fatalSpecial2 {w : Word} (hop : opcodeField w = 0x1c)
    (h : (functField w).toNat ∉ [0x02, 0x20, 0x21]) (s : State) :
    pipelineInsn w s = .fault (.invalidInstruction w) := by
  rw [pipelineInsn_special2 hop]
  simp only [List.mem_cons, List.not_mem_nil, or_false, not_or] at h
  exact pipelineExecute_none (by simp [execute, hop, normalised, h]) ..

theorem pipelineInsn_of_decode_error {w : Word} {e : DecodeError} {s : State} (h : decode w = .error e)
    (hs : s.lastMemAccess = none) : pipelineInsn w s = .fault (decodeFault w e) := by
  cases e with
  | truncated => exact absurd h (decode_ne_truncated w)
  | invalidBranch =>
    obtain ⟨hop, h0, h1⟩ := decode_eq_invalidBranch.1 h
    rw [pipelineInsn_branch s (by simp [hop]), branchHandler_regimm hop]
    split
    next hrt => exact absurd (BitVec.eq_of_toNat_eq hrt) h0
    next hrt => exact absurd (BitVec.eq_of_toNat_eq hrt) h1
    next => rfl
  | invalidInstruction =>
    rcases decode_eq_invalidInstruction.1 h with hf | ⟨hop, hf⟩ | ⟨hop, hf⟩
    · exact pipelineInsn_fatalOpcode hf hs
    · exact pipelineInsn_fatalSpecial hop hf s
    · exact pipelineInsn_fatalSpecial2 hop hf s

/-- Settles O9: both machines start a step alike, and on the word fetched the pipeline runs the meaning of the decoded
instruction or raises the decoder's abort; an opcode of the fatal list above 0x20 aborts after the access is tracked, which
the clear tracker of a step allows. -/
theorem stepIsTheReferencePipeline : Obligations.StepIsTheReferencePipeline := by
  intro s
  cases hrun : s.exited with
  | true => rw [step_exited hrun, pipelineStep, if_pos hrun]
  | false =>
    by_cases hpc : s.pc &&& 3 = 0
    · have hp : pipelineStep s = pipelineInsn (memRead s s.pc) (beginStep s) := by
        simp only [pipelineStep, hrun, Bool.false_eq_true, if_false, beginStep_pc, hpc, memRead_beginStep, ne_eq,
          not_true_eq_false]
      rw [hp]
      cases hd : decode (memRead s s.pc) with
      | ok i => rw [step_decoded hrun hpc hd, pipelineInsn_of_decode hd]
      | error e => rw [step_running hrun hpc, hd, pipelineInsn_of_decode_error hd rfl]
    · rw [step_unaligned hrun hpc, pipelineStep, hrun]
      simp only [Bool.false_eq_true, if_false, beginStep_pc]
      exact (if_pos hpc).symm

end Sys2Proof.Machine
end

section
/-! What the instructions of each kind leave alone, and what a step can stop with (10_state.md R21 to R43, 60_exceptions.md
R301 to R315). -/

namespace Sys2Proof.Machine

/-! ### What a system call leaves alone -/

/-- Tracking the access of a preimage read and fetching the buffer touch the tracker, the cache and the ports alone. -/
theorem readPreimage_frame {s s1 s2 : State} {addr : Word} {key : Key} {offset : Word} (h1 : track addr s = .next s1)
    (h2 : readPreimage key offset s1 = .next s2) :
    s2 = { s with
      lastMemAccess := s2.lastMemAccess, proofCache := s2.proofCache, lastPreimageKey := s2.lastPreimageKey,
      lastPreimage := s2.lastPreimage, lastPreimageOffset := s2.lastPreimageOffset, ports := s2.ports } := by
  obtain ⟨s3, h3, rfl⟩ := readPreimage_eq_next h2
  obtain ⟨_, _, e1⟩ := track_eq_next h1
  rcases fetchPreimage_eq_next h3 with ⟨_, e3⟩ | ⟨_, _, _, e3⟩
  · rw [e3, e1]
  · rw [e3, e1]

/-- A delivery of preimage bytes touches memory and the offset alone. -/
theorem deliverPreimage_frame (addr count : Word) (s : State) :
    (deliverPreimage addr count s).1 = { s with
      mem := (deliverPreimage addr count s).1.mem, preimageOffset := (deliverPreimage addr count s).1.preimageOffset } := rfl

/-- A call other than exit_group touches no register, neither program counter, neither `hi` nor `lo`, no exit state, not the step
counter and no launch parameter before its common return. -/
theorem CallEffect.frame {s u : State} {v0 v1 : Word} (h : CallEffect s u v0 v1) :
    u = { s with
      heap := u.heap, preimageKey := u.preimageKey, preimageOffset := u.preimageOffset, lastHint := u.lastHint,
      mem := u.mem, lastMemAccess := u.lastMemAccess, proofCache := u.proofCache, lastPreimageKey := u.lastPreimageKey,
      lastPreimage := u.lastPreimage, lastPreimageOffset := u.lastPreimageOffset, ports := u.ports } := by
  cases h with
  | results _ _ | heap _ _ | stdout _ _ _ | stderr _ _ _ => rfl
  | hint u _ h =>
    obtain ⟨_, _, _, _, _, e⟩ := writeHint_eq_next h
    rw [e]
  | preimageRead s1 s2 _ _ h1 h2 => rw [deliverPreimage_frame, readPreimage_frame h1 h2]
  | preimageWrite s1 h1 =>
    obtain ⟨_, _, e1⟩ := track_eq_next h1
    rw [acceptKeyBytes_eq, e1]

/-- Memory after a call is as before, unless the call read from fd 5. -/
theorem CallEffect.mem_eq {s u : State} {v0 v1 : Word} (h : CallEffect s u v0 v1)
    (hn : ¬ (readReg s 2#5 = callRead ∧ readReg s 4#5 = fdPreimageRead)) : u.mem = s.mem := by
  cases h with
  | results _ _ | heap _ _ | stdout _ _ _ | stderr _ _ _ => rfl
  | hint u _ h =>
    obtain ⟨_, _, _, _, _, e⟩ := writeHint_eq_next h
    rw [e]
  | preimageRead s1 s2 hr hf _ _ => exact absurd ⟨hr, hf⟩ hn
  | preimageWrite s1 h1 =>
    obtain ⟨_, _, e1⟩ := track_eq_next h1
    rw [acceptKeyBytes_eq, e1]

/-- No call lowers the heap pointer. -/
theorem CallEffect.heap_le {s u : State} {v0 v1 : Word} (h : CallEffect s u v0 v1) : s.heap.toNat ≤ u.heap.toNat := by
  cases h with
  | results _ _ | stdout _ _ _ | stderr _ _ _ => exact Nat.le_refl _
  | heap size hlt =>
    simp only [BitVec.toNat_ofNat, Nat.mod_eq_of_lt hlt]
    exact Nat.le_add_right _ _
  | hint u _ h =>
    obtain ⟨_, _, _, _, _, e⟩ := writeHint_eq_next h
    rw [e]
  | preimageRead s1 s2 _ _ h1 h2 => rw [deliverPreimage_frame, readPreimage_frame h1 h2]
  | preimageWrite s1 h1 =>
    obtain ⟨_, _, e1⟩ := track_eq_next h1
    rw [acceptKeyBytes_eq, e1]

/-- A call that changes the key resets the offset. -/
theorem CallEffect.key_or_offset {s u : State} {v0 v1 : Word} (h : CallEffect s u v0 v1) :
    u.preimageKey = s.preimageKey ∨ u.preimageOffset = 0 := by
  cases h with
  | results _ _ | heap _ _ | stdout _ _ _ | stderr _ _ _ => exact .inl rfl
  | hint u _ h =>
    obtain ⟨_, _, _, _, _, e⟩ := writeHint_eq_next h
    exact .inl (by rw [e])
  | preimageRead s1 s2 _ _ h1 h2 => exact .inl (by rw [deliverPreimage_frame, readPreimage_frame h1 h2])
  | preimageWrite s1 _ => exact .inr rfl

/-! ### What an instruction leaves alone -/

/-- Only exit_group changes `exited`, and it sets it. -/
theorem exec_next_exited {i : Instr} {s t : State} (h : exec i s = .next t) :
    t.exited = s.exited ∨ (i = .syscall ∧ readReg s 2#5 = callExitGroup ∧ t.exited = true) := by
  cases exec_eq_next h with
  | register _ _ _ _ | hiLo _ _ _ | control _ _ _ _ => simp
  | loaded _ _ _ _ _ h1 | stored _ _ _ _ _ _ h1 => rw [(track_eq_next h1).2.2]; simp
  | call _ hs h =>
    rcases execSyscall_eq_next h with ⟨he, rfl⟩ | ⟨_, u, v0, v1, hc, rfl⟩
    · exact .inr ⟨hs, he, rfl⟩
    · exact .inl (by rw [hc.frame]; simp)

/-- Entry 0 of the register file stays as it is. -/
theorem exec_next_regs_zero {i : Instr} {s t : State} (h : exec i s = .next t) : t.regs[0] = s.regs[0] := by
  cases exec_eq_next h with
  | register _ _ _ _ | hiLo _ _ _ | control _ _ _ _ => simp
  | loaded _ _ _ _ _ h1 | stored _ _ _ _ _ _ h1 => rw [(track_eq_next h1).2.2]; simp
  | call _ hs h =>
    rcases execSyscall_eq_next h with ⟨he, rfl⟩ | ⟨_, u, v0, v1, hc, rfl⟩
    · rfl
    · rw [hc.frame]; simp

/-- Every completed instruction but exit_group retires the old `next_pc` next. -/
theorem exec_next_pc {i : Instr} {s t : State} (h : exec i s = .next t)
    (hn : ¬ (i = .syscall ∧ readReg s 2#5 = callExitGroup)) :
    t.pc = s.nextPc ∧ (isControl i = false → t.nextPc = s.nextPc + 4) := by
  cases exec_eq_next h with
  | register _ _ _ _ | hiLo _ _ _ => simp
  | control _ _ _ hc => simp [hc]
  | loaded _ _ _ _ _ h1 | stored _ _ _ _ _ _ h1 => rw [(track_eq_next h1).2.2]; simp
  | call _ hs h =>
    rcases execSyscall_eq_next h with ⟨he, _⟩ | ⟨_, u, v0, v1, hc, rfl⟩
    · exact absurd ⟨hs, he⟩ hn
    · rw [hc.frame]; simp

/-- Settles O12, by the shapes a completed instruction can have. -/
theorem nextPcPolicy : Obligations.NextPcPolicy := fun _ _ _ h hn => exec_next_pc h hn

/-- An instruction that is no system call touches the registers, the program counters, `hi`, `lo`, memory and the tracker at
most. -/
theorem exec_next_frame {i : Instr} {s t : State} (h : exec i s = .next t) (hs : i ≠ .syscall) :
    t = { s with
      regs := t.regs, pc := t.pc, nextPc := t.nextPc, hi := t.hi, lo := t.lo, mem := t.mem,
      lastMemAccess := t.lastMemAccess, proofCache := t.proofCache } := by
  cases exec_eq_next h with
  | register _ _ _ _ | hiLo _ _ _ | control _ _ _ _ => apply State.ext <;> simp
  | loaded _ _ _ _ _ h1 | stored _ _ _ _ _ _ h1 =>
    obtain ⟨_, _, e⟩ := track_eq_next h1
    rw [e]
    apply State.ext <;> simp
  | call _ hc _ => exact absurd hc hs

/-- Memory changes by a store or a read from fd 5 alone. -/
theorem exec_next_mem {i : Instr} {s t : State} (h : exec i s = .next t) (hst : isStore i = false)
    (hn : ¬ (i = .syscall ∧ readReg s 2#5 = callRead ∧ readReg s 4#5 = fdPreimageRead)) : t.mem = s.mem := by
  cases exec_eq_next h with
  | register _ _ _ _ | hiLo _ _ _ | control _ _ _ _ => simp
  | loaded _ _ _ _ _ h1 => rw [(track_eq_next h1).2.2]; simp
  | stored _ _ _ _ _ hl _ => exact absurd (hl.symm.trans hst) (by decide)
  | call _ hs h =>
    rcases execSyscall_eq_next h with ⟨_, rfl⟩ | ⟨_, u, v0, v1, hc, rfl⟩
    · rfl
    · simpa using hc.mem_eq fun hr => hn ⟨hs, hr⟩

theorem isLoadOrStore_of_isStore {i : Instr} (h : isStore i = true) : isLoadOrStore i = true := by
  cases i <;> simp [isStore, isLoadOrStore] at h ⊢

/-- The tracker is reached by loads, stores and system calls alone. -/
theorem exec_next_tracker {i : Instr} {s t : State} (h : exec i s = .next t) (hs : i ≠ .syscall)
    (hl : isLoadOrStore i = false) : t.lastMemAccess = s.lastMemAccess ∧ t.proofCache = s.proofCache := by
  cases exec_eq_next h with
  | register _ _ _ _ | hiLo _ _ _ | control _ _ _ _ => simp
  | loaded _ _ _ _ hl' _ => exact absurd (hl'.symm.trans hl) (by decide)
  | stored _ _ _ _ _ hs' _ => exact absurd ((isLoadOrStore_of_isStore hs').symm.trans hl) (by decide)
  | call _ hc _ => exact absurd hc hs

/-- Settles O21, part by part from the frames above. -/
theorem onlyTheirInstructionsChangeThem : Obligations.OnlyTheirInstructionsChangeThem := by
  refine fun i s t h => ⟨exec_next_mem h, fun hs => ?_, exec_next_tracker h⟩
  rw [exec_next_frame h hs]
  exact ⟨rfl, rfl, rfl, rfl, rfl, rfl, rfl, rfl, rfl, rfl⟩

/-! ### What a step keeps -/

/-- Settles O8: the flag is set by exit_group alone, and a step that starts exited is none. -/
theorem exitedIsTerminal : Obligations.ExitedIsTerminal := by
  refine ⟨fun s h => step_exited h, fun s t h => ?_⟩
  rcases step_eq_next h with ⟨he, rfl⟩ | ⟨he, _, i, hd, hx⟩
  · exact ⟨id, fun hrun => absurd (he.symm.trans hrun) (by decide)⟩
  · refine ⟨fun hex => absurd (hex.symm.trans he) (by decide), fun _ ht => ?_⟩
    rcases exec_next_exited hx with hsame | ⟨rfl, hnum, _⟩
    · exact absurd (ht.symm.trans (hsame.trans he)) (by decide)
    · exact ⟨hd, hnum⟩

/-- Settles O16: the instruction keeps what part 0 of the step set up. -/
theorem stepBookkeeping : Obligations.StepBookkeeping := by
  intro s t h
  rcases step_eq_next h with ⟨he, rfl⟩ | ⟨he, _, i, hd, hx⟩
  · exact ⟨by rw [if_pos he], rfl, rfl, fun i hrun => absurd (he.symm.trans hrun) (by decide)⟩
  · obtain ⟨hcount, hcfg⟩ := exec_next_bookkeeping hx
    have ⟨⟨horacle, _⟩, _⟩ := exec_next_ports hx
    refine ⟨?_, hcfg, horacle, fun j _ hj hl hs => ?_⟩
    · rw [hcount, he]
      rfl
    · obtain rfl : i = j := Except.ok.inj (hd.symm.trans hj)
      exact (exec_next_tracker hx hs hl).1

theorem exec_next_heap_le {i : Instr} {s t : State} (h : exec i s = .next t) : s.heap.toNat ≤ t.heap.toNat := by
  by_cases hs : i = .syscall
  · subst hs
    rcases execSyscall_eq_next h with ⟨_, rfl⟩ | ⟨_, u, v0, v1, hc, rfl⟩
    · exact Nat.le_refl _
    · simpa using hc.heap_le
  · rw [exec_next_frame h hs]

theorem exec_next_key_or_offset {i : Instr} {s t : State} (h : exec i s = .next t) :
    t.preimageKey = s.preimageKey ∨ t.preimageOffset = 0 := by
  by_cases hs : i = .syscall
  · subst hs
    rcases execSyscall_eq_next h with ⟨_, rfl⟩ | ⟨_, u, v0, v1, hc, rfl⟩
    · exact .inl rfl
    · simpa using hc.key_or_offset
  · rw [exec_next_frame h hs]
    exact .inl rfl

/-- Settles O20: below the top of its width the counter is the old one plus 1, and the other invariants are frames of the
instruction. -/
theorem machineStateInvariants : Obligations.MachineStateInvariants := by
  refine ⟨fun _ _ _ => rfl, fun s t h => ?_⟩
  have ⟨hcount, _⟩ := stepBookkeeping s t h
  rcases step_eq_next h with ⟨he, rfl⟩ | ⟨he, _, i, hd, hx⟩
  · exact ⟨rfl, id, Nat.le_refl _, fun _ => Nat.le_refl _, fun _ => rfl, fun hne => absurd rfl hne⟩
  · refine ⟨rfl, fun h0 => (exec_next_regs_zero hx).trans h0, exec_next_heap_le (s := beginStep s) hx, fun htop => ?_,
      fun hex => ?_, (exec_next_key_or_offset hx).resolve_left⟩
    · rw [hcount, he, if_neg (by decide), Nat.mod_eq_of_lt htop]
      exact Nat.le_succ _
    · exact absurd (hex.symm.trans he) (by decide)

/-! ### What a step can stop with -/

/-- An instruction that starts with the tracker clear stops for one of these causes. -/
theorem exec_beginStep_fault {i : Instr} {s : State} {f : Fault} (h : exec i (beginStep s) = .fault f) :
    (f = .divideByZero ∧ ∃ rs rt, (i = .div rs rt ∨ i = .divu rs rt) ∧ readReg s rt = 0#32) ∨
    (f = .divideOverflow ∧ ∃ rs rt, i = .div rs rt ∧ readReg s rs = 0x80000000#32 ∧ readReg s rt = 0xFFFFFFFF#32) ∨
    (i = .syscall ∧ (f = .heapOverflow ∨
      ∃ p, s.ports.Extends p ∧ (f = .oracleFailure p ∨ f = .oracleBlocked p ∨ f = .sinkFailure p))) := by
  rcases exec_eq_fault h with h | h | h | ⟨_, h⟩
  · exact .inl h
  · exact .inr (.inl h)
  · exact .inr (.inr h)
  · exact absurd rfl h

/-- Settles O10: the causes of the decoder and of the instruction; the tracker's is excluded, since a step starts with it clear. -/
theorem abortCauses : Obligations.AbortCauses := by
  refine fun s => ⟨fun e h => ?_, fun f h => ?_⟩
  · unfold step raise at h
    split at h
    · cases h
    · split at h
      · cases h
      · split at h
        · exact exec_ne_refused _ _ e h
        · cases h
  · obtain ⟨hrun, ⟨hpc, hf⟩ | ⟨hpc, e, hdec, hf⟩ | ⟨hpc, i, hdec, hx⟩⟩ := step_eq_fault h
    · exact ⟨hrun, .inl ⟨hf, fun h0 => hpc ((and_three_eq_zero_iff _).2 h0)⟩⟩
    · refine ⟨hrun, .inr ⟨(and_three_eq_zero_iff _).1 hpc, .inl ⟨e, hdec, ?_⟩⟩⟩
      cases e with
      | invalidBranch => exact .inl hf
      | invalidInstruction | truncated => exact .inr hf
    · refine ⟨hrun, .inr ⟨(and_three_eq_zero_iff _).1 hpc, .inr ?_⟩⟩
      rcases exec_beginStep_fault hx with ⟨hf, rs, rt, rfl | rfl, hz⟩ | ⟨hf, rs, rt, rfl, hn, hd⟩ | ⟨rfl, hcall⟩
      · exact .inl ⟨rs, rt, .inl hdec, hz, hf⟩
      · exact .inl ⟨rs, rt, .inr hdec, hz, hf⟩
      · exact .inr (.inl ⟨rs, rt, hdec, hn, hd, hf⟩)
      · exact .inr (.inr ⟨hdec, hcall⟩)

/-- Settles O11: the tracker holds the first address of a step; a step starts with it clear and names registers by five bits. -/
theorem assertionsNeverFire : Obligations.AssertionsNeverFire := by
  refine ⟨fun s a hs => ?_, fun n v c s => ?_, fun s => ?_⟩
  · obtain ⟨t, ht, ⟨hta, _⟩, _⟩ := track_spec (s := s) (addr := a) (.inl hs)
    obtain ⟨u, hu, _⟩ := track_spec (s := t) (addr := a) (.inr hta)
    refine ⟨t, ht, ⟨u, hu⟩, fun b hb => ?_⟩
    rw [track, if_pos ⟨by simp [hta], by simpa [hta] using hb.symm⟩]
    rfl
  · unfold writeback raise
    split <;> simp [*]
  · obtain ⟨_, hcauses⟩ := abortCauses s
    exact ⟨fun h => by simpa using hcauses _ h, fun h => by simpa using hcauses _ h⟩

/-! ### The misaligned fetch -/

theorem step_eq_unalignedFetch {s : State} :
    step s = .fault .unalignedFetch ↔ s.exited = false ∧ s.pc.toNat % 4 ≠ 0 := by
  constructor
  · intro h
    obtain ⟨_, hcauses⟩ := abortCauses s
    simpa using hcauses _ h
  · rintro ⟨hrun, hpc⟩
    exact step_unaligned hrun fun h0 => hpc ((and_three_eq_zero_iff _).1 h0)

/-- A jump through a register makes it the next program counter. -/
theorem exec_register_jump {i : Instr} {rs : Reg} {s t : State} (hi : i = .jr rs ∨ ∃ rd, i = .jalr rd rs)
    (h : exec i s = .next t) : t.nextPc = readReg s rs := by
  have dest {link : Reg} (h : jump link (readReg s rs) s = .next t) : t.nextPc = readReg s rs := by
    obtain ⟨u, hu, _, hnext, _⟩ := jump_spec link (readReg s rs) s
    obtain rfl : u = t := Host.Outcome.next.inj (hu.symm.trans h)
    exact hnext
  rcases hi with rfl | ⟨rd, rfl⟩
  · exact dest h
  · exact dest h

/-- Settles O15: the delay slot does not end the run, so it makes the misaligned target the program counter. -/
theorem misalignedTargetAbortsAtItsFetch : Obligations.MisalignedTargetAbortsAtItsFetch := by
  refine ⟨fun s => step_eq_unalignedFetch, fun s t u i j rs hrun hpc hdec hi hmis hst htpc hdec' htu hurun => ?_⟩
  rw [step_decoded hrun hpc hdec] at hst
  have htarget : t.nextPc = readReg s rs := exec_register_jump (s := beginStep s) hi hst
  have htrun : t.exited = false := by
    rcases exec_next_exited hst with he | ⟨rfl, _⟩
    · exact he.trans hrun
    · simp at hi
  rw [step_decoded htrun htpc hdec'] at htu
  have hupc : u.pc = t.nextPc := by
    refine (exec_next_pc htu fun hexit => ?_).1
    obtain ⟨rfl, hnum⟩ := hexit
    obtain ⟨_, rfl⟩ | ⟨hne, _⟩ := execSyscall_eq_next htu
    · cases hurun
    · exact hne hnum
  exact step_eq_unalignedFetch.2 ⟨hurun, by rw [hupc, htarget]; exact hmis⟩

end Sys2Proof.Machine
end

section
/-! The invariant of the machine's states (10_state.md R33 to R43, 70_reset_and_hazards.md R331). -/

namespace Sys2Proof.Machine

/-! ### The updates that keep it -/

theorem State.Inv.advance {s : State} (h : s.Inv) : (advance s).Inv :=
  ⟨h.regZero, h.memory, h.counter, h.hint, h.cache, h.offset⟩

theorem State.Inv.writeReg {s : State} (h : s.Inv) (r : Reg) (v : Word) : (writeReg s r v).Inv := by
  rw [writeReg_eq]
  exact ⟨(writeReg_regs_zero s r v).trans h.regZero, h.memory, h.counter, h.hint, h.cache, h.offset⟩

theorem State.Inv.memWrite {s : State} (h : s.Inv) (a v : Word) : (memWrite s a v).Inv :=
  ⟨h.regZero, Memory.wf_writeWord h.memory a v, h.counter, h.hint, h.cache, h.offset⟩

theorem State.Inv.track {s t : State} {a : Word} (h : s.Inv) (ht : track a s = .next t) : t.Inv := by
  rw [(track_eq_next ht).2.2]
  exact ⟨h.regZero, h.memory, h.counter, h.hint, h.cache, h.offset⟩

theorem State.Inv.beginStep {s : State} (h : s.Inv) : (beginStep s).Inv :=
  ⟨h.regZero, h.memory, Nat.mod_lt _ (Nat.two_pow_pos _), h.hint, h.cache, h.offset⟩

/-! ### The preimage engine -/

/-- The oracle's answer to a key is one blob. -/
theorem KnownPreimage.unique {s : State} {key : Key} {blob blob' : List Byte} (h : KnownPreimage s key blob)
    (h' : KnownPreimage s key blob') : blob = blob' :=
  OracleReply.blob.inj (h.1.symm.trans h'.1)

/-- After the buffer is read it is the oracle's blob after its length, and the invariant still holds. -/
theorem State.Inv.readPreimage {s t : State} {key : Key} {offset : Word} (h : s.Inv)
    (ht : readPreimage key offset s = .next t) :
    t.Inv ∧ t.preimageKey = s.preimageKey ∧ ∃ blob, KnownPreimage t key blob ∧ t.lastPreimage = prefixed blob := by
  obtain ⟨s1, h1, rfl⟩ := readPreimage_eq_next ht
  rcases fetchPreimage_eq_next h1 with ⟨hkey, rfl⟩ | ⟨_, blob, hk, rfl⟩
  · exact ⟨⟨h.regZero, h.memory, h.counter, h.hint, h.cache, h.offset⟩, rfl, h.cache key hkey⟩
  · refine ⟨⟨h.regZero, h.memory, h.counter, h.hint, fun key' hkey' => ?_, h.offset⟩, rfl, blob, hk, rfl⟩
    obtain rfl : key = key' := Option.some.inj hkey'
    exact ⟨blob, hk, rfl⟩

/-- The bytes a read from fd 5 delivers (46_preimage.md R282): those of the window that fit the word and the count. -/
def deliveredBytes (addr count : Word) (s : State) : List Byte :=
  (preimageWindow s s.preimageOffset).take (laneCount addr count)

/-- A delivery moves the offset by as many bytes as it puts into the word, and answers how many. -/
theorem deliverPreimage_eq (addr count : Word) (s : State) :
    deliverPreimage addr count s =
      ({ memWrite s (alignDown addr) (wordOfBytes (placeBytes (wordBytes (memRead s (alignDown addr))) (byteOffset addr)
          (deliveredBytes addr count s))) with
        preimageOffset := s.preimageOffset + BitVec.ofNat 32 (deliveredBytes addr count s).length },
       BitVec.ofNat 32 (deliveredBytes addr count s).length) := rfl

theorem deliveredBytes_length (addr count : Word) (s : State) : (deliveredBytes addr count s).length =
    min (laneCount addr count) (min 32 (s.lastPreimage.length - s.preimageOffset.toNat)) := by
  simp [deliveredBytes, preimageWindow]

/-- A delivery cannot move the offset past the end of the buffer. -/
theorem State.Inv.deliverPreimage {s : State} {blob : List Byte} (h : s.Inv) (hk : KnownPreimage s s.preimageKey blob)
    (hb : s.lastPreimage = prefixed blob) (addr count : Word) : (deliverPreimage addr count s).1.Inv := by
  have hoff : s.preimageOffset.toNat ≤ blob.length + 4 := by
    rcases h.offset with h0 | ⟨blob', hk', hle⟩
    · simp [h0]
    · rwa [hk.unique hk']
  have hlen := deliveredBytes_length addr count s
  rw [hb, prefixed_length] at hlen
  have hlt := hk.2
  have hw := h.memWrite (alignDown addr) (wordOfBytes (placeBytes (wordBytes (memRead s (alignDown addr)))
    (byteOffset addr) (deliveredBytes addr count s)))
  rw [deliverPreimage_eq]
  refine ⟨hw.regZero, hw.memory, hw.counter, hw.hint, hw.cache, .inr ⟨blob, hk, ?_⟩⟩
  simp only [BitVec.toNat_add, BitVec.toNat_ofNat]
  omega

/-- A new key starts at offset 0. -/
theorem State.Inv.newKey {s : State} (h : s.Inv) (key : Key) :
    ({ s with preimageKey := key, preimageOffset := 0 } : State).Inv :=
  ⟨h.regZero, h.memory, h.counter, h.hint, h.cache, .inl rfl⟩

theorem State.Inv.callEffect {s u : State} {v0 v1 : Word} (h : s.Inv) (hc : CallEffect s u v0 v1) : u.Inv := by
  cases hc with
  | results _ _ => exact h
  | heap _ _ | stdout _ _ _ | stderr _ _ _ => exact ⟨h.regZero, h.memory, h.counter, h.hint, h.cache, h.offset⟩
  | hint u _ hw =>
    obtain ⟨payloads, _, hrest, _, _, e⟩ := writeHint_eq_next hw
    rw [e]
    exact ⟨h.regZero, h.memory, h.counter, hrest, h.cache, h.offset⟩
  | preimageRead s1 s2 _ _ h1 h2 =>
    obtain ⟨hi, hkey, blob, hk, hb⟩ := (h.track h1).readPreimage h2
    exact hi.deliverPreimage (hkey ▸ hk) hb _ _
  | preimageWrite s1 h1 =>
    rw [acceptKeyBytes_eq]
    exact (h.track h1).newKey _

/-! ### The instruction and the step -/

theorem State.Inv.exec {i : Instr} {s t : State} (h : s.Inv) (hx : exec i s = .next t) : t.Inv := by
  cases exec_eq_next hx with
  | register r v _ _ => exact (h.writeReg r v).advance
  | hiLo _ _ _ => exact ⟨h.regZero, h.memory, h.counter, h.hint, h.cache, h.offset⟩
  | loaded _ _ r v _ h1 => exact ((h.track h1).writeReg r v).advance
  | stored ea _ r v w _ h1 => exact (((h.track h1).writeReg r v).memWrite (alignDown ea) w).advance
  | control _ r v _ =>
    refine State.Inv.writeReg ?_ r v
    exact ⟨h.regZero, h.memory, h.counter, h.hint, h.cache, h.offset⟩
  | call _ _ hcall =>
    rcases execSyscall_eq_next hcall with ⟨_, rfl⟩ | ⟨_, u, v0, v1, hc, rfl⟩
    · exact ⟨h.regZero, h.memory, h.counter, h.hint, h.cache, h.offset⟩
    · exact (((h.callEffect hc).writeReg _ v0).writeReg _ v1).advance

/-- Settles O19: part 0 of a step keeps the invariant, and so does every shape of a completed instruction. -/
theorem invariantIsKeptByEveryStep : Obligations.InvariantIsKeptByEveryStep := by
  intro s t h hst
  rcases step_eq_next hst with ⟨_, rfl⟩ | ⟨_, _, i, _, hx⟩
  · exact h
  · exact h.beginStep.exec hx

/-! ### Reset -/

theorem readReg_resetWith (l : Loader) (cfg : Config) (p : Ports) (r : Reg) :
    readReg (State.resetWith l cfg p) r = if r = 0 then 0 else l.regs[r.toNat]'r.isLt := by
  by_cases hr : r = 0
  · subst hr
    rfl
  · have hne : 0 ≠ r.toNat := fun h => hr (BitVec.eq_of_toNat_eq h.symm)
    rw [if_neg hr, readReg_of_ne _ hr]
    exact Vector.getElem_set_ne (by decide) r.isLt hne

/-- Settles O17: each field is what `State.resetWith` puts there; register 0 is not the loader's. -/
theorem resetState : Obligations.ResetState := by
  refine fun l cfg p => ⟨readReg_resetWith l cfg p, rfl, rfl, rfl, rfl, rfl, rfl, rfl, rfl, rfl, fun i => ?_, rfl, rfl, rfl,
    rfl, rfl, rfl, rfl, rfl, rfl⟩
  exact Vector.getElem_replicate _

theorem inv_resetWith {l : Loader} (h : Memory.wf l.mem = true) (cfg : Config) (p : Ports) :
    (State.resetWith l cfg p).Inv :=
  ⟨Vector.getElem_set_self _, h, Nat.two_pow_pos _, rfl, nofun, .inl rfl⟩

/-- Settles O18: after reset the cache and the hint buffer are empty and the offset is 0. -/
theorem invariantHoldsAtReset : Obligations.InvariantHoldsAtReset :=
  ⟨fun _ cfg p h => inv_resetWith h cfg p, inv_resetWith rfl _ _⟩

/-! ### The fetched bytes -/

/-- The four bytes read from an aligned address are decoded as the word there. -/
theorem decodeBytes_rangeRead {s : State} {i : Instr} (h : decodeBytes (rangeRead s s.pc 4) = .ok (i, [])) :
    decode (memRead s s.pc) = .ok i := by
  have hbytes : rangeRead s s.pc 4 = [memByte s s.pc, memByte s (s.pc + 1), memByte s (s.pc + 2), memByte s (s.pc + 3)] := by
    simp [rangeRead, BitVec.add_assoc]
  rw [hbytes, decodeBytes, ← memRead_eq_bytes] at h
  split at h
  next j hj =>
    obtain ⟨rfl, _⟩ := Prod.mk.inj (Except.ok.inj h)
    exact hj
  next => cases h

/-- Settles O7: the bytes at `pc` are the word that is fetched. -/
theorem stepRunsDecodedInstruction : Obligations.StepRunsDecodedInstruction :=
  fun _ _ hrun hpc hdec => step_decoded hrun hpc (decodeBytes_rangeRead hdec)

/-! ### A control transfer in a delay slot -/

/-- Where a branch leads. -/
theorem branch_nextPc {taken : Bool} {cond : Prop} [Decidable cond] {imm : BitVec 16} {s t : State}
    (h : branch taken imm s = .next t) (hc : taken = true ↔ cond) :
    t.nextPc = if cond then branchTarget s.pc imm else s.nextPc + 4 := by
  obtain ⟨u, hu, _, htaken, hnot, _⟩ := branch_spec_of_iff hc imm s
  obtain rfl : u = t := Host.Outcome.next.inj (hu.symm.trans h)
  split
  next hc => exact htaken hc
  next hc => exact hnot hc

/-- Where a jump leads, and what it links. -/
theorem jump_nextPc {link : Reg} {dest : Word} {s t : State} (h : jump link dest s = .next t) :
    t.nextPc = dest ∧ (link ≠ 0 → readReg t link = s.pc + 8) := by
  obtain ⟨u, hu, _, hnext, ⟨hlink, _⟩, _⟩ := jump_spec link dest s
  obtain rfl : u = t := Host.Outcome.next.inj (hu.symm.trans h)
  exact ⟨hnext, fun hne => hlink.trans (if_neg hne)⟩

/-- Settles O14: the transfer retires the first target next whatever it is, and its own target and link are relative to its own
address. -/
theorem controlTransferInDelaySlot : Obligations.ControlTransferInDelaySlot := by
  intro t A T j hrun halign hpc hnext hdec hctl
  have hpcAligned : t.pc &&& 3 = 0 := hpc ▸ and_three_add_four halign
  have htarget (imm : BitVec 16) : branchTarget t.pc imm = A + 8 + (imm.signExtend 32 <<< 2) := by
    rw [branchTarget, hpc, BitVec.add_assoc A]
    rfl
  have hlink : t.pc + 8 = A + 12 := by rw [hpc, BitVec.add_assoc]; rfl
  obtain ⟨u, hu, hupc, _⟩ := exec_control hctl (beginStep t)
  have ofBranch {taken cond imm} [Decidable cond] (h : branch taken imm (beginStep t) = .next u)
      (hc : taken = true ↔ cond) : u.nextPc = if cond then A + 8 + (imm.signExtend 32 <<< 2) else T + 4 := by
    rw [branch_nextPc h hc, beginStep_pc, htarget, beginStep_nextPc, hnext]
  have ofJump {link dest} (h : jump link dest (beginStep t) = .next u) :
      u.nextPc = dest ∧ (link ≠ 0 → readReg u link = A + 12) := by
    rw [← hlink]
    exact jump_nextPc (s := beginStep t) h
  refine ⟨u, (step_decoded hrun hpcAligned (hpc ▸ hdec)).trans hu, hupc.trans hnext,
    ?_, ?_, ?_, ?_, ?_, ?_, ?_, ?_, ?_, ?_⟩
  · rintro index rfl
    exact (ofJump hu).1
  · rintro index rfl
    obtain ⟨hdest, hl⟩ := ofJump hu
    exact ⟨hdest, hl (by decide)⟩
  · rintro rs rfl
    exact (ofJump hu).1
  · rintro rd rs rfl
    exact ofJump hu
  · rintro rs rt imm rfl
    exact ofBranch hu takenEq_iff
  · rintro rs rt imm rfl
    exact ofBranch hu takenNe_iff
  · rintro rs imm rfl
    exact ofBranch hu takenLez_iff
  · rintro rs imm rfl
    exact ofBranch hu takenGtz_iff
  · rintro rs imm rfl
    exact ofBranch hu decide_eq_true_iff
  · rintro rs imm rfl
    exact ofBranch hu decide_eq_true_iff

end Sys2Proof.Machine
end

section
/-! Two runs that differ in a part of the state (10_state.md R30, R40, R41): a function forgets that part, and two outcomes are
alike if they are the same once it is forgotten. Each shared operation is shown once to keep outcomes alike, for every such
function that leaves alone what the operation reads. -/

namespace Sys2Proof.Machine

/-! ### Alike outcomes -/

/-- An outcome with a part of the next state forgotten. -/
def mapNext (F : State → State) : Result → Result
  | .next s => .next (F s)
  | .fault f => .fault f
  | .refused e => .refused e

/-- Two outcomes that differ in nothing but what is forgotten. -/
def Alike (F : State → State) (r r' : Result) : Prop := mapNext F r = mapNext F r'

variable {F : State → State}

theorem alike_next {s t : State} (h : F s = F t) : Alike F (.next s) (.next t) := congrArg Host.Outcome.next h

theorem Alike.exists_next {r r' : Result} (h : Alike F r r') {s : State} (hr : r = .next s) :
    ∃ t, r' = .next t ∧ F t = F s := by
  subst hr
  cases r' with
  | next t => exact ⟨t, rfl, (Host.Outcome.next.inj h).symm⟩
  | fault _ => cases h
  | refused _ => cases h

theorem Alike.fault_iff {r r' : Result} (h : Alike F r r') (f : Fault) : r = .fault f ↔ r' = .fault f := by
  have mapped : ∀ r : Result, mapNext F r = .fault f ↔ r = .fault f := by
    intro r
    cases r <;> simp [mapNext]
  rw [← mapped, ← mapped r', h]

/-- What follows alike outcomes may use what they are. -/
theorem Alike.andThen_of {G : State → State} {r r' : Result} {k k' : State → Result} (h : Alike F r r')
    (hk : ∀ s t, r = .next s → r' = .next t → F s = F t → Alike G (k s) (k' t)) :
    Alike G (andThen r k) (andThen r' k') := by
  cases r with
  | next s =>
    obtain ⟨t, rfl, ht⟩ := h.exists_next rfl
    exact hk s t rfl rfl ht.symm
  | fault f => rw [(h.fault_iff f).1 rfl]; rfl
  | refused e =>
    cases r' with
    | next _ => cases h
    | fault _ => cases h
    | refused _ => cases h; rfl

theorem Alike.andThen {r r' : Result} {k k' : State → Result} (h : Alike F r r')
    (hk : ∀ s t, F s = F t → Alike F (k s) (k' t)) : Alike F (andThen r k) (andThen r' k') :=
  h.andThen_of fun s t _ _ => hk s t

/-- Forgetting more keeps outcomes alike. -/
theorem Alike.coarsen {G : State → State} {r r' : Result} (h : Alike F r r') (hG : ∀ s, G (F s) = G s) : Alike G r r' := by
  have mapped : ∀ r, mapNext G (mapNext F r) = mapNext G r := by
    intro r
    cases r <;> simp [mapNext, hG]
  rw [Alike, ← mapped, ← mapped r', h]

/-- An update that can be done before or after forgetting gives states alike from states alike. -/
theorem forget_update {U : State → State} (hU : ∀ s, F (U (F s)) = F (U s)) {s t : State} (h : F s = F t) :
    F (U s) = F (U t) := by
  rw [← hU s, h, hU t]

/-! ### What is forgotten is no register, no memory, no program counter and not the offset -/

structure Hides (F : State → State) : Prop where
  regs : ∀ s, (F s).regs = s.regs
  pc : ∀ s, (F s).pc = s.pc
  nextPc : ∀ s, (F s).nextPc = s.nextPc
  mem : ∀ s, (F s).mem = s.mem
  preimageOffset : ∀ s, (F s).preimageOffset = s.preimageOffset
  updateRegs : ∀ v s, F { F s with regs := v } = F { s with regs := v }
  updatePcs : ∀ v w s, F { F s with pc := v, nextPc := w } = F { s with pc := v, nextPc := w }
  updateMem : ∀ v s, F { F s with mem := v } = F { s with mem := v }
  updateOffset : ∀ v s, F { F s with preimageOffset := v } = F { s with preimageOffset := v }

/-- A field that is not forgotten is the same in states alike. -/
theorem field_eq {α : Type} {field : State → α} (hf : ∀ s, field (F s) = field s) {s t : State} (h : F s = F t) :
    field t = field s := by
  rw [← hf t, ← h, hf s]

/-! Its updates give states alike from states alike. -/

theorem Hides.setRegs (hF : Hides F) v {s t} (h : F s = F t) :
    F { s with regs := v } = F { t with regs := v } :=
  forget_update (U := fun s => { s with regs := v }) (hF.updateRegs v) h

theorem Hides.setPcs (hF : Hides F) v w {s t} (h : F s = F t) :
    F { s with pc := v, nextPc := w } = F { t with pc := v, nextPc := w } :=
  forget_update (U := fun s => { s with pc := v, nextPc := w }) (hF.updatePcs v w) h

theorem Hides.setMem (hF : Hides F) v {s t} (h : F s = F t) :
    F { s with mem := v } = F { t with mem := v } :=
  forget_update (U := fun s => { s with mem := v }) (hF.updateMem v) h

theorem Hides.setOffset (hF : Hides F) v {s t} (h : F s = F t) :
    F { s with preimageOffset := v } = F { t with preimageOffset := v } :=
  forget_update (U := fun s => { s with preimageOffset := v }) (hF.updateOffset v) h

section core
variable (hF : Hides F) {s t : State} (h : F s = F t)
include hF h

theorem Hides.readReg_eq (q : Reg) : readReg t q = readReg s q := readReg_congr (field_eq hF.regs h) q

theorem Hides.memRead_eq (a : Word) : memRead t a = memRead s a := memRead_congr (field_eq hF.mem h) a

theorem Hides.writeReg (r : Reg) (v : Word) : F (writeReg s r v) = F (writeReg t r v) := by
  unfold Sys2Proof.Machine.writeReg
  split
  · exact h
  · rw [field_eq hF.regs h]
    exact hF.setRegs _ h

theorem Hides.advance : F (advance s) = F (advance t) := by
  unfold Sys2Proof.Machine.advance
  rw [field_eq hF.nextPc h]
  exact hF.setPcs _ _ h

theorem Hides.memWrite (a v : Word) : F (memWrite s a v) = F (memWrite t a v) := by
  unfold Sys2Proof.Machine.memWrite
  rw [field_eq hF.mem h]
  exact hF.setMem _ h

theorem Hides.writeback {r : Reg} {v v' : Word} {c c' : Bool} (hv : v = v') (hc : c = c') :
    Alike F (writeback r.toNat v c s) (writeback r.toNat v' c' t) := by
  subst hv hc
  rw [writeback_reg, writeback_reg]
  refine alike_next (hF.advance ?_)
  split
  · exact hF.writeReg h r v
  · exact h

theorem Hides.branch {c c' : Bool} {imm : BitVec 16} (hc : c = c') : Alike F (branch c imm s) (branch c' imm t) := by
  subst hc
  unfold Sys2Proof.Machine.branch
  rw [field_eq hF.pc h, field_eq hF.nextPc h]
  exact alike_next (hF.setPcs _ _ h)

theorem Hides.jump {link : Reg} {d d' : Word} (hd : d = d') : Alike F (jump link d s) (jump link d' t) := by
  subst hd
  unfold Sys2Proof.Machine.jump
  rw [field_eq hF.pc h, field_eq hF.nextPc h]
  exact alike_next (hF.writeReg (hF.setPcs _ _ h) _ _)

theorem Hides.syscallReturn (v0 v1 : Word) : Alike F (syscallReturn v0 v1 s) (syscallReturn v0 v1 t) :=
  alike_next (hF.advance (hF.writeReg (hF.writeReg h _ _) _ _))

/-- A delivery from the same buffer. -/
theorem Hides.deliverPreimage (hb : t.lastPreimage = s.lastPreimage) (addr count : Word) :
    F (deliverPreimage addr count s).1 = F (deliverPreimage addr count t).1 ∧
      (deliverPreimage addr count s).2 = (deliverPreimage addr count t).2 := by
  have hbytes : deliveredBytes addr count t = deliveredBytes addr count s := by
    simp only [deliveredBytes, preimageWindow, hb, field_eq hF.preimageOffset h]
  rw [deliverPreimage_eq, deliverPreimage_eq, hbytes, hF.memRead_eq h, field_eq hF.preimageOffset h]
  exact ⟨hF.setOffset _ (hF.memWrite h _ _), rfl⟩

end core

/-! ### Nor is it anything of the rest of the state that the machine reads, beside `hi`, `lo` and the preimage cache -/

structure HidesAside (F : State → State) : Prop extends Hides F where
  heap : ∀ s, (F s).heap = s.heap
  ports : ∀ s, (F s).ports = s.ports
  lastHint : ∀ s, (F s).lastHint = s.lastHint
  preimageKey : ∀ s, (F s).preimageKey = s.preimageKey
  cfg : ∀ s, { (F s).cfg with proofEnable := false } = { s.cfg with proofEnable := false }
  updateHi : ∀ v s, F { F s with hi := v } = F { s with hi := v }
  updateLo : ∀ v s, F { F s with lo := v } = F { s with lo := v }
  updateHeap : ∀ v s, F { F s with heap := v } = F { s with heap := v }
  updatePorts : ∀ v s, F { F s with ports := v } = F { s with ports := v }
  updateHint : ∀ v w s, F { F s with lastHint := v, ports := w } = F { s with lastHint := v, ports := w }
  updateKey : ∀ v w s, F { F s with preimageKey := v, preimageOffset := w } =
    F { s with preimageKey := v, preimageOffset := w }
  updateExit : ∀ v w s, F { F s with exited := v, exitCode := w } = F { s with exited := v, exitCode := w }
  trackForgotten : ∀ a s, Alike F (track a (F s)) (track a s)

/-! Its updates. -/

theorem HidesAside.setHi (hF : HidesAside F) v {s t} (h : F s = F t) :
    F { s with hi := v } = F { t with hi := v } :=
  forget_update (U := fun s => { s with hi := v }) (hF.updateHi v) h

theorem HidesAside.setLo (hF : HidesAside F) v {s t} (h : F s = F t) :
    F { s with lo := v } = F { t with lo := v } :=
  forget_update (U := fun s => { s with lo := v }) (hF.updateLo v) h

theorem HidesAside.setHeap (hF : HidesAside F) v {s t} (h : F s = F t) :
    F { s with heap := v } = F { t with heap := v } :=
  forget_update (U := fun s => { s with heap := v }) (hF.updateHeap v) h

theorem HidesAside.setPorts (hF : HidesAside F) v {s t} (h : F s = F t) :
    F { s with ports := v } = F { t with ports := v } :=
  forget_update (U := fun s => { s with ports := v }) (hF.updatePorts v) h

theorem HidesAside.setHint (hF : HidesAside F) v w {s t} (h : F s = F t) :
    F { s with lastHint := v, ports := w } = F { t with lastHint := v, ports := w } :=
  forget_update (U := fun s => { s with lastHint := v, ports := w }) (hF.updateHint v w) h

theorem HidesAside.setKey (hF : HidesAside F) v w {s t} (h : F s = F t) :
    F { s with preimageKey := v, preimageOffset := w } = F { t with preimageKey := v, preimageOffset := w } :=
  forget_update (U := fun s => { s with preimageKey := v, preimageOffset := w }) (hF.updateKey v w) h

theorem HidesAside.setExit (hF : HidesAside F) v w {s t} (h : F s = F t) :
    F { s with exited := v, exitCode := w } = F { t with exited := v, exitCode := w } :=
  forget_update (U := fun s => { s with exited := v, exitCode := w }) (hF.updateExit v w) h

section instructions
variable (hF : HidesAside F) {s t : State} (h : F s = F t)
include hF h

/-- A launch parameter but the proof toggle. -/
theorem HidesAside.param_eq {α : Type} (param : Config → α) (hp : ∀ c, param { c with proofEnable := false } = param c) :
    param t.cfg = param s.cfg :=
  field_eq (field := fun s => param s.cfg) (fun s => by rw [← hp, hF.cfg, hp]) h

theorem HidesAside.track (a : Word) : Alike F (track a s) (track a t) := by
  rw [Alike, ← hF.trackForgotten a s, h, hF.trackForgotten a t]

theorem HidesAside.load {value : Word → Word → Word → Word} {rt rs : Reg} {imm : BitVec 16} :
    Alike F (load value rt imm rs s) (load value rt imm rs t) := by
  unfold Sys2Proof.Machine.load
  simp only [hF.readReg_eq h]
  exact (hF.track h _).andThen fun u v huv => hF.writeback huv (by rw [hF.memRead_eq huv]) rfl

theorem HidesAside.store {value : Word → Word → Word → Word} {rt rs : Reg} {imm : BitVec 16} :
    Alike F (store value rt imm rs s) (store value rt imm rs t) := by
  unfold Sys2Proof.Machine.store
  simp only [hF.readReg_eq h, writeback_zero]
  refine (hF.track h _).andThen fun u v huv => ?_
  rw [hF.memRead_eq huv]
  exact alike_next (hF.advance (hF.memWrite huv _ _))

theorem HidesAside.execSc {rt rs : Reg} {imm : BitVec 16} : Alike F (execSc rt imm rs s) (execSc rt imm rs t) := by
  unfold Sys2Proof.Machine.execSc
  simp only [hF.readReg_eq h, writeback_zero]
  refine (hF.track h _).andThen fun u v huv => ?_
  rw [hF.memRead_eq huv]
  exact alike_next (hF.advance (hF.memWrite (hF.writeReg huv _ _) _ _))

theorem HidesAside.setHiLo (p q : Word) : Alike F (setHiLo p q s) (setHiLo p q t) :=
  alike_next (hF.advance (hF.setLo q (hF.setHi p h)))

theorem HidesAside.divideByZero (n q : Word) : Alike F (divideByZero n q s) (divideByZero n q t) := by
  unfold Sys2Proof.Machine.divideByZero
  rw [hF.param_eq h Config.divZero fun _ => rfl]
  split
  · rfl
  · exact alike_next (hF.advance h)
  · exact hF.setHiLo h _ _

theorem HidesAside.divideOverflow : Alike F (divideOverflow s) (divideOverflow t) := by
  unfold Sys2Proof.Machine.divideOverflow
  rw [hF.param_eq h Config.divOverflow fun _ => rfl]
  split
  · rfl
  · exact hF.setHiLo h _ _

theorem HidesAside.execDiv (rs rt : Reg) : Alike F (execDiv rs rt s) (execDiv rs rt t) := by
  unfold Sys2Proof.Machine.execDiv
  simp only [hF.readReg_eq h]
  split
  · exact hF.divideByZero h _ _
  · split
    · exact hF.divideOverflow h
    · exact hF.setHiLo h _ _

theorem HidesAside.execDivu (rs rt : Reg) : Alike F (execDivu rs rt s) (execDivu rs rt t) := by
  unfold Sys2Proof.Machine.execDivu
  simp only [hF.readReg_eq h]
  split
  · exact hF.divideByZero h _ _
  · exact hF.setHiLo h _ _

/-! System calls. -/

theorem HidesAside.sysMmap (hint length : Word) : Alike F (sysMmap hint length s) (sysMmap hint length t) := by
  unfold Sys2Proof.Machine.sysMmap roundToPage pageSize
  simp only [hF.param_eq h Config.pageSizeLog2 fun _ => rfl, field_eq hF.heap h]
  split
  · split
    · rfl
    · exact hF.syscallReturn (hF.setHeap _ h) _ _
  · exact hF.syscallReturn h _ _

theorem HidesAside.sysFcntl (fd cmd : Word) : Alike F (sysFcntl fd cmd s) (sysFcntl fd cmd t) := by
  unfold Sys2Proof.Machine.sysFcntl
  rw [hF.param_eq h Config.fGetfl fun _ => rfl, hF.param_eq h Config.oRdonly fun _ => rfl,
    hF.param_eq h Config.oWronly fun _ => rfl]
  split
  · split
    · exact hF.syscallReturn h _ _
    · split <;> exact hF.syscallReturn h _ _
  · exact hF.syscallReturn h _ _

theorem HidesAside.writeStdout (bytes : List Byte) : Alike F (writeStdout bytes s) (writeStdout bytes t) := by
  rw [writeStdout_eq, writeStdout_eq, field_eq hF.ports h]
  split
  · exact alike_next (hF.setPorts _ h)
  · rfl

theorem HidesAside.writeStderr (bytes : List Byte) : Alike F (writeStderr bytes s) (writeStderr bytes t) := by
  rw [writeStderr_eq, writeStderr_eq, field_eq hF.ports h]
  split
  · exact alike_next (hF.setPorts _ h)
  · rfl

theorem HidesAside.writeHint (bytes : List Byte) : Alike F (writeHint bytes s) (writeHint bytes t) := by
  unfold Sys2Proof.Machine.writeHint
  rw [field_eq hF.ports h, field_eq hF.lastHint h]
  simp only
  split
  · exact alike_next (hF.setHint _ _ h)
  · rfl

theorem HidesAside.writeToPreimage (addr count : Word) :
    Alike F (writeToPreimage addr count s) (writeToPreimage addr count t) := by
  unfold Sys2Proof.Machine.writeToPreimage
  refine (hF.track h _).andThen fun u v huv => ?_
  rw [acceptKeyBytes_eq, acceptKeyBytes_eq, rangeRead_congr (field_eq hF.mem huv), field_eq hF.preimageKey huv]
  exact hF.syscallReturn (hF.setKey _ _ huv) _ _

theorem HidesAside.sysWrite (fd addr count : Word) : Alike F (sysWrite fd addr count s) (sysWrite fd addr count t) := by
  unfold Sys2Proof.Machine.sysWrite
  rw [rangeRead_congr (field_eq hF.mem h)]
  have return_alike : ∀ u v, F u = F v → Alike F (Machine.syscallReturn count 0 u) (Machine.syscallReturn count 0 v) :=
    fun u v huv => hF.syscallReturn huv _ _
  split
  · exact (hF.writeStdout h _).andThen return_alike
  · split
    · exact (hF.writeStderr h _).andThen return_alike
    · split
      · exact (hF.writeHint h _).andThen return_alike
      · split
        · exact hF.writeToPreimage h _ _
        · exact hF.syscallReturn h _ _

/-- A system call, if reads from fd 5 are alike. -/
theorem HidesAside.execSyscall
    (hread : readReg s 2#5 = callRead → readReg s 4#5 = fdPreimageRead →
      Alike F (readFromPreimage (readReg s 5#5) (readReg s 6#5) s) (readFromPreimage (readReg s 5#5) (readReg s 6#5) t)) :
    Alike F (execSyscall s) (execSyscall t) := by
  unfold Sys2Proof.Machine.execSyscall
  simp only [hF.readReg_eq h]
  split
  · exact hF.sysMmap h _ _
  split
  · unfold sysBrk
    rw [hF.param_eq h Config.brkValue fun _ => rfl]
    exact hF.syscallReturn h _ _
  split
  · exact hF.syscallReturn h _ _
  split
  · exact alike_next (hF.setExit _ _ h)
  split
  next hcall =>
    unfold sysRead
    split
    · exact hF.syscallReturn h _ _
    split
    next hfd => exact hread hcall hfd
    split <;> exact hF.syscallReturn h _ _
  split
  · exact hF.sysWrite h _ _ _
  split
  · exact hF.sysFcntl h _ _
  · exact hF.syscallReturn h _ _

/-- Every instruction, if reads of `hi` and `lo` and reads from fd 5 are alike. -/
theorem HidesAside.exec (i : Instr)
    (hhi : (∃ rd, i = .mfhi rd) → t.hi = s.hi) (hlo : (∃ rd, i = .mflo rd) → t.lo = s.lo)
    (hread : i = .syscall → readReg s 2#5 = callRead → readReg s 4#5 = fdPreimageRead →
      Alike F (readFromPreimage (readReg s 5#5) (readReg s 6#5) s) (readFromPreimage (readReg s 5#5) (readReg s 6#5) t)) :
    Alike F (exec i s) (exec i t) := by
  have hr := hF.readReg_eq h
  cases i with
  | j _ | jal _ | jr _ | jalr _ _ => exact hF.jump h (by simp only [hr])
  | beq _ _ _ | bne _ _ _ | blez _ _ | bgtz _ _ | bltz _ _ | bgez _ _ => exact hF.branch h (by simp only [hr])
  | lb _ _ _ | lh _ _ _ | lwl _ _ _ | lw _ _ _ | lbu _ _ _ | lhu _ _ _ | lwr _ _ _ | ll _ _ _ => exact hF.load h
  | sb _ _ _ | sh _ _ _ | swl _ _ _ | sw _ _ _ | swr _ _ _ => exact hF.store h
  | sc _ _ _ => exact hF.execSc h
  | mfhi rd =>
    refine alike_next (hF.advance ?_)
    rw [hhi ⟨rd, rfl⟩]
    exact hF.writeReg h _ _
  | mflo rd =>
    refine alike_next (hF.advance ?_)
    rw [hlo ⟨rd, rfl⟩]
    exact hF.writeReg h _ _
  | mthi rs =>
    refine alike_next (hF.advance ?_)
    rw [hr]
    exact hF.setHi _ h
  | mtlo rs =>
    refine alike_next (hF.advance ?_)
    rw [hr]
    exact hF.setLo _ h
  | mult rs rt =>
    simp only [Machine.exec, execMult, hr]
    exact hF.setHiLo h _ _
  | multu rs rt =>
    simp only [Machine.exec, execMultu, hr]
    exact hF.setHiLo h _ _
  | div rs rt => exact hF.execDiv h rs rt
  | divu rs rt => exact hF.execDivu h rs rt
  | syscall => exact hF.execSyscall h (hread rfl)
  | _ => exact hF.writeback h (by simp only [hr]) (by simp only [hr])

end instructions

end Sys2Proof.Machine
end

section
/-! `hi` and `lo`, the proof toggle and the preimage cache: what else depends on them (10_state.md R30, R40, R41). -/

namespace Sys2Proof.Machine

variable {F : State → State}

/-! ### Reads from fd 5 where the preimage cache is not forgotten -/

structure HidesBesideEngine (F : State → State) : Prop extends HidesAside F where
  lastPreimageKey : ∀ s, (F s).lastPreimageKey = s.lastPreimageKey
  lastPreimage : ∀ s, (F s).lastPreimage = s.lastPreimage
  updateCache : ∀ u v w s, F { F s with lastPreimageKey := u, lastPreimage := v, ports := w } =
    F { s with lastPreimageKey := u, lastPreimage := v, ports := w }
  updateCacheOffset : ∀ v s, F { F s with lastPreimageOffset := v } = F { s with lastPreimageOffset := v }

theorem HidesBesideEngine.fetchPreimage (hF : HidesBesideEngine F) {s t : State} (h : F s = F t) (key : Key) :
    Alike F (fetchPreimage key s) (fetchPreimage key t) := by
  unfold Machine.fetchPreimage cached
  rw [field_eq hF.ports h, field_eq hF.lastPreimageKey h]
  split
  · exact alike_next h
  · split
    · rfl
    · rfl
    · split
      · exact alike_next (forget_update (U := fun s => { s with
          lastPreimageKey := some key, lastPreimage := prefixed _, ports := _ }) (hF.updateCache _ _ _) h)
      · rfl

theorem HidesBesideEngine.readPreimage (hF : HidesBesideEngine F) {s t : State} (h : F s = F t) (key : Key)
    (offset : Word) : Alike F (readPreimage key offset s) (readPreimage key offset t) :=
  (hF.fetchPreimage h key).andThen fun _ _ huv =>
    alike_next (forget_update (U := fun s => { s with lastPreimageOffset := offset }) (hF.updateCacheOffset _) huv)

theorem HidesBesideEngine.readFromPreimage (hF : HidesBesideEngine F) {s t : State} (h : F s = F t)
    (addr count : Word) : Alike F (readFromPreimage addr count s) (readFromPreimage addr count t) := by
  refine (hF.track h _).andThen fun u v huv => ?_
  rw [field_eq hF.preimageKey huv, field_eq hF.preimageOffset huv]
  refine (hF.readPreimage huv _ _).andThen fun u' v' huv' => ?_
  obtain ⟨hstate, hcount⟩ := hF.deliverPreimage huv' (field_eq hF.lastPreimage huv') addr count
  simp only
  rw [hcount]
  exact hF.syscallReturn hstate _ _

/-- Tracking in two states with the same tracker, which differ in what is forgotten once both hold the tracked address. -/
theorem track_alike {s t : State} {a : Word} (hm : t.lastMemAccess = s.lastMemAccess)
    (h : mapNext F (.next { s with
        lastMemAccess := some a
        proofCache := if s.cfg.proofEnable && !proofHeld s a then some (merkleProof s a) else s.proofCache }) =
      mapNext F (.next { t with
        lastMemAccess := some a
        proofCache := if t.cfg.proofEnable && !proofHeld t a then some (merkleProof t a) else t.proofCache })) :
    Alike F (track a s) (track a t) := by
  unfold track
  rw [hm]
  split
  · rfl
  · exact h

/-! ### `hi` and `lo` -/

theorem forgetHiLo_hides : HidesBesideEngine forgetHiLo := by
  constructor
  · constructor
    · constructor <;> intros <;> rfl
    case trackForgotten => exact fun a s => track_alike rfl rfl
    all_goals intros; rfl
  all_goals intros; rfl

theorem exec_next_hiLo {i : Instr} {s t : State} (h : exec i s = .next t) (hw : writesHiLo i = false) :
    t.hi = s.hi ∧ t.lo = s.lo := by
  cases exec_eq_next h with
  | register _ _ _ _ | control _ _ _ _ => simp
  | hiLo _ _ hw' => exact absurd (hw'.symm.trans hw) (by decide)
  | loaded _ _ _ _ _ h1 | stored _ _ _ _ _ _ h1 => rw [(track_eq_next h1).2.2]; simp
  | call _ hs h =>
    rcases execSyscall_eq_next h with ⟨_, rfl⟩ | ⟨_, u, v0, v1, hc, rfl⟩
    · exact ⟨rfl, rfl⟩
    · rw [hc.frame]; simp

/-- Settles O22: once `hi` and `lo` are forgotten, every instruction that reads neither has the same outcome. -/
theorem hiLoAreReachedOnlyByTheirInstructions : Obligations.HiLoAreReachedOnlyByTheirInstructions := by
  refine fun i s t hi lo h => ⟨exec_next_hiLo h, fun hread => ?_⟩
  have heq : forgetHiLo s = forgetHiLo { s with hi := hi, lo := lo } := rfl
  refine Alike.exists_next (forgetHiLo_hides.exec heq i ?_ ?_ fun _ _ _ => ?_) h
  · rintro ⟨rd, rfl⟩
    exact absurd rfl (hread rd).1
  · rintro ⟨rd, rfl⟩
    exact absurd rfl (hread rd).2
  · exact forgetHiLo_hides.readFromPreimage heq _ _

/-! ### The proof toggle -/

theorem forgetProof_hides : HidesBesideEngine forgetProof := by
  constructor
  · constructor
    · constructor <;> intros <;> rfl
    case trackForgotten => exact fun a s => track_alike rfl rfl
    all_goals intros; rfl
  all_goals intros; rfl

/-- States that differ in what is forgotten and in nothing of what the step itself reads step alike, if their instructions do. -/
theorem step_alike {s t : State} (hs : F s = F t) (hrun : t.exited = s.exited) (hpc : t.pc = s.pc) (hmem : t.mem = s.mem)
    (hx : ∀ i, decode (memRead s s.pc) = .ok i → Alike F (exec i (beginStep s)) (exec i (beginStep t))) :
    Alike F (step s) (step t) := by
  cases he : s.exited with
  | true =>
    rw [step_exited he, step_exited (hrun.trans he)]
    exact alike_next hs
  | false =>
    by_cases ha : s.pc &&& 3 = 0
    · have ha' : t.pc &&& 3 = 0 := by rw [hpc, ha]
      have hword : memRead t t.pc = memRead s s.pc := by rw [hpc, memRead_congr hmem]
      cases hd : decode (memRead s s.pc) with
      | ok i =>
        rw [step_decoded he ha hd, step_decoded (hrun.trans he) ha' (hword ▸ hd)]
        exact hx i hd
      | error e =>
        rw [step_running he ha, step_running (hrun.trans he) ha', hword, hd]
        rfl
    · rw [step_unaligned he ha, step_unaligned (hrun.trans he) (by rwa [hpc])]
      rfl

/-- Settles O23: an instruction reads neither the toggle nor the cached proof, beside the tracker, which puts what it makes of
them into the cached proof. -/
theorem proofToggleHasNoArchitecturalEffect : Obligations.ProofToggleHasNoArchitecturalEffect := by
  intro s b c s'
  have heq : forgetProof s = forgetProof s' := rfl
  have hbegin : forgetProof (beginStep s) = forgetProof (beginStep s') := rfl
  have halike : Alike forgetProof (step s) (step s') :=
    step_alike heq rfl rfl rfl fun i _ => forgetProof_hides.exec hbegin i (fun _ => rfl) (fun _ => rfl)
      fun _ _ _ => forgetProof_hides.readFromPreimage hbegin _ _
  exact ⟨fun t => halike.exists_next, halike.fault_iff⟩

end Sys2Proof.Machine
end

section
/-! The preimage cache can be observed in nothing but the oracle's transactions (10_state.md R41). -/

namespace Sys2Proof.Machine

/-- With an empty preimage cache. -/
def emptyCache (s : State) : State := { s with lastPreimageKey := none, lastPreimage := [], lastPreimageOffset := 0 }

/-- Without the record of the oracle transactions and the offset of the last read. -/
def forgetAsked (s : State) : State := { s with lastPreimageOffset := 0, ports := { s.ports with preimageKeys := [] } }

theorem emptyCache_hides : HidesAside emptyCache := by
  constructor
  · constructor <;> intros <;> rfl
  case trackForgotten => exact fun a s => track_alike rfl rfl
  all_goals intros; rfl

theorem forgetAsked_hides : Hides forgetAsked := by
  constructor <;> intros <;> rfl

/-- The same key and buffer cached in states that differ in the cache. -/
theorem alike_cachePreimage {s t : State} (h : emptyCache s = emptyCache t) (key : Key) (buffer : List Byte) {p q : Ports}
    (hpq : { p with preimageKeys := [] } = { q with preimageKeys := [] }) :
    Alike forgetAsked (.next { s with lastPreimageKey := some key, lastPreimage := buffer, ports := p })
      (.next { t with lastPreimageKey := some key, lastPreimage := buffer, ports := q }) :=
  alike_next (congrArg₂ (fun (u : State) (ports : Ports) =>
    { u with lastPreimageKey := some key, lastPreimage := buffer, ports := ports }) h hpq)

/-- The cached buffer is what the oracle answers, so the buffer after a fetch does not depend on the cache. -/
theorem fetchPreimage_emptied {s t : State} (hs : s.Inv) (h : emptyCache s = emptyCache t) (ht : t.lastPreimageKey = none)
    (key : Key) : Alike forgetAsked (fetchPreimage key s) (fetchPreimage key t) := by
  have hports : t.ports = s.ports := field_eq (field := State.ports) emptyCache_hides.ports h
  have hc' : t.lastPreimageKey ≠ some key := by simp [ht]
  by_cases hc : s.lastPreimageKey = some key
  · obtain ⟨blob, hk, hb⟩ := hs.cache key hc
    have hk' : KnownPreimage t key blob := ⟨hports ▸ hk.1, hk.2⟩
    rw [fetchPreimage_known hk fun _ => hb, fetchPreimage_known hk' fun h' => absurd h' hc', if_pos hc, if_neg hc', hports]
    exact alike_cachePreimage h key _ rfl
  · simp only [fetchPreimage, cached, beq_iff_eq, hc, hc', if_false, hports]
    split
    · rfl
    · rfl
    · split
      · exact alike_cachePreimage h key _ rfl
      · rfl

theorem readFromPreimage_emptied {s t : State} (hs : s.Inv) (h : emptyCache s = emptyCache t)
    (ht : t.lastPreimageKey = none) (addr count : Word) :
    Alike forgetAsked (readFromPreimage addr count s) (readFromPreimage addr count t) := by
  refine (emptyCache_hides.track h _).andThen_of fun u v hu hv huv => ?_
  have hempty : v.lastPreimageKey = none := by
    rw [(track_eq_next hv).2.2]
    exact ht
  rw [field_eq emptyCache_hides.preimageKey huv, field_eq emptyCache_hides.preimageOffset huv]
  have hfetch := fetchPreimage_emptied (hs.track hu) huv hempty u.preimageKey
  refine Alike.andThen (hfetch.andThen fun u v huv => alike_next ?_) fun u v huv => ?_
  · exact congrArg (fun w : State => { w with lastPreimageOffset := 0 }) huv
  · obtain ⟨hstate, hcount⟩ := forgetAsked_hides.deliverPreimage huv
      (field_eq (F := forgetAsked) (field := State.lastPreimage) (fun _ => rfl) huv) addr count
    simp only
    rw [hcount]
    exact forgetAsked_hides.syscallReturn hstate _ _

theorem exec_read_preimage {s : State} (hnum : readReg s 2#5 = callRead) (hfd : readReg s 4#5 = fdPreimageRead) :
    exec .syscall s = readFromPreimage (readReg s 5#5) (readReg s 6#5) s :=
  (execSyscall_read hnum).trans (by rw [hfd, sysRead_preimage])

/-- No instruction's outcome depends on the cache, but for the cache and the oracle's transactions: only a read from fd 5
reads the cache. -/
theorem exec_emptied {s t : State} (hs : s.Inv) (h : emptyCache s = emptyCache t) (ht : t.lastPreimageKey = none) (i : Instr) :
    Alike forgetPreimageCache (exec i s) (exec i t) := by
  by_cases hcall : i = .syscall ∧ readReg s 2#5 = callRead ∧ readReg s 4#5 = fdPreimageRead
  · obtain ⟨rfl, hnum, hfd⟩ := hcall
    have hreg := emptyCache_hides.readReg_eq h
    rw [exec_read_preimage hnum hfd, exec_read_preimage ((hreg _).trans hnum) ((hreg _).trans hfd), hreg, hreg]
    exact (readFromPreimage_emptied hs h ht _ _).coarsen fun _ => rfl
  · have halike : Alike emptyCache (exec i s) (exec i t) :=
      emptyCache_hides.exec h i (fun _ => field_eq (F := emptyCache) (field := State.hi) (fun _ => rfl) h)
        (fun _ => field_eq (F := emptyCache) (field := State.lo) (fun _ => rfl) h)
        fun hi hnum hfd => absurd ⟨hi, hnum, hfd⟩ hcall
    exact halike.coarsen fun _ => rfl

/-- Settles O24: a buffer in the cache is the oracle's, by the invariant. -/
theorem preimageCacheIsUnobservable : Obligations.PreimageCacheIsUnobservable := by
  intro s hs s'
  have halike : Alike forgetPreimageCache (step s) (step s') :=
    step_alike rfl rfl rfl rfl fun i _ => exec_emptied hs.beginStep (t := beginStep s') rfl rfl i
  exact ⟨fun t => halike.exists_next, halike.fault_iff⟩

end Sys2Proof.Machine
end

section
/-! The register file and memory, and the results of the arithmetic and logic instructions (10_state.md R21, 20_memory.md,
42_alu.md). -/

namespace Sys2Proof.Machine

/-! ### Registers and memory -/

/-- Settles O25: by the laws of the register file. -/
theorem registerFile : Obligations.RegisterFile :=
  fun s r q v => ⟨readReg_zero s, writeReg_zero s v, readReg_writeReg s r q v⟩

/-- Settles O28: by the laws of the range reader. -/
theorem rangeReaderYieldsConsecutiveBytes : Obligations.RangeReaderYieldsConsecutiveBytes := by
  refine fun s a count => ⟨rangeRead_length s a count, fun i hi => ?_, rangeRead_in_word s a count⟩
  have hlt : i < (rangeRead s a count).length := by simpa using hi
  rw [List.getElem?_eq_getElem hlt, rangeRead_getElem]

/-- A canonical memory lists no address past the last. -/
theorem Memory.readByte_of_ge {l : Nat} {m : Memory} (h : Memory.wfFrom l m = true) {a : Nat} (ha : 2 ^ 32 ≤ a) :
    Memory.readByte m a = unlistedByte := by
  induction m generalizing l with
  | nil => rfl
  | cons c rest ih =>
    obtain ⟨_, hlt, _, hrest⟩ := Memory.wfFrom_cons.1 h
    rw [Memory.readByte, if_neg (by omega)]
    exact ih hrest

/-- Settles O29: canonical memories that read the same at every address read the same at every number. -/
theorem memoryKeepsItsCanonicalForm : Obligations.MemoryKeepsItsCanonicalForm := by
  refine ⟨fun m addr v h => Memory.wf_writeWord h addr v,
    fun m a b h => Memory.wfFrom_writeByte h (Nat.zero_le _) a.isLt b, fun m m' h h' heq => ?_⟩
  refine Memory.eq_of_readByte h h' fun a => ?_
  by_cases ha : a < 2 ^ 32
  · have hword := heq (BitVec.ofNat 32 a)
    rwa [BitVec.toNat_ofNat, Nat.mod_eq_of_lt ha] at hword
  · rw [Memory.readByte_of_ge h (by omega), Memory.readByte_of_ge h' (by omega)]

/-! ### Shifts -/

theorem shiftAmount_eq (v : Word) : shiftAmount v = v.toNat % 32 :=
  Nat.and_two_pow_sub_one_eq_mod v.toNat 5

/-- The arithmetic right shift of R153: what is left after a logical one, sign-extended. -/
theorem shiftRightArithValue_eq (v : Word) {k : Nat} (hk : k < 32) : shiftRightArithValue v k = v.sshiftRight k := by
  refine BitVec.eq_of_getLsbD_eq fun i hi => ?_
  have hmsb : ((v >>> k).setWidth (32 - k)).msb = v.msb := by
    rw [BitVec.msb_eq_getLsbD_last, BitVec.msb_eq_getLsbD_last, BitVec.getLsbD_setWidth, BitVec.getLsbD_ushiftRight,
      show k + (32 - k - 1) = 32 - 1 by omega, decide_eq_true (by omega), Bool.true_and]
  rw [shiftRightArithValue, sext, BitVec.getLsbD_signExtend, BitVec.getLsbD_sshiftRight, hmsb]
  by_cases hlow : k + i < 32
  · have : i < 32 - k := by omega
    simp [hi, hlow, this]
  · have : ¬ i < 32 - k := by omega
    simp [hi, hlow, this]

/-- Settles O30: each shift is one writeback; the effective amount is below 32. -/
theorem shiftResults : Obligations.ShiftResults := by
  intro s rd rt rs sh
  have hmod : (readReg s rs).toNat % 32 < 32 := Nat.mod_lt _ (by decide)
  rw [← shiftRightArithValue_eq _ sh.isLt, ← shiftRightArithValue_eq _ hmod, ← shiftAmount_eq]
  exact ⟨writeback_writesReg rd _ s, writeback_writesReg rd _ s, writeback_writesReg rd _ s,
    writeback_writesReg rd _ s, writeback_writesReg rd _ s, writeback_writesReg rd _ s⟩

/-! ### Addition, subtraction and comparison -/

theorem boolWord_decide (p : Prop) [Decidable p] : boolWord (decide p) = if p then 1 else 0 := by
  simp [boolWord]

/-- Settles O31: each of the ten is one writeback; sums and differences wrap. -/
theorem threeRegisterResults : Obligations.ThreeRegisterResults := by
  intro s rd rs rt a b
  have hadd : BitVec.ofNat 32 (a.toNat + b.toNat) = a + b := rfl
  have hsub : BitVec.ofInt 32 (a.toInt - b.toInt) = a - b := by
    rw [Int.sub_eq_add_neg, BitVec.ofInt_add, BitVec.ofInt_neg, BitVec.ofInt_toInt, BitVec.ofInt_toInt,
      BitVec.sub_eq_add_neg]
  rw [hadd, hsub, ← boolWord_decide, ← boolWord_decide]
  exact ⟨writeback_writesReg rd _ s, writeback_writesReg rd _ s, writeback_writesReg rd _ s,
    writeback_writesReg rd _ s, writeback_writesReg rd _ s, writeback_writesReg rd _ s, writeback_writesReg rd _ s,
    writeback_writesReg rd _ s, writeback_writesReg rd _ s, writeback_writesReg rd _ s⟩

theorem sextImm_toInt (imm : BitVec 16) : (sextImm imm).toInt = imm.toInt :=
  BitVec.toInt_signExtend_of_le (by decide)

/-- Settles O32: each of the four is one writeback; sign extension keeps the immediate's value. -/
theorem signedImmediateResults : Obligations.SignedImmediateResults := by
  intro s rt rs imm a
  have hadd : BitVec.ofInt 32 (a.toInt + imm.toInt) = a + sextImm imm := by
    rw [← sextImm_toInt, BitVec.ofInt_add, BitVec.ofInt_toInt, BitVec.ofInt_toInt]
  rw [hadd, ← boolWord_decide, ← boolWord_decide, ← sextImm_toInt]
  exact ⟨writeback_writesReg rt _ s, writeback_writesReg rt _ s, writeback_writesReg rt _ s, writeback_writesReg rt _ s⟩

/-! ### Pass-through encodings -/

/-- Settles O36: all seven are the same writeback, which writes nothing if the register is 0. -/
theorem passThroughResults : Obligations.PassThroughResults := by
  intro s rd rs i hi
  have hpass : exec i s = passThrough rd rs s := by
    simp only [List.mem_cons, List.not_mem_nil, or_false] at hi
    rcases hi with rfl | rfl | rfl | rfl | rfl | rfl | rfl <;> rfl
  refine ⟨_, hpass.trans (writeback_reg rd _ true s), advance_writeReg_writesReg s rd _, ?_⟩
  rintro rfl
  rfl

end Sys2Proof.Machine
end

section
/-! Loads and stores by the bytes of memory (43_load_store.md). -/

namespace Sys2Proof.Machine

/-! ### The bytes of the accessed word -/

/-- Both bytes of a halfword lie in the word the address lies in. -/
theorem alignDown_half (a : Word) :
    alignDown (a &&& 0xFFFFFFFE) = alignDown a ∧ alignDown (a ||| 1) = alignDown a := by
  constructor
  · rw [alignDown, BitVec.and_assoc]
    rfl
  · refine BitVec.eq_of_getLsbD_eq fun i hi => ?_
    unfold alignDown
    interval_cases i <;> simp

theorem byteOffset_alignDown (a : Word) : byteOffset (alignDown a) = 0 := by
  rw [byteOffset_eq, alignDown_mod]

/-- A range from the start of a word on. -/
theorem rangeRead_alignDown (s : State) (a : Word) {n : Nat} (h : n ≤ 4) :
    rangeRead s (alignDown a) n = (wordBytes (memRead s (alignDown a))).take n := by
  rw [rangeRead_in_word s _ n (by rw [byteOffset_alignDown]; omega), byteOffset_alignDown, alignDown_alignDown,
    List.drop_zero]

/-- A range up to the end of a word. -/
theorem rangeRead_to_end (s : State) (a : Word) :
    rangeRead s a (4 - byteOffset a) = (wordBytes (memRead s (alignDown a))).drop (byteOffset a) := by
  have hlt := byteOffset_lt a
  rw [rangeRead_in_word s a _ (by omega), List.take_of_length_le (by simp)]

/-! ### Loads -/

/-- The halfword of memory an address lies in is its two bytes. -/
theorem laneHalf_memRead (s : State) (a : Word) :
    laneHalf (memRead s (alignDown a)) a = memByte s (a &&& 0xFFFFFFFE) ++ memByte s (a ||| 1) := by
  rw [laneHalf_eq, memByte_eq_laneByte, memByte_eq_laneByte, (alignDown_half a).1, (alignDown_half a).2]

/-- Settles O37: each is a load whose value is a lane of the accessed word. -/
theorem loadResults : Obligations.LoadResults := by
  intro s rt rs imm ea half htr
  have hhalf : half = laneHalf (memRead s (alignDown ea)) ea := (laneHalf_memRead s ea).symm
  have hword : wordOfBytes (rangeRead s (alignDown ea) 4) = memRead s (alignDown ea) := by
    rw [rangeRead_alignDown s ea (Nat.le_refl 4)]
    exact wordOfBytes_wordBytes _
  have hload := fun value => load_spec value rt imm rs s htr
  rw [memByte_eq_laneByte, hhalf, hword, ← lbValue_eq ea (readReg s rt), ← lbuValue_eq ea (readReg s rt),
    ← lhValue_eq ea (readReg s rt), ← lhuValue_eq ea (readReg s rt)]
  exact ⟨hload lbValue, hload lbuValue, hload lhValue, hload lhuValue, hload lwValue⟩

/-- Settles O39: each is a load whose value's bytes are those of the register and of the accessed word. -/
theorem partialLoadResults : Obligations.PartialLoadResults := by
  intro s rt rs imm ea b old htr
  have hb : b = byteOffset ea := (byteOffset_eq ea).symm
  have hlt := byteOffset_lt ea
  have hleft : wordOfBytes (rangeRead s ea (4 - b) ++ old.drop (4 - b)) =
      lwlValue ea (readReg s rt) (memRead s (alignDown ea)) := by
    rw [hb, rangeRead_to_end, ← wordBytes_lwlValue, wordOfBytes_wordBytes]
  have hright : wordOfBytes (old.take (3 - b) ++ rangeRead s (alignDown ea) (b + 1)) =
      lwrValue ea (readReg s rt) (memRead s (alignDown ea)) := by
    rw [hb, rangeRead_alignDown s ea (by omega), ← wordBytes_lwrValue, wordOfBytes_wordBytes]
  rw [hleft, hright]
  exact ⟨load_spec lwlValue rt imm rs s htr, load_spec lwrValue rt imm rs s htr⟩

/-! ### Stores -/

section stored
variable {s t : State} (hwf : Memory.wf s.mem = true) {ea v : Word}
  (hmem : t.mem = Memory.writeWord s.mem (alignDown ea) v)
include hwf hmem

/-- A byte of the stored word. -/
theorem memByte_stored {a : Word} (ha : alignDown a = alignDown ea) : memByte t a = laneByte v a :=
  (memByte_of_mem_eq hwf hmem a).trans (if_pos ha)

/-- A byte that a store leaves alone, in its word or in another. -/
theorem memByte_not_stored {a : Word}
    (hlane : alignDown a = alignDown ea → laneByte v a = laneByte (memRead s (alignDown ea)) a) :
    memByte t a = memByte s a := by
  rw [memByte_of_mem_eq hwf hmem a]
  split
  · next ha => rw [hlane ha, ← ha, memByte_eq_laneByte]
  · rfl

end stored

/-- An address is its word and its place in it. -/
theorem eq_of_byteOffset_eq {a b : Word} (hword : alignDown a = alignDown b) (hoff : byteOffset a = byteOffset b) : a = b := by
  rw [alignDown_eq_iff] at hword
  rw [byteOffset_eq, byteOffset_eq] at hoff
  exact BitVec.eq_of_toNat_eq (by omega)

/-- Settles O40: in the stored word, the lanes of the value are those of the register, and the others are as before. -/
theorem storeResults : Obligations.StoreResults := by
  intro s rt rs imm ea v hwf htr
  have hstore : ∀ value, ∃ t, store value rt imm rs s = .next t ∧
      t.mem = Memory.writeWord s.mem (alignDown ea) (value ea v (memRead s (alignDown ea))) ∧ Stores s t ea :=
    fun value => store_spec value rt imm rs s htr
  clear_value ea v
  obtain ⟨heven, hodd⟩ := alignDown_half ea
  refine ⟨?_, ?_, ?_⟩
  · obtain ⟨t, ht, hmem, hst⟩ := hstore sbValue
    refine ⟨t, ht, hst, ?_, fun a ha => memByte_not_stored hwf hmem fun hw => ?_⟩
    · rw [memByte_stored hwf hmem rfl, laneByte_sbValue, if_pos rfl]
      rfl
    · rw [laneByte_sbValue, if_neg fun hoff => ha (eq_of_byteOffset_eq hw hoff)]
  · obtain ⟨t, ht, hmem, hst⟩ := hstore shValue
    refine ⟨t, ht, hst, ?_, ?_, fun a ha => memByte_not_stored hwf hmem fun hw => ?_⟩
    · rw [memByte_stored hwf hmem heven, laneByte_shValue, if_pos rfl]
      rfl
    · rw [memByte_stored hwf hmem hodd, laneByte_shValue, if_neg, if_pos rfl]
      · rfl
      · rw [(byteOffset_half _).1, (byteOffset_half _).2]
        omega
    · rw [laneByte_shValue, if_neg fun hoff => ha (.inl (eq_of_byteOffset_eq (hw.trans heven.symm) hoff)),
        if_neg fun hoff => ha (.inr (eq_of_byteOffset_eq (hw.trans hodd.symm) hoff))]
  · obtain ⟨t, ht, hmem, hst⟩ := hstore swValue
    refine ⟨t, ht, hst, ?_, fun a ha => memByte_not_stored hwf hmem fun hw => absurd hw ha⟩
    have halign := (and_three_eq_zero_iff _).2 (alignDown_mod ea)
    have hread : memRead t (alignDown ea) = v :=
      (memRead_congr hmem _).trans ((memRead_memWrite hwf halign halign _).trans (if_pos rfl))
    rw [rangeRead_alignDown t ea (Nat.le_refl 4), hread]
    rfl

/-- Settles O41: in the stored word, the lanes on one side of the address are the register's, and the others are as before. -/
theorem partialStoreResults : Obligations.PartialStoreResults := by
  intro s rt rs imm ea b v hwf htr
  have hstore : ∀ value, ∃ t, store value rt imm rs s = .next t ∧
      t.mem = Memory.writeWord s.mem (alignDown ea) (value ea (readReg s rt) (memRead s (alignDown ea))) ∧ Stores s t ea :=
    fun value => store_spec value rt imm rs s htr
  clear_value ea
  have hb : byteOffset ea = b := byteOffset_eq ea
  have hlt := byteOffset_lt ea
  have halign := alignDown_toNat ea
  refine ⟨?_, ?_⟩
  · obtain ⟨t, ht, hmem, hst⟩ := hstore swlValue
    refine ⟨t, ht, hst, List.ext_getElem (by simp [v]) fun i h1 h2 => ?_,
      fun a ha => memByte_not_stored hwf hmem fun hw => ?_⟩
    · have hi : i < 4 - b := by simpa using h1
      obtain ⟨hword, hoff⟩ := address_in_word (a := ea) (i := i) (by omega)
      rw [rangeRead_getElem, memByte_stored hwf hmem hword, laneByte_swlValue, hoff, if_pos (Nat.le_add_right _ _),
        Nat.add_sub_cancel_left, List.getElem_take, wordBytes_getElem]
    · rw [alignDown_eq_iff] at hw
      rw [laneByte_swlValue, byteOffset_eq, byteOffset_eq, if_neg (by omega)]
  · obtain ⟨t, ht, hmem, hst⟩ := hstore swrValue
    refine ⟨t, ht, hst, List.ext_getElem (by simp [v]; omega) fun i h1 h2 => ?_,
      fun a ha => memByte_not_stored hwf hmem fun hw => ?_⟩
    · have hi : i < b + 1 := by simpa using h1
      obtain ⟨hword, hoff⟩ := address_in_word (a := alignDown ea) (i := i) (by rw [byteOffset_alignDown]; omega)
      rw [alignDown_alignDown] at hword
      rw [byteOffset_alignDown, Nat.zero_add] at hoff
      rw [rangeRead_getElem, memByte_stored hwf hmem hword, laneByte_swrValue, hoff, if_pos (by omega),
        List.getElem_drop, wordBytes_getElem]
      congr 2
      omega
    · rw [alignDown_eq_iff] at hw
      rw [laneByte_swrValue, byteOffset_eq, byteOffset_eq, if_neg (by omega)]

end Sys2Proof.Machine
end

section
/-! The results of the hi/lo instructions (44_hilo.md R231 to R241). -/

namespace Sys2Proof.Machine

/-! ### Products -/

/-- The two halves of 64 bits make their unsigned value. -/
theorem halves_toNat (p : BitVec 64) : (upperHalf p).toNat * 2 ^ 32 + (lowerHalf p).toNat = p.toNat := by
  have := p.isLt
  simp only [upperHalf, lowerHalf, BitVec.extractLsb'_toNat, Nat.shiftRight_eq_div_pow]
  omega

/-- Their signed value takes the upper half as signed. -/
theorem halves_toInt (p : BitVec 64) : (upperHalf p).toInt * 2 ^ 32 + (lowerHalf p).toNat = p.toInt := by
  have := halves_toNat p
  have := (lowerHalf p).isLt
  rw [BitVec.toInt_eq_toNat_cond, BitVec.toInt_eq_toNat_cond]
  split <;> split <;> omega

theorem signedProduct_toInt (a b : Word) : (signedProduct a b).toInt = a.toInt * b.toInt := by
  have hle : a.toInt * b.toInt ≤ 2 ^ 62 := BitVec.toInt_mul_toInt_le
  have hge : -2 ^ 62 ≤ a.toInt * b.toInt := BitVec.le_toInt_mul_toInt
  rw [signedProduct, BitVec.toInt_ofInt]
  exact Int.bmod_eq_of_le (by omega) (by omega)

theorem unsignedProduct_toNat (a b : Word) : (unsignedProduct a b).toNat = a.toNat * b.toNat := by
  have hlt : a.toNat * b.toNat < 2 ^ 32 * 2 ^ 32 := Nat.mul_lt_mul'' a.isLt b.isLt
  rw [unsignedProduct, BitVec.toNat_ofNat]
  exact Nat.mod_eq_of_lt hlt

/-- A write of `hi` and `lo`, said of whatever they then hold. -/
theorem setHiLo_result {hi lo : Word} {P : Word → Word → Prop} (s : State) (h : P hi lo) :
    ∃ t, setHiLo hi lo s = .next t ∧ WritesHiLo s t t.hi t.lo ∧ P t.hi t.lo := by
  obtain ⟨t, ht, rfl, rfl, hframe⟩ := setHiLo_spec hi lo s
  exact ⟨t, ht, ⟨rfl, rfl, hframe⟩, h⟩

/-- Settles O45: the moves are one write each; the halves of a product make the product. -/
theorem hiLoMoveAndMultiplyResults : Obligations.HiLoMoveAndMultiplyResults := by
  refine fun s rs rt => ⟨⟨_, rfl, advance_writeReg_writesReg s rs s.hi⟩,
    ⟨_, rfl, advance_writeReg_writesReg s rs s.lo⟩, setHiLo_spec (readReg s rs) s.lo s, setHiLo_spec s.hi (readReg s rs) s, ?_, ?_⟩
  · exact setHiLo_result (P := fun hi lo => hi.toInt * 2 ^ 32 + lo.toNat = _) s
      ((halves_toInt _).trans (signedProduct_toInt _ _))
  · exact setHiLo_result (P := fun hi lo => hi.toNat * 2 ^ 32 + lo.toNat = _) s
      ((halves_toNat _).trans (unsignedProduct_toNat _ _))

/-! ### Quotients and remainders -/

theorem signedQuotient_toInt {n d : Word} (h : ¬ (n = 0x80000000 ∧ d = 0xFFFFFFFF)) :
    (signedQuotient n d).toInt = n.toInt.tdiv d.toInt := by
  have hsdiv : signedQuotient n d = n.sdiv d := by
    refine BitVec.eq_of_toInt_eq ?_
    rw [signedQuotient, BitVec.toInt_ofInt, BitVec.toInt_sdiv]
  rw [hsdiv]
  refine BitVec.toInt_sdiv_of_ne_or_ne n d ?_
  by_cases hn : n = 0x80000000
  · exact .inr fun hd => h ⟨hn, hd⟩
  · exact .inl hn

theorem signedRemainder_toInt (n d : Word) : (signedRemainder n d).toInt = n.toInt.tmod d.toInt := by
  have hsrem : signedRemainder n d = n.srem d := by
    rw [signedRemainder, Int.mul_comm, ← Int.tmod_def, ← BitVec.toInt_srem, BitVec.ofInt_toInt]
  rw [hsrem, BitVec.toInt_srem]

theorem unsignedQuotient_toNat (n d : Word) : (unsignedQuotient n d).toNat = n.toNat / d.toNat := by
  rw [unsignedQuotient, BitVec.toNat_ofNat, Nat.mod_eq_of_lt (Nat.lt_of_le_of_lt (Nat.div_le_self _ _) n.isLt)]

theorem unsignedRemainder_toNat (n d : Word) : (unsignedRemainder n d).toNat = n.toNat % d.toNat := by
  rw [unsignedRemainder, BitVec.toNat_ofNat, Nat.mod_eq_of_lt (Nat.lt_of_le_of_lt (Nat.mod_le _ _) n.isLt)]

theorem toInt_ne_zero {d : Word} (h : d ≠ 0) : d.toInt ≠ 0 := fun h0 => h (BitVec.eq_of_toInt_eq h0)

theorem toNat_ne_zero {d : Word} (h : d ≠ 0) : d.toNat ≠ 0 := fun h0 => h (BitVec.eq_of_toNat_eq h0)

theorem exec_div {s : State} {rs rt : Reg} (hd : readReg s rt ≠ 0)
    (h : ¬ (readReg s rs = 0x80000000 ∧ readReg s rt = 0xFFFFFFFF)) :
    exec (.div rs rt) s =
      setHiLo (signedRemainder (readReg s rs) (readReg s rt)) (signedQuotient (readReg s rs) (readReg s rt)) s :=
  (if_neg hd).trans (if_neg h)

theorem exec_divu {s : State} {rs rt : Reg} (hd : readReg s rt ≠ 0) :
    exec (.divu rs rt) s =
      setHiLo (unsignedRemainder (readReg s rs) (readReg s rt)) (unsignedQuotient (readReg s rs) (readReg s rt)) s :=
  if_neg hd

/-- Settles O46: the words hold the truncated quotient and its remainder, which fit. -/
theorem divideResults : Obligations.DivideResults := by
  intro s rs rt n d hd
  refine ⟨fun hov => ?_, ?_⟩
  · rw [exec_div hd hov]
    refine setHiLo_result (P := fun hi lo => n.toInt = lo.toInt * d.toInt + hi.toInt ∧
      hi.toInt.natAbs < d.toInt.natAbs ∧ (0 ≤ n.toInt → 0 ≤ hi.toInt) ∧ (n.toInt ≤ 0 → hi.toInt ≤ 0)) s ?_
    rw [signedQuotient_toInt hov, signedRemainder_toInt]
    refine ⟨?_, ?_, ?_, ?_⟩
    · rw [Int.mul_comm]
      exact (Int.mul_tdiv_add_tmod _ _).symm
    · rw [Int.natAbs_tmod]
      exact Nat.mod_lt _ (Int.natAbs_pos.2 (toInt_ne_zero hd))
    · exact Int.tmod_nonneg _
    · intro hn
      have hneg := Int.tmod_nonneg d.toInt (Int.neg_nonneg_of_nonpos hn)
      rw [Int.neg_tmod] at hneg
      exact neg_nonneg.1 hneg
  · rw [exec_divu hd]
    refine setHiLo_result (P := fun hi lo => n.toNat = lo.toNat * d.toNat + hi.toNat ∧ hi.toNat < d.toNat) s ?_
    rw [unsignedQuotient_toNat, unsignedRemainder_toNat]
    exact ⟨(Nat.div_add_mod' _ _).symm, Nat.mod_lt _ (Nat.pos_of_ne_zero (toNat_ne_zero hd))⟩

/-! ### The policies -/

theorem exec_div_zero {s : State} {rs rt : Reg} (hd : readReg s rt = 0) :
    exec (.div rs rt) s = divideByZero (readReg s rs) (if 0 ≤ (readReg s rs).toInt then 0xFFFFFFFF else 1) s :=
  if_pos hd

theorem exec_divu_zero {s : State} {rs rt : Reg} (hd : readReg s rt = 0) :
    exec (.divu rs rt) s = divideByZero (readReg s rs) 0xFFFFFFFF s :=
  if_pos hd

theorem exec_div_overflow {s : State} {rs rt : Reg} (hn : readReg s rs = 0x80000000) (hd : readReg s rt = 0xFFFFFFFF) :
    exec (.div rs rt) s = divideOverflow s := by
  have hne : readReg s rt ≠ 0 := by simp [hd]
  exact (if_neg hne).trans (if_pos ⟨hn, hd⟩)

/-- Settles O47: each policy's own arm of the two policy functions. -/
theorem dividePolicies : Obligations.DividePolicies := by
  refine fun s rs rt => ⟨fun hd => ?_, fun hn hd => ?_⟩
  · rw [exec_div_zero hd, exec_divu_zero hd]
    refine ⟨fun hp => ?_, fun hp => ?_, fun hp => ?_⟩
    · simp only [divideByZero, hp]
      exact ⟨rfl, rfl⟩
    · simp only [divideByZero, hp]
      exact ⟨setHiLo_spec s.hi s.lo s, setHiLo_spec s.hi s.lo s⟩
    · simp only [divideByZero, hp]
      exact ⟨setHiLo_spec _ _ s, setHiLo_spec _ _ s⟩
  · rw [exec_div_overflow hn hd]
    refine ⟨fun hp => ?_, fun hp => ?_⟩
    · simp only [divideOverflow, hp]
      rfl
    · simp only [divideOverflow, hp]
      exact setHiLo_spec 0 _ s

end Sys2Proof.Machine
end

section
/-! The results of the system calls that do not reach the preimage engine (45_syscall.md R251 to R268). -/

namespace Sys2Proof.Machine

/-! ### Calls that only return -/

theorem sysMmap_hint {hint : Word} (h : hint ≠ 0) (length : Word) (s : State) :
    sysMmap hint length s = syscallReturn hint 0 s := if_neg h

theorem sysRead_badFd {fd : Word} (h0 : fd ≠ 0) (h3 : fd ≠ 3) (h5 : fd ≠ 5) (addr count : Word) (s : State) :
    sysRead fd addr count s = syscallBadFd s :=
  (if_neg h0).trans ((if_neg h5).trans (if_neg h3))

theorem sysWrite_badFd {fd : Word} (h1 : fd ≠ 1) (h2 : fd ≠ 2) (h4 : fd ≠ 4) (h6 : fd ≠ 6) (addr count : Word)
    (s : State) : sysWrite fd addr count s = syscallBadFd s :=
  (if_neg h1).trans ((if_neg h2).trans ((if_neg h4).trans (if_neg h6)))

theorem sysFcntl_readable {fd cmd : Word} {s : State} (hcmd : cmd = s.cfg.fGetfl) (h : fd = 0 ∨ fd = 3 ∨ fd = 5) :
    sysFcntl fd cmd s = syscallReturn s.cfg.oRdonly 0 s :=
  (if_pos hcmd).trans (if_pos h)

theorem sysFcntl_writable {fd cmd : Word} {s : State} (hcmd : cmd = s.cfg.fGetfl)
    (h : fd = 1 ∨ fd = 2 ∨ fd = 4 ∨ fd = 6) :
    sysFcntl fd cmd s = syscallReturn s.cfg.oWronly 0 s := by
  have hnot : ¬ (fd = 0 ∨ fd = 3 ∨ fd = 5) := by
    rcases h with rfl | rfl | rfl | rfl <;> decide
  exact (if_pos hcmd).trans ((if_neg hnot).trans (if_pos h))

theorem sysFcntl_badFd {fd cmd : Word} {s : State} (h : cmd ≠ s.cfg.fGetfl ∨ 7 ≤ fd.toNat) :
    sysFcntl fd cmd s = syscallBadFd s := by
  by_cases hcmd : cmd = s.cfg.fGetfl
  · have hfd : 7 ≤ fd.toNat := h.resolve_left fun hne => hne hcmd
    have hreadable : ¬ (fd = 0 ∨ fd = 3 ∨ fd = 5) := by
      rintro (rfl | rfl | rfl) <;> exact absurd hfd (by decide)
    have hwritable : ¬ (fd = 1 ∨ fd = 2 ∨ fd = 4 ∨ fd = 6) := by
      rintro (rfl | rfl | rfl | rfl) <;> exact absurd hfd (by decide)
    exact (if_pos hcmd).trans ((if_neg hreadable).trans (if_neg hwritable))
  · exact if_neg hcmd

/-- A call that is its common return and nothing else. -/
theorem exec_syscall_returns {s : State} {v0 v1 : Word} (h : execSyscall s = syscallReturn v0 v1 s) :
    ∃ t, exec .syscall s = .next t ∧ OnlyReturns s t v0 v1 := by
  obtain ⟨t, ht, hret⟩ := syscallReturn_spec v0 v1 s
  exact ⟨t, h.trans ht, hret⟩

/-- Settles O48: each clause's call is its common return and nothing else. -/
theorem plainCallResults : Obligations.PlainCallResults := by
  refine fun s => ⟨fun h => ?_, fun h => ?_, fun h h0 => ?_, fun h h0 => ?_, fun h h0 => ?_, fun h hc hfd => ?_,
    fun h hc hfd => ?_, fun h1 h2 h3 h4 h5 h6 h7 => ?_⟩ <;> refine exec_syscall_returns ?_
  · exact execSyscall_brk h
  · exact execSyscall_clone h
  · exact (execSyscall_mmap h).trans (sysMmap_hint h0 _ s)
  · rw [execSyscall_read h, h0]
    rfl
  · rw [execSyscall_read h, h0]
    rfl
  · exact (execSyscall_fcntl h).trans (sysFcntl_readable hc hfd)
  · exact (execSyscall_fcntl h).trans (sysFcntl_writable hc hfd)
  · refine execSyscall_other ?_
    simp only [List.mem_cons, List.not_mem_nil, or_false, not_or]
    exact ⟨h1, h2, h3, h4, h5, h6, h7⟩

/-! ### Error codes -/

/-- An outcome whose error code, if it completes, is 0, or EBADF with the result -1. -/
def AnswersOkOrBadFd (r : Result) : Prop :=
  ∀ t, r = .next t → readReg t 7#5 = 0 ∨ (readReg t 7#5 = 9 ∧ readReg t 2#5 = 0xFFFFFFFF)

theorem answers_return (v0 : Word) (s : State) : AnswersOkOrBadFd (syscallReturn v0 0 s) := by
  obtain ⟨t, ht, ⟨_, herr, _⟩, _⟩ := syscallReturn_spec v0 0 s
  intro u hu
  obtain rfl : t = u := Host.Outcome.next.inj (ht.symm.trans hu)
  exact .inl herr

theorem answers_badFd (s : State) : AnswersOkOrBadFd (syscallBadFd s) := by
  obtain ⟨t, ht, ⟨hres, herr, _⟩, _⟩ := syscallReturn_spec 0xFFFFFFFF errBadFd s
  intro u hu
  obtain rfl : t = u := Host.Outcome.next.inj (ht.symm.trans hu)
  exact .inr ⟨herr, hres⟩

theorem answers_fault (f : Fault) : AnswersOkOrBadFd (.fault f) := fun _ h => by cases h

theorem answers_andThen {r : Result} {k : State → Result} (h : ∀ u, AnswersOkOrBadFd (k u)) :
    AnswersOkOrBadFd (andThen r k) := by
  intro t ht
  obtain ⟨u, _, hu⟩ := andThen_eq_next.1 ht
  exact h u t hu

theorem answers_sysMmap (hint length : Word) (s : State) : AnswersOkOrBadFd (sysMmap hint length s) := by
  unfold sysMmap
  dsimp only
  split
  · split
    · exact answers_fault _
    · exact answers_return _ _
  · exact answers_return _ _

theorem answers_sysRead (fd addr count : Word) (s : State) : AnswersOkOrBadFd (sysRead fd addr count s) := by
  unfold sysRead
  split
  · exact answers_return _ _
  · split
    · exact answers_andThen fun _ => answers_andThen fun _ => answers_return _ _
    · split
      · exact answers_return _ _
      · exact answers_badFd _

theorem answers_sysWrite (fd addr count : Word) (s : State) : AnswersOkOrBadFd (sysWrite fd addr count s) := by
  unfold sysWrite
  split
  · exact answers_andThen fun _ => answers_return _ _
  · split
    · exact answers_andThen fun _ => answers_return _ _
    · split
      · exact answers_andThen fun _ => answers_return _ _
      · split
        · exact answers_andThen fun _ => answers_return _ _
        · exact answers_badFd _

theorem answers_sysFcntl (fd cmd : Word) (s : State) : AnswersOkOrBadFd (sysFcntl fd cmd s) := by
  unfold sysFcntl
  split
  · split
    · exact answers_return _ _
    · split
      · exact answers_return _ _
      · exact answers_badFd _
  · exact answers_badFd _

/-- No call but exit_group, which answers nothing, answers another error code. -/
theorem answers_execSyscall {s : State} (h : readReg s 2#5 ≠ callExitGroup) : AnswersOkOrBadFd (execSyscall s) := by
  unfold execSyscall
  simp only [if_neg h]
  split
  · exact answers_sysMmap _ _ _
  split
  · exact answers_return _ _
  split
  · exact answers_return _ _
  split
  · exact answers_sysRead _ _ _ _
  split
  · exact answers_sysWrite _ _ _ _
  split
  · exact answers_sysFcntl _ _ _
  · exact answers_return _ _

/-- Settles O49: the failing calls are one return of -1 and EBADF; every other return has error code 0. -/
theorem failingCallsReturnBadFd : Obligations.FailingCallsReturnBadFd := by
  refine fun s => ⟨fun h h0 h3 h5 => ?_, fun h h1 h2 h4 h6 => ?_, fun h hfd => ?_,
    fun t ht h => answers_execSyscall h t ht⟩ <;>
    refine exec_syscall_returns ?_
  · exact (execSyscall_read h).trans (sysRead_badFd h0 h3 h5 _ _ s)
  · exact (execSyscall_write h).trans (sysWrite_badFd h1 h2 h4 h6 _ _ s)
  · exact (execSyscall_fcntl h).trans (sysFcntl_badFd hfd)

/-! ### mmap in heap mode -/

/-- The rounded length is the least multiple of the page size that covers the length. -/
theorem roundToPage_eq {cfg : Config} {length : Word} {size : Nat} (hdvd : 2 ^ cfg.pageSizeLog2 ∣ size)
    (hcover : length.toNat ≤ size)
    (hleast : ∀ n, 2 ^ cfg.pageSizeLog2 ∣ n → length.toNat ≤ n → size ≤ n) : roundToPage cfg length = size := by
  have hpos : 0 < 2 ^ cfg.pageSizeLog2 := Nat.two_pow_pos _
  unfold roundToPage pageSize
  generalize 2 ^ cfg.pageSizeLog2 = page at *
  refine Nat.le_antisymm ?_ (hleast _ (Nat.dvd_mul_left _ _) ?_)
  · obtain ⟨k, rfl⟩ := hdvd
    have hlt : (length.toNat + (page - 1)) / page < k + 1 := by
      rw [Nat.div_lt_iff_lt_mul hpos, Nat.add_mul, Nat.mul_comm k]
      omega
    rw [Nat.mul_comm page]
    exact Nat.mul_le_mul_right _ (Nat.le_of_lt_succ hlt)
  · have := Nat.lt_div_mul_add (a := length.toNat + (page - 1)) hpos
    omega

/-- Settles O50: the size is the rounded length, and the bumped pointer fits the word or the call aborts. -/
theorem mmapBumpsTheHeap : Obligations.MmapBumpsTheHeap := by
  intro s size hnum hhint hdvd hcover hleast
  have hcall : exec .syscall s = sysMmap 0 (readReg s 5#5) s := (execSyscall_mmap hnum).trans (by rw [hhint])
  have hround := roundToPage_eq hdvd hcover hleast
  rw [hcall, sysMmap, if_pos rfl, hround]
  refine ⟨fun hfits => ?_, fun hover => if_pos hover⟩
  rw [if_neg (by omega)]
  obtain ⟨t, ht, hret, hmem, honly⟩ := syscallReturn_spec s.heap 0 { s with heap := BitVec.ofNat 32 (s.heap.toNat + size) }
  have hheap : t.heap = BitVec.ofNat 32 (s.heap.toNat + size) := congrArg State.heap honly
  refine ⟨t, ht, hret, ?_, hmem, ?_⟩
  · rw [hheap, BitVec.toNat_ofNat, Nat.mod_eq_of_lt hfits]
  · rw [hheap]
    exact honly

/-! ### exit_group -/

theorem runFor_exited {s : State} (h : s.exited = true) (n : Nat) : runFor n s = .exited s := by
  induction n with
  | zero => exact if_pos h
  | succ n ih =>
    rw [runFor, step_exited h]
    exact ih

/-- Settles O51: a state that has exited is the end of every run from it. -/
theorem exitGroupEndsTheRun : Obligations.ExitGroupEndsTheRun :=
  fun _ h => ⟨_, execSyscall_exitGroup h, rfl, runFor_exited rfl⟩

/-! ### Writes to stdout, stderr and the hint channel -/

/-- The return of a call that changed nothing but the ports and the hint buffer. -/
theorem syscallReturn_after_ports {s u : State} (hu : u = { s with lastHint := u.lastHint, ports := u.ports }) (v0 : Word) :
    ∃ t, syscallReturn v0 0 u = .next t ∧ Returns s t v0 0 ∧ SameMemory s t ∧ t.ports = u.ports ∧
      t = { s with regs := t.regs, pc := t.pc, nextPc := t.nextPc, lastHint := u.lastHint, ports := u.ports } := by
  obtain ⟨t, ht, hret, hmem, honly⟩ := syscallReturn_spec v0 0 u
  have hports : t.ports = u.ports := by rw [honly]
  refine ⟨t, ht, ?_, ?_, hports, ?_⟩
  · rw [hu] at hret
    exact hret
  · rw [hu] at hmem
    exact hmem
  · rw [hu] at honly
    exact honly

theorem Room.accepts_iff {room : Option Nat} {n : Nat} : Room.accepts room n = true ↔ ∀ r, room = some r → n ≤ r := by
  cases room <;> simp [Room.accepts]

theorem Sink.append_of_accepts {k : Sink} {bytes : List Byte} (h : Room.accepts k.room bytes.length = true) :
    k.append bytes = ⟨k.bytes ++ bytes, k.room.map (· - bytes.length)⟩ := by
  rw [Sink.append, Room.taken_of_accepts h]
  rfl

theorem Sink.append_of_lt {k : Sink} {bytes : List Byte} {r : Nat} (hr : k.room = some r) (hlt : r < bytes.length) :
    k.append bytes = ⟨k.bytes ++ bytes.take r, some 0⟩ := by
  simp only [Sink.append, hr, Room.taken, Room.left, Option.map_some, Nat.sub_eq_zero_of_le hlt.le]

theorem Room.not_accepts_of_lt {room : Option Nat} {r n : Nat} (hr : room = some r) (hlt : r < n) :
    ¬ Room.accepts room n = true := by
  rw [Room.accepts_iff]
  exact fun h => absurd (h r hr) (by omega)

theorem exec_write_stdout {s : State} (hnum : readReg s 2#5 = callWrite) (hfd : readReg s 4#5 = fdStdout) :
    exec .syscall s = andThen (writeStdout (rangeRead s (readReg s 5#5) (readReg s 6#5).toNat) s)
      (syscallReturn (readReg s 6#5) 0) :=
  (execSyscall_write hnum).trans (by rw [hfd, sysWrite_stdout])

theorem exec_write_stderr {s : State} (hnum : readReg s 2#5 = callWrite) (hfd : readReg s 4#5 = fdStderr) :
    exec .syscall s = andThen (writeStderr (rangeRead s (readReg s 5#5) (readReg s 6#5).toNat) s)
      (syscallReturn (readReg s 6#5) 0) :=
  (execSyscall_write hnum).trans (by rw [hfd, sysWrite_stderr])

theorem exec_write_hint {s : State} (hnum : readReg s 2#5 = callWrite) (hfd : readReg s 4#5 = fdHintWrite) :
    exec .syscall s = andThen (writeHint (rangeRead s (readReg s 5#5) (readReg s 6#5).toNat) s)
      (syscallReturn (readReg s 6#5) 0) :=
  (execSyscall_write hnum).trans (by rw [hfd, sysWrite_hint])

/-- Settles O52: a sink appends what it takes, and the step aborts exactly if that is not all. -/
theorem outputWriteResults : Obligations.OutputWriteResults := by
  intro s hnum bytes accepts
  refine ⟨fun hfd haccepts => ?_, fun hfd r hr hlt => ?_, fun hfd haccepts => ?_, fun hfd r hr hlt => ?_⟩
  · have hroom := Room.accepts_iff.2 haccepts
    rw [exec_write_stdout hnum hfd, writeStdout_eq, if_pos hroom, andThen_next]
    obtain ⟨t, ht, hret, hmem, hports, hframe⟩ := syscallReturn_after_ports (s := s)
      (u := { s with ports := { s.ports with stdout := s.ports.stdout.append bytes } }) rfl (readReg s 6#5)
    exact ⟨t, ht, hret, hmem, (congrArg Ports.stdout hports).trans (Sink.append_of_accepts hroom),
      by rw [hports]; exact hframe⟩
  · rw [exec_write_stdout hnum hfd, writeStdout_eq, if_neg (Room.not_accepts_of_lt hr hlt), Sink.append_of_lt hr hlt]
    rfl
  · have hroom := Room.accepts_iff.2 haccepts
    rw [exec_write_stderr hnum hfd, writeStderr_eq, if_pos hroom, andThen_next]
    obtain ⟨t, ht, hret, hmem, hports, hframe⟩ := syscallReturn_after_ports (s := s)
      (u := { s with ports := { s.ports with stderr := s.ports.stderr.append bytes } }) rfl (readReg s 6#5)
    exact ⟨t, ht, hret, hmem, (congrArg Ports.stderr hports).trans (Sink.append_of_accepts hroom),
      by rw [hports]; exact hframe⟩
  · rw [exec_write_stderr hnum hfd, writeStderr_eq, if_neg (Room.not_accepts_of_lt hr hlt), Sink.append_of_lt hr hlt]
    rfl

/-- Settles O55: the write is `writeHint`, and then the common return. -/
theorem hintWriteResult : Obligations.HintWriteResult := by
  intro s u hnum hfd hu
  obtain ⟨_, _, _, _, _, hframe⟩ := writeHint_eq_next hu
  have hports : u = { s with lastHint := u.lastHint, ports := u.ports } := by
    rw [hframe]
  obtain ⟨t, ht, hret, hmem, _, honly⟩ := syscallReturn_after_ports hports (readReg s 6#5)
  refine ⟨t, ?_, hret, hmem, honly⟩
  rw [exec_write_hint hnum hfd, hu, andThen_next, ht]

end Sys2Proof.Machine
end

section
/-! The preimage and hint engine, and what its ports keep of aborted steps (46_preimage.md R281 to R290, 60_exceptions.md R300 to
R308). -/

namespace Sys2Proof.Machine

/-! ### Hint writes -/

/-- Every record has at least the four bytes of its length. -/
theorem length_le_records (payloads : List (List Byte)) : payloads.length ≤ ((payloads.map prefixed).flatten).length := by
  induction payloads with
  | nil => simp
  | cons p ps ih =>
    simp only [List.map_cons, List.flatten_cons, List.length_append, List.length_cons, prefixed_length]
    omega

/-- A hint write whose buffer splits into these records and this rest. -/
theorem writeHint_eq {s : State} {bytes rest : List Byte} {payloads : List (List Byte)}
    (hsplit : s.lastHint ++ bytes = (payloads.map prefixed).flatten ++ rest) (hlen : ∀ p ∈ payloads, p.length < 2 ^ 32)
    (hrest : completeRecord rest = false) :
    writeHint bytes s = if Room.accepts s.ports.hintRoom payloads.length = true then
        .next { s with lastHint := rest, ports := s.ports.sendHints payloads }
      else .fault (.sinkFailure (s.ports.sendHints payloads)) := by
  have hfuel : payloads.length ≤ (s.lastHint ++ bytes).length := by
    have := length_le_records payloads
    rw [hsplit, List.length_append]
    omega
  have hextract : extractHints (s.lastHint ++ bytes).length (s.lastHint ++ bytes) = (payloads, rest) := by
    rw [hsplit] at hfuel ⊢
    exact extractHints_records payloads rest hlen hrest _ hfuel
  simp only [writeHint, hextract]
  rfl

/-- A channel takes a sequence of payloads exactly if it takes the first ones and then the others. -/
theorem Room.accepts_add (room : Option Nat) (m n : Nat) :
    Room.accepts room (m + n) = true ↔ Room.accepts room m = true ∧ Room.accepts (Room.left room m) n = true := by
  cases room with
  | none => simp [Room.accepts, Room.left]
  | some r =>
    simp only [Room.accepts, Room.left, Option.map_some, decide_eq_true_eq]
    omega

theorem Room.left_add (room : Option Nat) (m n : Nat) : Room.left (Room.left room m) n = Room.left room (m + n) := by
  cases room with
  | none => rfl
  | some r => exact congrArg some (Nat.sub_sub r m n)

/-- Payloads sent in two goes, if the channel takes the first ones. -/
theorem Ports.sendHints_append {p : Ports} {xs : List (List Byte)} (h : Room.accepts p.hintRoom xs.length = true)
    (ys : List (List Byte)) : (p.sendHints xs).sendHints ys = p.sendHints (xs ++ ys) := by
  simp only [Ports.sendHints, Room.taken_append _ _ _ h, Room.left_add, List.append_assoc, List.length_append]

/-- Payloads after those the channel has failed on are not sent. -/
theorem Ports.sendHints_of_not_accepts {p : Ports} {xs : List (List Byte)} (h : ¬ Room.accepts p.hintRoom xs.length = true)
    (ys : List (List Byte)) : p.sendHints (xs ++ ys) = p.sendHints xs := by
  cases hr : p.hintRoom with
  | none => simp [hr, Room.accepts] at h
  | some r =>
    have hlt : r < xs.length := by simpa [hr, Room.accepts] using h
    simp only [Ports.sendHints, hr, Room.taken, Room.left, Option.map_some, List.length_append,
      List.take_append_of_le_length hlt.le]
    rw [Nat.sub_eq_zero_of_le hlt.le, Nat.sub_eq_zero_of_le (by omega)]

/-- Settles O54: the records of the first write are the first records of the whole, and what it leaves starts the second. -/
theorem hintSplitDoesNotMatter : Obligations.HintSplitDoesNotMatter := by
  intro s a b
  obtain ⟨ha, harest, halen⟩ := extractHints_spec (s.lastHint ++ a).length _ (Nat.le_refl _)
  generalize (extractHints _ _).1 = ps, (extractHints _ _).2 = resta at ha harest halen
  obtain ⟨hb, hbrest, hblen⟩ := extractHints_spec (resta ++ b).length _ (Nat.le_refl _)
  generalize (extractHints _ _).1 = qs, (extractHints _ _).2 = restb at hb hbrest hblen
  have hab : s.lastHint ++ (a ++ b) = ((ps ++ qs).map prefixed).flatten ++ restb := by
    rw [← List.append_assoc, ha, List.append_assoc, hb, List.map_append, List.flatten_append, List.append_assoc]
  have hablen : ∀ p ∈ ps ++ qs, p.length < 2 ^ 32 := fun p hp => (List.mem_append.1 hp).elim (halen p) (hblen p)
  rw [writeHint_eq ha halen harest, writeHint_eq hab hablen hbrest, List.length_append]
  by_cases hroom : Room.accepts s.ports.hintRoom ps.length = true
  · rw [if_pos hroom, andThen_next, writeHint_eq (s := { s with lastHint := resta, ports := _ }) hb hblen hbrest]
    rw [Ports.sendHints_append hroom]
    simp only [Room.accepts_add, hroom, true_and]
    rfl
  · have hboth : ¬ Room.accepts s.ports.hintRoom (ps.length + qs.length) = true :=
      fun h => hroom ((Room.accepts_add _ _ _).1 h).1
    rw [if_neg hroom, if_neg hboth, andThen_fault, Ports.sendHints_of_not_accepts hroom]

end Sys2Proof.Machine
end

section
/-! Reads of the preimage and writes of its key (46_preimage.md R281 to R285), and what the ports keep (60_exceptions.md R300). -/

namespace Sys2Proof.Machine

/-! ### Bounds of a read -/

theorem laneCount_pos {count : Word} (h : count ≠ 0) (addr : Word) : 0 < laneCount addr count := by
  have hlt := byteOffset_lt addr
  have hpos : count.toNat ≠ 0 := fun h0 => h (BitVec.eq_of_toNat_eq h0)
  unfold laneCount
  omega

/-- Settles O57: the window holds one byte at the last offset and none past it. -/
theorem preimageReadIsBounded : Obligations.PreimageReadIsBounded := by
  refine fun s addr count hpos => ⟨fun hlast hcount => ?_, fun hpast => ?_⟩
  · have hlane := laneCount_pos hcount addr
    have hlen : (deliveredBytes addr count s).length = 1 := by
      rw [deliveredBytes_length]
      omega
    rw [deliverPreimage_eq, hlen]
    rfl
  · have hlen : (deliveredBytes addr count s).length = 0 := by
      rw [deliveredBytes_length]
      omega
    rw [deliverPreimage_eq, hlen]
    rfl

/-! ### The tracked access -/

/-- A tracked access completes in the same state but for the tracker. -/
theorem track_completes {s : State} {a : Word} (h : Trackable s a) :
    ∃ m p, track a s = .next { s with lastMemAccess := m, proofCache := p } ∧
      Tracked s { s with lastMemAccess := m, proofCache := p } a := by
  obtain ⟨t, ht, htracked, hframe⟩ := track_spec h
  refine ⟨t.lastMemAccess, t.proofCache, ?_, ?_⟩
  · rw [← hframe]
    exact ht
  · rw [← hframe]
    exact htracked

/-! ### A failing oracle -/

/-- What the oracle's answer makes of the fetch of a key that the cache does not hold. -/
theorem fetchPreimage_uncached {s : State} {key : Key} (h : s.lastPreimageKey ≠ some key) :
    (oracleReply s.ports.oracle key = .fail → fetchPreimage key s = .fault (.oracleFailure (s.ports.askPreimage key))) ∧
    (∀ blob, oracleReply s.ports.oracle key = .blob blob → 2 ^ 32 - 4 ≤ blob.length →
      fetchPreimage key s = .fault (.oracleFailure (s.ports.askPreimage key))) ∧
    (oracleReply s.ports.oracle key = .block → fetchPreimage key s = .fault (.oracleBlocked (s.ports.askPreimage key))) := by
  have hc : cached s key = false := by simp [cached, h]
  refine ⟨fun hr => ?_, fun blob hr hlen => ?_, fun hr => ?_⟩
  · simp only [fetchPreimage, hc, hr]
    rfl
  · have hlong : ¬ blob.length + 4 < 2 ^ 32 := by omega
    simp only [fetchPreimage, hc, hr, hlong]
    rfl
  · simp only [fetchPreimage, hc, hr]
    rfl

/-- A read from fd 5 stops if its fetch does; the tracker reaches nothing that the fetch reads. -/
theorem exec_read_preimage_fault {s : State} {f : Fault} (hnum : readReg s 2#5 = callRead)
    (hfd : readReg s 4#5 = fdPreimageRead) (htr : Trackable s (alignDown (readReg s 5#5)))
    (h : ∀ m p, fetchPreimage s.preimageKey { s with lastMemAccess := m, proofCache := p } = .fault f) :
    exec .syscall s = .fault f := by
  obtain ⟨m, p, h1, _⟩ := track_completes htr
  rw [exec_read_preimage hnum hfd, readFromPreimage, h1, andThen_next, readPreimage, h m p]
  rfl

/-- Settles O59: the fetch asks the oracle before it stops; a hint write sends what the channel takes before it stops. -/
theorem portFailuresAbort : Obligations.PortFailuresAbort := by
  refine fun s => ⟨fun hnum hfd htr hkey => ?_, fun hnum hfd payloads rest r hsplit hlen hrest hr hlt => ?_⟩
  · have hfault := fun f h => exec_read_preimage_fault (f := f) hnum hfd htr h
    have hfetch := fun m p => fetchPreimage_uncached (s := { s with lastMemAccess := m, proofCache := p }) hkey
    exact ⟨fun hreply => hfault _ fun m p => (hfetch m p).1 hreply,
      fun blob hreply hlong => hfault _ fun m p => (hfetch m p).2.1 blob hreply hlong,
      fun hreply => hfault _ fun m p => (hfetch m p).2.2 hreply⟩
  · have hsent : s.ports.sendHints payloads =
        { s.ports with hints := s.ports.hints ++ payloads.take r, hintRoom := some 0 } := by
      simp only [Ports.sendHints, hr, Room.taken, Room.left, Option.map_some, Nat.sub_eq_zero_of_le hlt.le]
    rw [exec_write_hint hnum hfd, writeHint_eq hsplit hlen hrest, if_neg (Room.not_accepts_of_lt hr hlt), hsent]
    rfl

/-! ### Writes of the key -/

theorem laneCount_eq (addr count : Word) : laneCount addr count = min (4 - addr.toNat % 4) count.toNat := by
  rw [laneCount, byteOffset_eq]

/-- The key after bytes are accepted: its own bytes shifted left, then those of memory. -/
theorem acceptKeyBytes_key (addr count : Word) (s : State) :
    (acceptKeyBytes addr count s).1.preimageKey.toList =
      s.preimageKey.toList.drop (laneCount addr count) ++ rangeRead s addr (laneCount addr count) := by
  have hle := laneCount_le addr count
  have hkey : (acceptKeyBytes addr count s).1.preimageKey =
      shiftKey s.preimageKey (rangeRead s addr (laneCount addr count)) := by rw [acceptKeyBytes_eq]
  rw [hkey, shiftKey_toList _ _ (by rw [rangeRead_length]; omega), rangeRead_length]

theorem acceptKeyBytes_mem (addr count : Word) (s : State) : (acceptKeyBytes addr count s).1.mem = s.mem := by
  rw [acceptKeyBytes_eq]

/-- The bytes that key writes accept, in order. -/
def acceptedBytes (s : State) (writes : List (Word × Word)) : List Byte :=
  (writes.map fun w => rangeRead s w.1 (laneCount w.1 w.2)).flatten

/-- The key after key writes holds the last 32 of its own bytes and the accepted ones. -/
theorem key_after_writes (s : State) (writes : List (Word × Word)) :
    (writes.foldl (fun u w => (acceptKeyBytes w.1 w.2 u).1) s).preimageKey.toList =
      (s.preimageKey.toList ++ acceptedBytes s writes).drop (acceptedBytes s writes).length := by
  induction writes generalizing s with
  | nil => simp [acceptedBytes]
  | cons w ws ih =>
    have hle := laneCount_le w.1 w.2
    have hbytes : acceptedBytes (acceptKeyBytes w.1 w.2 s).1 ws = acceptedBytes s ws := by
      simp only [acceptedBytes, rangeRead_congr (acceptKeyBytes_mem w.1 w.2 s)]
    have hcons : acceptedBytes s (w :: ws) = rangeRead s w.1 (laneCount w.1 w.2) ++ acceptedBytes s ws := rfl
    have hdrop := List.drop_append_of_le_length (l₁ := s.preimageKey.toList) (i := laneCount w.1 w.2)
      (l₂ := rangeRead s w.1 (laneCount w.1 w.2) ++ acceptedBytes s ws) (by simp; omega)
    rw [List.foldl_cons, ih, hbytes, acceptKeyBytes_key, hcons, List.length_append, rangeRead_length, ← List.drop_drop,
      hdrop, List.append_assoc]

/-- A write to fd 6 is its tracked access, the bytes accepted into the key, and the return. -/
theorem exec_write_preimage {s s1 : State} (hnum : readReg s 2#5 = callWrite) (hfd : readReg s 4#5 = fdPreimageWrite)
    (h1 : track (alignDown (readReg s 5#5)) s = .next s1) :
    exec .syscall s = syscallReturn (acceptKeyBytes (readReg s 5#5) (readReg s 6#5) s1).2 0
      (acceptKeyBytes (readReg s 5#5) (readReg s 6#5) s1).1 := by
  refine (execSyscall_write hnum).trans ?_
  rw [hfd, sysWrite_preimage, writeToPreimage, h1, andThen_next]

/-- Settles O58: the accepted bytes are a range of memory that stays in its word; 32 of them push out all that was there. -/
theorem keyWriteResult : Obligations.KeyWriteResult := by
  refine ⟨fun s hnum hfd htr => ?_, fun s writes hlen => ?_⟩
  · obtain ⟨m, p, h1, htracked⟩ := track_completes htr
    have hkey := acceptKeyBytes_key (readReg s 5#5) (readReg s 6#5) { s with lastMemAccess := m, proofCache := p }
    have hrange : ∀ n, rangeRead { s with lastMemAccess := m, proofCache := p } (readReg s 5#5) n =
        rangeRead s (readReg s 5#5) n := rangeRead_congr (by rfl) _
    rw [hrange] at hkey
    rw [exec_write_preimage hnum hfd h1]
    rw [acceptKeyBytes_eq] at hkey ⊢
    simp only [laneCount_eq] at hkey ⊢
    generalize shiftKey _ _ = key at hkey ⊢
    obtain ⟨t, ht, hret, hmem, honly⟩ := syscallReturn_spec
      (BitVec.ofNat 32 (min (4 - (readReg s 5#5).toNat % 4) (readReg s 6#5).toNat)) 0
      { s with lastMemAccess := m, proofCache := p, preimageKey := key, preimageOffset := 0 }
    have htkey : t.preimageKey = key := by rw [honly]
    have htoffset : t.preimageOffset = 0 := by rw [honly]
    have htaccess : t.lastMemAccess = m := by rw [honly]
    have htproof : t.proofCache = p := by rw [honly]
    refine ⟨t, ht, hret, ?_, htoffset, hmem, ?_, ?_⟩
    · rw [htkey]
      exact hkey
    · rw [Tracked, htaccess, htproof]
      exact htracked
    · rw [htkey, htoffset, htaccess, htproof]
      exact honly
  · simp only [← laneCount_eq] at hlen ⊢
    have hall := key_after_writes s writes
    rw [hall]
    unfold acceptedBytes
    rw [hlen]
    exact List.drop_left' (by simp)

/-! ### A read of a known key -/

/-- The word an address lies in, with some of its bytes from the address on replaced. -/
def placedWord (s : State) (a : Word) (dat : List Byte) : Word :=
  wordOfBytes (placeBytes (wordBytes (memRead s (alignDown a))) (byteOffset a) dat)

section placed
variable {s t : State} (hwf : Memory.wf s.mem = true) {a : Word} {dat : List Byte}
  (hmem : t.mem = Memory.writeWord s.mem (alignDown a) (placedWord s a dat)) (hfit : byteOffset a + dat.length ≤ 4)
include hwf hmem hfit

theorem rangeRead_placed : rangeRead t a dat.length = dat := by
  refine List.ext_getElem (rangeRead_length _ _ _) fun i h1 h2 => ?_
  obtain ⟨hword, hoff⟩ := address_in_word (a := a) (i := i) (by omega)
  rw [rangeRead_getElem, memByte_stored hwf hmem hword, placedWord, laneByte_placeBytes _ _ _ _ hfit, hoff,
    if_pos (by omega), Nat.add_sub_cancel_left, List.getD_eq_getElem _ _ h2]

theorem memByte_not_placed {x : Word} (hx : ¬ (a.toNat ≤ x.toNat ∧ x.toNat < a.toNat + dat.length)) :
    memByte t x = memByte s x := by
  refine memByte_not_stored hwf hmem fun hword => ?_
  rw [alignDown_eq_iff] at hword
  rw [placedWord, laneByte_placeBytes _ _ _ _ hfit, byteOffset_eq, byteOffset_eq, if_neg (by omega)]

end placed

/-- The state in which a read from fd 5 of a known key delivers. -/
def fetchedState (s : State) (blob : List Byte) (m : Option Word) (p : Option MerkleProof) : State :=
  { s with
    lastMemAccess := m, proofCache := p, lastPreimageKey := some s.preimageKey, lastPreimage := prefixed blob,
    lastPreimageOffset := s.preimageOffset,
    ports := { s.ports with preimageKeys :=
      if s.lastPreimageKey = some s.preimageKey then s.ports.preimageKeys else s.ports.preimageKeys ++ [s.preimageKey] } }

theorem exec_read_known {s : State} {blob : List Byte} {m : Option Word} {p : Option MerkleProof}
    (hnum : readReg s 2#5 = callRead) (hfd : readReg s 4#5 = fdPreimageRead)
    (h1 : track (alignDown (readReg s 5#5)) s = .next { s with lastMemAccess := m, proofCache := p })
    (hk : KnownPreimage s s.preimageKey blob) (hc : s.lastPreimageKey = some s.preimageKey → s.lastPreimage = prefixed blob) :
    exec .syscall s =
      syscallReturn (deliverPreimage (readReg s 5#5) (readReg s 6#5) (fetchedState s blob m p)).2 0
        (deliverPreimage (readReg s 5#5) (readReg s 6#5) (fetchedState s blob m p)).1 := by
  have hfetch : readPreimage s.preimageKey s.preimageOffset { s with lastMemAccess := m, proofCache := p } =
      .next (fetchedState s blob m p) := by
    rw [readPreimage, fetchPreimage_known (s := { s with lastMemAccess := m, proofCache := p }) hk hc, andThen_next,
      fetchedState]
    split <;> rfl
  rw [exec_read_preimage hnum hfd, readFromPreimage, h1, andThen_next, hfetch]
  rfl

/-- The window of 32 bytes never cuts a delivery short. -/
theorem deliveredBytes_eq (addr count : Word) (s : State) :
    deliveredBytes addr count s = (s.lastPreimage.drop s.preimageOffset.toNat).take (laneCount addr count) := by
  have hle := laneCount_le addr count
  rw [deliveredBytes, preimageWindow, List.take_take, Nat.min_eq_left (by omega)]

/-- Settles O56: the fetch makes the buffer the oracle's, the delivery puts its bytes into the word and moves the offset. -/
theorem preimageReadResult : Obligations.PreimageReadResult := by
  intro s blob a1 a2 buffer dat hnum hfd hwf htr hk hc
  obtain ⟨m, p, h1, htracked⟩ := track_completes htr
  have hdat : deliveredBytes a1 a2 (fetchedState s blob m p) = dat := by
    rw [deliveredBytes_eq, laneCount_eq]
    rfl
  have hfit : byteOffset a1 + dat.length ≤ 4 := by
    have := laneCount_le a1 a2
    rw [← hdat, deliveredBytes_eq, List.length_take]
    omega
  rw [exec_read_known hnum hfd h1 hk hc, deliverPreimage_eq, hdat]
  obtain ⟨t, ht, hret, _, honly⟩ := syscallReturn_spec (BitVec.ofNat 32 dat.length) 0
    { memWrite (fetchedState s blob m p) (alignDown a1) (placedWord s a1 dat) with
      preimageOffset := s.preimageOffset + BitVec.ofNat 32 dat.length }
  have htmem : t.mem = Memory.writeWord s.mem (alignDown a1) (placedWord s a1 dat) := by
    rw [honly]
    rfl
  have htaccess : t.lastMemAccess = m := by rw [honly]; rfl
  have htproof : t.proofCache = p := by rw [honly]; rfl
  have htoffset : t.preimageOffset = s.preimageOffset + BitVec.ofNat 32 dat.length := by rw [honly]
  have htkey : t.lastPreimageKey = some s.preimageKey := by rw [honly]; rfl
  have htbuffer : t.lastPreimage = buffer := by rw [honly]; rfl
  have htread : t.lastPreimageOffset = s.preimageOffset := by rw [honly]; rfl
  have htports : t.ports = (fetchedState s blob m p).ports := by rw [honly]; rfl
  refine ⟨t, ht, hret, rangeRead_placed hwf htmem hfit, fun x hx => memByte_not_placed hwf htmem hfit hx, htoffset, htkey,
    htbuffer, htread, congrArg Ports.preimageKeys htports, ?_, ?_⟩
  · rw [Tracked, htaccess, htproof]
    exact htracked
  · rw [htmem, htaccess, htproof, htoffset, htkey, htbuffer, htread, htports]
    exact honly

/-! ### What the ports keep -/

theorem step_next_ports {s t : State} (h : step s = .next t) : s.ports.Extends t.ports := by
  rcases step_eq_next h with ⟨_, rfl⟩ | ⟨_, _, i, _, hx⟩
  · exact Ports.Extends.refl _
  · exact (exec_next_ports hx).1

/-- What a step that stops has added to the ports: nothing, if it is not in a system call. -/
theorem step_fault_ports {s : State} {f : Fault} (h : step s = .fault f) :
    s.ports.Extends (f.portsAfter s.ports) ∧
      (decode (memRead s s.pc) ≠ .ok .syscall → f.portsAfter s.ports = s.ports) := by
  obtain ⟨_, ⟨_, rfl⟩ | ⟨_, e, _, rfl⟩ | ⟨_, i, hd, hx⟩⟩ := step_eq_fault h
  · exact ⟨Ports.Extends.refl _, fun _ => rfl⟩
  · have hports : (decodeFault (memRead s s.pc) e).portsAfter s.ports = s.ports := by
      cases e <;> rfl
    rw [hports]
    exact ⟨Ports.Extends.refl _, fun _ => rfl⟩
  · obtain ⟨hext, hsame⟩ := exec_fault_ports hx
    refine ⟨hext, fun hne => hsame ?_⟩
    rintro rfl
    exact hne hd

theorem runFor_next {s t : State} (h : step s = .next t) (n : Nat) : runFor (n + 1) s = runFor n t := by
  rw [runFor, h]

/-- A run whose first step stops ends there. -/
theorem runFor_fault {s : State} {f : Fault} (h : step s = .fault f) (n : Nat) :
    runFor (n + 1) s = .aborted f s (f.portsAfter s.ports) ∨
      (f = .oracleBlocked (f.portsAfter s.ports) ∧ runFor (n + 1) s = .stuck s (f.portsAfter s.ports)) := by
  rw [runFor, h]
  cases f with
  | oracleBlocked p => exact .inr ⟨rfl, rfl⟩
  | _ => exact .inl rfl

/-- Settles O60: by induction on the run; each step extends the ports, and the run ends at the first one that stops. -/
theorem portTransactionsAreNotRetracted : Obligations.PortTransactionsAreNotRetracted := by
  intro n
  induction n with
  | zero =>
    intro s
    unfold runFor
    cases s.exited with
    | true => exact ⟨Ports.Extends.refl _, by simp⟩
    | false => exact ⟨Ports.Extends.refl _, by simp⟩
  | succ n ih =>
    intro s
    cases hst : step s with
    | next t =>
      rw [runFor_next hst]
      obtain ⟨hext, hlast⟩ := ih t
      refine ⟨(step_next_ports hst).trans hext, fun f before ports hrun => ?_⟩
      obtain ⟨hfault, hrunning, hports, hbefore, hafter⟩ := hlast f before ports hrun
      exact ⟨hfault, hrunning, hports, (step_next_ports hst).trans hbefore, hafter⟩
    | fault f =>
      obtain ⟨hext, hsame⟩ := step_fault_ports hst
      have hlast : step s = .fault f ∧ s.exited = false ∧ f.portsAfter s.ports = f.portsAfter s.ports ∧
          s.ports.Extends s.ports ∧ s.ports.Extends (f.portsAfter s.ports) ∧
          (decode (memRead s s.pc) ≠ .ok .syscall → f.portsAfter s.ports = s.ports) :=
        ⟨hst, (step_eq_fault hst).1, rfl, Ports.Extends.refl _, hext, hsame⟩
      rcases runFor_fault hst n with hrun | ⟨hf, hrun⟩
      · rw [hrun]
        refine ⟨hext, ?_⟩
        rintro f' before ports (h | ⟨_, h⟩)
        · cases h
          exact hlast
        · cases h
      · rw [hrun]
        refine ⟨hext, ?_⟩
        rintro f' before ports (h | ⟨hf', h⟩)
        · cases h
        · obtain ⟨rfl, rfl⟩ := RunOutcome.stuck.inj h
          obtain rfl : f' = f := hf'.trans hf.symm
          exact hlast
    | refused e =>
      rw [runFor, hst]
      exact ⟨Ports.Extends.refl _, by simp⟩

end Sys2Proof.Machine
end
